-- ==== Sys2Proof/Word.lean ====
section
/-! DEFINITION. The word types of the block (spec 00_scope.md R8, R9; 10_state.md R21, R28, R31). -/

namespace Sys2Proof

/-- A BUFMEM byte, one item of a byte port or one bit cell (R10, R14). -/
abbrev Byte := BitVec 8

/-- A CSR value, a command word, an operand address or a count (R21, R28). -/
abbrev Word := BitVec 32

/-- An AAS port number, 16 bits wide (R31, R84). -/
abbrev Port := BitVec 16

/-- A value written to a 32-bit register is taken modulo 2^32 (R9). -/
abbrev toWord (n : Nat) : Word := BitVec.ofNat 32 n

/-- The byte 0 or 1 of a bit cell (R10, R63). -/
abbrev bitCell (b : Bool) : Byte := (BitVec.ofBool b).setWidth 8

end Sys2Proof
end

