-- ==== Sys2Proof/Config.lean ====
section
/-! DEFINITION. The configuration record CFG, fixed when the instance is made (00_scope.md R6), and the free
values of the model: constants without a body, of which no proof can know anything. -/

namespace Sys2Proof

/-- Which end of the 7-bit encoder register holds the newest bit (40_scrambler_convenc.md R106, D8). -/
inductive RegOrder where
  | msbNewest
  | lsbNewest
deriving DecidableEq, Repr, Inhabited

/-- The primary service modes (R2, R6). -/
inductive Psm where
  | psm1 | psm2 | psm3 | psm5 | psm6 | psm11
deriving DecidableEq, Repr, Inhabited

/-- `partitions_per_band()` of R6 and R176. -/
def Psm.partitionsPerBand : Psm → Nat
  | .psm1 => 10
  | .psm2 => 11
  | .psm3 => 12
  | .psm5 | .psm6 | .psm11 => 14

/-- Which cell of a pair is the high bit of a 2-bit symbol (42_l1_symbol_mapper.md R174). -/
inductive SymPack where
  | hiFirst
  | loFirst
deriving DecidableEq, Repr, Inhabited

/-- The bit order of the L2 frame (44_l2_multiplexer.md R223). -/
inductive L2BitOrder where
  | msbFirst
  | lsbFirst
deriving DecidableEq, Repr, Inhabited

/-- The logical channels whose code rate and type IV instance are parameters (R115, D15, D34). -/
inductive Channel where
  | p1prime | p2 | p3 | p4
deriving DecidableEq, Repr, Inhabited

/-- The two code rates (R107). -/
inductive CodeRate where
  | rate25 | rate12
deriving DecidableEq, Repr, Inhabited

/-- The parameters of one type IV interleaver instance (41_interleaver.md R150). The functions of the spec are
tables over their finite domains: `part` is PART on 0..N/2-1, `base` is BASE on 0..J-1, `read0` and
`read1` are R(0, ·) and R(1, ·) on 0..N/2-1. -/
structure IvCfg where
  j : Nat
  n : Nat
  part : List Nat
  base : List Nat
  read0 : List Nat
  read1 : List Nat
deriving DecidableEq, Repr, Inhabited

/-- A reference subcarrier and its sequence identifier (R172). -/
structure RefEntry where
  sc : Nat
  scid : Nat
deriving DecidableEq, Repr, Inhabited

/-- A secondary-channel entry (symbol, subcarrier, region offset) (R175). -/
structure SecEntry where
  sym : Nat
  sc : Nat
  off : Nat
deriving DecidableEq, Repr, Inhabited

/-- The configuration record CFG (R6). A parameter that the spec derives from others is a function below
and no field. `dataSc` lists DATA_SC(q, m) at index 18*q + m; `refSym` lists REF_SYM[0..3];
NIV, NPROG and HS_LEN are the lengths of `iv`, `progBytes` and `hsCode`. -/
structure Cfg where
  bufBytes : Nat
  convRegOrder : RegOrder
  psm : Psm
  p1Mod : Nat
  p3Mod : Nat
  p4Mod : Nat
  vTable : List Nat
  iv : List IvCfg
  ivOf : List (Channel × Nat)
  chRate : List (Channel × CodeRate)
  fftSize : Nat
  refSc : List RefEntry
  refSym : List (List Nat)
  dataSc : List Nat
  symPack : SymPack
  secBytes : Nat
  secMap : List SecEntry
  rsFcr : Nat
  rsPrim : Nat
  crcRpoly : Byte
  crcInit : Byte
  crcXorout : Byte
  progBytes : List Nat
  dataBytes : Nat
  targetNop : Nat
  lcBits : Nat
  psdBytes : Nat
  codecMode : Nat
  padByte : Byte
  cccWidth : Nat
  cccMsg : List Byte
  bbmBytes : List Byte
  bbmPeriod : Nat
  fdsIdle : Byte
  hsCode : List Bool
  hsNstart : Nat
  hsNoffset : Nat
  l2BitOrder : L2BitOrder
  audqDepth : Nat
  aasQbytes : Nat
  evqDepth : Nat
deriving DecidableEq, Repr, Inhabited

/-- The parameters of CFG that are functions over unbounded arguments (R206, R207, R216), each given byte by
byte: the last argument is the index of the byte. -/
structure FrameFns where
  /-- CW_FN(p, s0, n, FRAMECNT), byte i of 6. -/
  cw : Nat → Nat → Nat → Nat → Nat → Byte
  /-- HDREXT_FN(p, FRAMECNT), byte i of 3. -/
  hdrExt : Nat → Nat → Nat → Byte
  /-- SYNC_FN(FRAMECNT). -/
  sync : Nat → Byte
  /-- LOC_ENC(LC_BITS, ends), byte i of LOC_BYTES(|ends|). -/
  locEnc : Nat → List Nat → Nat → Byte

/-- CW_FN (R207): OPEN, so a free value. -/
opaque Config.cwFn : Nat → Nat → Nat → Nat → Nat → Byte

/-- HDREXT_FN (R207): OPEN, so a free value. -/
opaque Config.hdrExtFn : Nat → Nat → Nat → Byte

/-- SYNC_FN (R216): OPEN, so a free value. -/
opaque Config.syncFn : Nat → Byte

/-- LOC_ENC (R206): OPEN, so a free value. -/
opaque Config.locEncFn : Nat → List Nat → Nat → Byte

/-- The open functions of this instance. -/
def Config.frameFns : FrameFns := ⟨Config.cwFn, Config.hdrExtFn, Config.syncFn, Config.locEncFn⟩

/-- The record the instance was asked for at construction: every OPEN parameter at once, a free value. -/
opaque Config.requested : Cfg

/-- The power-on draws of BUFMEM (20_memory.md R62): the byte at an address, for each draw number. -/
opaque Config.bufDraw : Nat → Nat → Byte

/-- The reset draws of the type IV buffers (10_state.md R38): draw number, instance, cell. -/
opaque Config.ivDraw : Nat → Nat → Nat → Byte

/-- What the unspecified latch LAT holds after a reset (R37, U17): draw number, field. -/
opaque Config.latDraw : Nat → Nat → Word

end Sys2Proof
end

