-- ==== Sys2Proof/Machine/CfgRules.lean ====
section
/-! DEFINITION. The derived parameters of CFG, the constraints under which an instance exists (00_scope.md R6,
41_interleaver.md R156, 42_l1_symbol_mapper.md R177, 43_reed_solomon.md R191, 44_l2_multiplexer.md R222), and the
configuration of the instance the model describes. -/

namespace Sys2Proof

/-! ## Fixed sizes (R6, R140) -/

/-- J, the partitions of the type I/II matrix. -/
abbrev matJ : Nat := 20

/-- B, its blocks. -/
abbrev matB : Nat := 16

/-- C, its columns per partition. -/
abbrev matC : Nat := 36

/-- ROWS_PER_BLOCK. -/
abbrev rowsPerBlock : Nat := 32

/-- Columns of a matrix row, J·C. -/
abbrev matCols : Nat := 720

/-- Cells of the matrix. -/
def matCells : Nat := 368640

/-- N1, the P1 coded bits of a frame. -/
def n1 : Nat := 365440

/-- N2, the PIDS coded bits of a frame. -/
def n2 : Nat := 3200

/-- SYMBOLS_PER_FRAME (R171). -/
abbrev symbolsPerFrame : Nat := 512

/-- BLOCKS_PER_FRAME (R6). -/
abbrev blocksPerFrame : Nat := 16

/-! ## Derived parameters -/

/-- NIV. -/
def Cfg.niv (c : Cfg) : Nat := c.iv.length

/-- IV[k]; only ever used with k < NIV. -/
def Cfg.ivAt (c : Cfg) (k : Nat) : IvCfg := c.iv.getD k default

/-- NPROG. -/
def Cfg.nprog (c : Cfg) : Nat := c.progBytes.length

/-- PROG_BYTES[p]. -/
def Cfg.progBytesAt (c : Cfg) (p : Nat) : Nat := c.progBytes.getD p 0

/-- HS_LEN. -/
def Cfg.hsLen (c : Cfg) : Nat := c.hsCode.length

/-- PAYLOAD_BYTES (R200). -/
def Cfg.payloadBytes (c : Cfg) : Nat := c.progBytes.sum + c.dataBytes

/-- FRAME_BITS (R200). -/
def Cfg.frameBits (c : Cfg) : Nat := 8 * c.payloadBytes + c.hsLen

/-- LOC_BYTES(n) (R206). -/
def Cfg.locBytes (c : Cfg) (n : Nat) : Nat := (n * c.lcBits + 7) / 8

/-- A(p), the bytes shared by locators and audio (R208). -/
def Cfg.area (c : Cfg) (p : Nat) : Nat := c.progBytesAt p - 17 - c.psdBytes

/-- Bytes of an L1 output frame (R170). -/
def Cfg.l1FrameBytes (c : Cfg) : Nat := symbolsPerFrame * c.fftSize

/-- DATA_SC(q, m) (R173). -/
def Cfg.dataScAt (c : Cfg) (q m : Nat) : Nat := c.dataSc.getD (18 * q + m) 0

/-- REF_SYM[scid][s] (R172). -/
def Cfg.refSymAt (c : Cfg) (scid s : Nat) : Nat := (c.refSym.getD scid []).getD s 0

/-- P_k, the output position of codeword bit k (R222). -/
def Cfg.hsPos (c : Cfg) (k : Nat) : Nat := c.hsNstart + k * (c.hsNoffset + 1)

/-! ## Type IV placement (R152) -/

/-- PART(i). -/
def IvCfg.partOf (c : IvCfg) (i : Nat) : Nat := c.part.getD i 0

/-- BASE(q). -/
def IvCfg.baseOf (c : IvCfg) (q : Nat) : Nat := c.base.getD q 0

/-- R(h, i). -/
def IvCfg.readCell (c : IvCfg) (h : Bool) (i : Nat) : Nat :=
  (if h then c.read1 else c.read0).getD i 0

/-- N/2, the bits of one call. -/
def IvCfg.half (c : IvCfg) : Nat := c.n / 2

/-- The start of every cursor pt[q] in a call with current half `h` (R152, R153). -/
def IvCfg.cursorStart (c : IvCfg) (h : Bool) : Nat := h.toNat * c.half / c.j

/-- The cells written for a list of partitions, from cursors `pt`: each cursor moves on as it is used. -/
def IvCfg.placeFrom (c : IvCfg) : List Nat → List Nat → List Nat
  | [], _ => []
  | q :: qs, pt => (c.baseOf q + pt.getD q 0) :: c.placeFrom qs (pt.set q (pt.getD q 0 + 1))

/-- W(h, i) for i = 0 .. N/2-1, in order; its members are the half-set H_h (R152). -/
def IvCfg.writeCells (c : IvCfg) (h : Bool) : List Nat :=
  c.placeFrom ((List.range c.half).map c.partOf) (List.replicate c.j (c.cursorStart h))

/-- The cells read by a call with current half `h`, in output order (R154). -/
def IvCfg.readCells (c : IvCfg) (h : Bool) : List Nat :=
  (List.range c.half).map (c.readCell h)

/-! ## Constraints -/

/-- No element stands twice. -/
def distinct {α : Type} [BEq α] : List α → Bool
  | [] => true
  | a :: l => !l.contains a && distinct l

/-- The two lists have the same members. -/
def sameMembers (a b : List Nat) : Bool := a.all b.contains && b.all a.contains

/-- R150 and R156 for one instance: sizes, then (a) regions, (b) PART, (c) halves, (d) read maps. -/
def IvCfg.valid (c : IvCfg) : Bool :=
  (c.j == 2 || c.j == 4) && c.n % (2 * c.j) == 0 &&
  c.part.length == c.half && c.base.length == c.j &&
  c.read0.length == c.half && c.read1.length == c.half &&
  c.part.all (· < c.j) &&
  (List.range c.j).all (fun q => c.baseOf q + c.n / c.j ≤ c.n &&
    (List.range q).all (fun r => c.baseOf q + c.n / c.j ≤ c.baseOf r || c.baseOf r + c.n / c.j ≤ c.baseOf q)) &&
  (List.range c.j).all (fun q => c.part.count q == c.n / (2 * c.j)) &&
  (c.writeCells false).all (fun a => !(c.writeCells true).contains a) &&
  distinct (c.readCells false) && sameMembers (c.readCells false) (c.writeCells true) &&
  distinct (c.readCells true) && sameMembers (c.readCells true) (c.writeCells false)

/-- R6: the buffer memory, the queue capacities and the multipliers. -/
def Cfg.platformOk (c : Cfg) : Bool :=
  decide (1 ≤ c.bufBytes) && decide (c.bufBytes ≤ 2 ^ 32) && (c.p1Mod == 1 || c.p1Mod == 8) &&
  decide (1 ≤ c.audqDepth) && decide (1 ≤ c.aasQbytes) && decide (1 ≤ c.evqDepth)

/-- R141: V_TABLE is a permutation of 0..19; R6 and R156: the type IV instances. -/
def Cfg.interleaverOk (c : Cfg) : Bool :=
  c.vTable.length == 20 && c.vTable.all (· < 20) && distinct c.vTable &&
  decide (c.niv ≤ 8) && c.iv.all IvCfg.valid

/-- R172 to R177: the tables of the L1 mapper. -/
def Cfg.mapperOk (c : Cfg) : Bool :=
  decide (1 ≤ c.fftSize) &&
  c.refSc.all (fun e => e.sc < c.fftSize && e.scid < 4) &&
  c.refSym.length == 4 && c.refSym.all (fun l => l.length == symbolsPerFrame && l.all (· < 4)) &&
  c.dataSc.length == 360 && c.dataSc.all (· < c.fftSize) &&
  distinct (c.refSc.map RefEntry.sc) && distinct c.dataSc &&
  c.dataSc.all (fun a => !(c.refSc.map RefEntry.sc).contains a) &&
  c.secMap.all (fun e => e.sym < symbolsPerFrame && e.sc < c.fftSize && e.off + 1 < c.secBytes &&
    !(c.refSc.map RefEntry.sc).contains e.sc && !c.dataSc.contains e.sc) &&
  distinct (c.secMap.map (fun e => (e.sym, e.sc))) &&
  (c.psm != .psm1 || (c.secBytes == 0 && c.secMap.isEmpty))

/-- R191: the roots of the Reed-Solomon generator are distinct. -/
def Cfg.rsOk (c : Cfg) : Bool :=
  decide (c.rsFcr ≤ 254) && decide (1 ≤ c.rsPrim) && decide (c.rsPrim ≤ 254) && Nat.gcd c.rsPrim 255 == 1

/-- R6, R200 to R223: the L2 frame. -/
def Cfg.l2Ok (c : Cfg) : Bool :=
  decide (1 ≤ c.nprog) && decide (c.nprog ≤ 32) && (c.lcBits == 12 || c.lcBits == 16) &&
  c.progBytes.all (fun b => decide (17 + c.psdBytes + c.locBytes 1 + 1 ≤ b)) &&
  (c.dataBytes == 0 || decide (1 + c.cccWidth + 4 ≤ c.dataBytes)) &&
  !c.cccMsg.isEmpty && c.bbmBytes.length == 4 && decide (5 ≤ c.bbmPeriod) &&
  decide (22 ≤ c.hsLen) && decide (c.hsLen ≤ 24) && decide (c.hsPos (c.hsLen - 1) < c.frameBits)

/-- The constraints on CFG: an instance whose CFG breaks one does not exist (R6, R291). -/
def Cfg.valid (c : Cfg) : Bool :=
  c.platformOk && c.interleaverOk && c.mapperOk && c.rsOk && c.l2Ok

/-- A configuration that meets every constraint, made of the hints of 93_implementation_defined.md and the
toy values of 95_test_vectors.md (V36 and section 2.8). It shows that instances exist. -/
def Cfg.sample : Cfg where
  bufBytes := 0x1000
  convRegOrder := .msbNewest
  psm := .psm1
  p1Mod := 1
  p3Mod := 1
  p4Mod := 1
  vTable := [10, 2, 18, 6, 14, 8, 16, 0, 12, 4, 11, 3, 19, 7, 15, 9, 17, 1, 13, 5]
  iv := [⟨2, 8, [0, 1, 0, 1], [0, 4], [2, 6, 3, 7], [0, 4, 1, 5]⟩]
  ivOf := [(.p3, 0)]
  chRate := []
  fftSize := 364
  refSc := [⟨0, 0⟩, ⟨361, 3⟩]
  refSym := (List.range 4).map (List.replicate 512)
  dataSc := (List.range 360).map (· + 1)
  symPack := .hiFirst
  secBytes := 0
  secMap := []
  rsFcr := 1
  rsPrim := 1
  crcRpoly := 0x8C
  crcInit := 0
  crcXorout := 0
  progBytes := [40]
  dataBytes := 0
  targetNop := 2
  lcBits := 16
  psdBytes := 2
  codecMode := 0
  padByte := 0
  cccWidth := 0
  cccMsg := [0x7e]
  bbmBytes := [0xa0, 0xa1, 0xa2, 0xa3]
  bbmPeriod := 6
  fdsIdle := 0
  hsCode := (List.range 24).map (fun k => Nat.testBit 0xD2C35A (23 - k))
  hsNstart := 1
  hsNoffset := 12
  l2BitOrder := .msbFirst
  audqDepth := 4
  aasQbytes := 64
  evqDepth := 4

/-- The CFG of the instance: the requested record, which is a free value, if it meets the constraints. An
instance whose request breaks one is not made (R6), so every value of this constant is a valid CFG and
every valid CFG is a value it may have. -/
def Config.cfg : Cfg := if Config.requested.valid then Config.requested else Cfg.sample

end Sys2Proof
end

