-- ==== Sys2Proof/Machine/State.lean ====
section
/-! DEFINITION. The state of the block and of its host as plain data (10_state.md R20 to R43), the reasons a step
can stop, and the state after power-on reset (70_reset_and_hazards.md R300). -/

namespace Sys2Proof.Machine

/-! ## Control and status registers -/

/-- The command phase (R37). -/
inductive Phase where
  | idle
  | busy
deriving DecidableEq, Repr

/-- The sticky STATUS bits (R24). BUSY, EVPEND and IRQ are computed from other state. -/
structure Flags where
  done : Bool
  err : Bool
  warn : Bool
  stall : Bool
  cmdovr : Bool
  evovf : Bool
deriving DecidableEq, Repr

/-- All sticky bits 0. -/
def Flags.none : Flags := ⟨false, false, false, false, false, false⟩

/-- The CSR bank (R21), one home per register. STATUS stands in `flags`; IVSTAT, L2FRAMES and EVQ are views
of other state. `cause` holds bits [7:0] (R26), `lfsr` bits [10:0] (R30), `irqen` bits [3:0] (R33). -/
structure Csr where
  cmd : Word
  flags : Flags
  cause : Byte
  info : Word
  src : Word
  dst : Word
  len : Word
  aux : Word
  incnt : Word
  outcnt : Word
  lfsr : BitVec 11
  irqen : BitVec 4
  warnmask : Word
deriving DecidableEq, Repr

/-- The reset values of R21 and R43. -/
def Csr.reset : Csr where
  cmd := 0
  flags := Flags.none
  cause := 0
  info := 0
  src := 0
  dst := 0
  len := 0
  aux := 0
  incnt := 0
  outcnt := 0
  lfsr := 0x3FF
  irqen := 0
  warnmask := 0

/-- The latched command word and operands (R37). -/
structure Lat where
  w : Word
  src : Word
  dst : Word
  len : Word
  aux : Word
deriving DecidableEq, Repr

/-- LAT is unspecified after a reset (R37, U17): draw number `d` gives each field a free value. -/
def Lat.drawn (d : Nat) : Lat :=
  ⟨Config.latDraw d 0, Config.latDraw d 1, Config.latDraw d 2, Config.latDraw d 3, Config.latDraw d 4⟩

/-! ## Type IV interleaver instances -/

/-- IVBUF[k] and IVHALF[k] (R38); `half` is true for 1. -/
structure IvState where
  buf : List Byte
  half : Bool
deriving DecidableEq, Repr

/-- Instance `k` after a reset: half 0 and drawn cells (R38). -/
def IvState.drawn (c : Cfg) (d k : Nat) : IvState :=
  ⟨(List.range (c.ivAt k).n).map (Config.ivDraw d k), false⟩

/-- All instances after a reset. -/
def ivReset (c : Cfg) (d : Nat) : List IvState := (List.range c.niv).map (IvState.drawn c d)

/-! ## L2 multiplexer -/

/-- A split sub-frame (sf, k, crc): its payload, the bytes already emitted, and the running CRC (R39). -/
structure Partial where
  sf : List Byte
  k : Nat
  crc : Byte
deriving DecidableEq, Repr

/-- SEQ[p], PART[p], AUDQ[p] and PSD[p] (R39). -/
structure ProgState where
  seq : Nat
  part : Option Partial
  audq : List (List Byte)
  psd : Option (List Byte)
deriving DecidableEq, Repr

/-- The reset values of R39. -/
def ProgState.reset : ProgState := ⟨0, none, [], none⟩

/-- The L2 state (R39, R40). PORTS and AASQ are one list, sorted by port: the ports that stand in it are
PORTS. -/
structure L2State where
  progs : List ProgState
  frameCnt : Nat
  aasq : List (Port × List Byte)
  curPort : Option Port
  inPdu : Bool
  fdsPos : Nat
  cccPos : Nat
deriving DecidableEq, Repr

/-- The reset values of R39 and R40. -/
def L2State.reset (c : Cfg) : L2State :=
  ⟨List.replicate c.nprog ProgState.reset, 0, [], none, false, 0, 0⟩

/-! ## BUFMEM -/

/-- What BUFMEM held at power-on (20_memory.md R62): a byte per address, drawn under no law. `drawn d` is the
free draw number `d`; `uniform b` is the draw in which every byte came out as `b`. -/
inductive PowerOn where
  | uniform (b : Byte)
  | drawn (d : Nat)
deriving DecidableEq, Repr

/-- BUFMEM: its power-on contents, and the bytes that differ from them by address. -/
structure Memory where
  powerOn : PowerOn
  cells : List Host.Cell
deriving DecidableEq, Repr

/-! ## The host -/

/-- The width of a host access: 1, 2 or 4 bytes (R65). DESIGN CHOICE (log entry 26): a CSR access of "another width" (R66)
is one of 1 or 2 bytes; a wider one cannot be written down. -/
inductive Width where
  | byte
  | half
  | word
deriving DecidableEq, Repr

/-- One line of a host program, in the access forms of 30_encoding.md R90. -/
inductive HostLine where
  /-- `rd NAME`: read the CSR at an offset. -/
  | rd (wd : Width) (off : BitVec 8)
  /-- `wr NAME, v`: write the CSR at an offset. -/
  | wr (wd : Width) (off : BitVec 8) (v : Word)
  /-- Read BUFMEM. -/
  | mr (wd : Width) (a : Word)
  /-- Write BUFMEM. -/
  | mw (wd : Width) (a : Word) (v : Word)
  /-- `loop_until NAME.FIELD == v, label`: read the CSR at `off`; while bits hi..lo differ from `v`, go back
  to line `label`. -/
  | loopUntil (off : BitVec 8) (hi lo : Nat) (v : Nat) (label : Nat)
deriving DecidableEq, Repr

/-- The two agents (R20). -/
inductive Agent where
  | host
  | block
deriving DecidableEq, Repr

/-- The host: its program, the line it is at, the values its reads returned (newest first), and the order in
which the agents move next. When `turns` is empty the block moves while BUSY and the host otherwise. -/
structure HostState where
  program : List HostLine
  pc : Nat
  responses : List Word
  turns : List Agent
deriving DecidableEq, Repr

/-- A host with nothing to do. -/
def HostState.empty : HostState := ⟨[], 0, [], []⟩

/-- The set FAULTS of model-only marks (R41, 60_exceptions.md R291): which marks it holds. -/
structure Marks where
  hostHazard : Bool
  csrAccess : Bool
deriving DecidableEq, Repr

/-- FAULTS is empty. -/
def Marks.none : Marks := ⟨false, false⟩

/-! ## The whole state -/

/-- The state (R20), with the constant CFG of the instance beside it. -/
structure State where
  cfg : Cfg
  csr : Csr
  phase : Phase
  lat : Lat
  iv : List IvState
  l2 : L2State
  evq : List Port
  mem : Memory
  faults : Marks
  draws : Nat
  host : HostState
deriving DecidableEq, Repr

/-- Why the machine stops with a fault. Every command completes, so no command raises one. -/
inductive Fault where
  /-- Raised by a host read or write of BUFMEM that touches an address of BUF_BYTES or more, which does not
  exist (R60). Safe: the model stops where the spec gives the access no meaning. -/
  | bufAddress (a : Nat)
deriving DecidableEq, Repr

/-- Why an instruction has no meaning in the model. -/
inductive Refusal where
  /-- Raised by an arm of `exec` whose instruction is not modelled. Safe: nothing is claimed of it. -/
  | notModelled (mnemonic : String)
deriving DecidableEq, Repr

/-! ## Completions -/

/-- The causes of an error completion (R271). -/
inductive Cause where
  | illegalCmd
  | rsvdNonzero
  | badLen
  | addrRange
  | overlap
  | badBit
  | badProg
  | queueFull
  | notConfigured
  | badAdts
  | badHdlc
deriving DecidableEq, Repr

/-- How a command ends (R12, R100): as an error, as a stall, or successfully, with the items it consumed and
produced and the state that holds its effects. -/
inductive Completion where
  | error (c : Cause) (info : Word)
  | stall
  | ok (inItems outItems : Nat) (s : State)
deriving DecidableEq, Repr

/-! ## Reset -/

/-- The state of an instance with CFG `c` right after power-on reset (R43, R300). -/
def State.resetWith (c : Cfg) : State where
  cfg := c
  csr := Csr.reset
  phase := .idle
  lat := Lat.drawn 0
  iv := ivReset c 0
  l2 := L2State.reset c
  evq := []
  mem := ⟨.drawn 0, []⟩
  faults := Marks.none
  draws := 1
  host := HostState.empty

/-- The state right after power-on reset. -/
def State.reset : State := State.resetWith Config.cfg

end Sys2Proof.Machine
end

