-- ==== Sys2Proof/Machine/Ops.lean ====
section
/-! DEFINITION. The named operations over memory, the command phase and the event queue, and the three ways a command
completes (20_memory.md, 60_exceptions.md). Completing as an error is what this block has in place of taking
an exception (R272, R281). -/

namespace Sys2Proof.Machine

/-! ## BUFMEM -/

/-- What an address that nothing has written reads as: its power-on byte (R62). -/
def PowerOn.byteAt : PowerOn → Nat → Byte
  | .uniform b, _ => b
  | .drawn d, a => Config.bufDraw d a

/-- The cells without the entry of an address. -/
def eraseCell (a : Nat) (l : List Host.Cell) : List Host.Cell := l.filter (fun c => c.1 != a)

/-- The cells with one more entry, placed before the first entry of a higher address. -/
def insertCell (a : Nat) (v : Byte) : List Host.Cell → List Host.Cell
  | [] => [(a, v)]
  | c :: l => if a < c.1 then (a, v) :: c :: l else c :: insertCell a v l

/-- MemRead(a, 1) (R11). -/
def Memory.read (m : Memory) (a : Nat) : Byte :=
  match m.cells.find? (fun c => c.1 == a) with
  | some c => c.2
  | none => m.powerOn.byteAt a

/-- MemWrite(a, 1, v) (R11). Writing the power-on byte removes the entry, so the form stays canonical. -/
def Memory.write (m : Memory) (a : Nat) (v : Byte) : Memory :=
  { m with cells := if v = m.powerOn.byteAt a then eraseCell a m.cells
                    else insertCell a v (eraseCell a m.cells) }

/-- Writes one after another, first to last. -/
def Memory.writeAll (m : Memory) (ws : List (Nat × Byte)) : Memory :=
  ws.foldl (fun m w => m.write w.1 w.2) m

/-- The `n` bytes from address `a` up (R63, R64). -/
def Memory.readBlock (m : Memory) (a n : Nat) : List Byte := (List.range n).map (fun i => m.read (a + i))

/-- The bytes of a list, written from address `a` up (R63, R64). -/
def Memory.writeBlock (m : Memory) (a : Nat) : List Byte → Memory
  | [] => m
  | b :: bs => (m.write a b).writeBlock (a + 1) bs

/-- The cells stand in strictly rising order of their addresses. -/
def risingCells : List Host.Cell → Bool
  | [] => true
  | [_] => true
  | c :: d :: l => decide (c.1 < d.1) && risingCells (d :: l)

/-- The canonical form: strictly rising addresses, and no entry equal to what an unlisted address reads as. -/
def Memory.wf (m : Memory) : Bool :=
  risingCells m.cells && m.cells.all (fun c => c.2 != m.powerOn.byteAt c.1)

/-- Every listed cell lies inside BUFMEM (R60). -/
def Memory.below (m : Memory) (n : Nat) : Bool := m.cells.all (fun c => c.1 < n)

/-- A host value of `n` bytes from address `a`, little-endian (R65). -/
def Memory.readLE (m : Memory) (a n : Nat) : Nat :=
  (m.readBlock a n).foldr (fun b acc => b.toNat + 256 * acc) 0

/-- The `n` bytes of a value, least significant first (R65). -/
def bytesLE (v n : Nat) : List Byte := (List.range n).map (fun i => BitVec.ofNat 8 (v / 256 ^ i))

/-! ## Completions -/

/-- The code of a cause (R271). -/
def Cause.code : Cause → Byte
  | .illegalCmd => 0x01
  | .rsvdNonzero => 0x02
  | .badLen => 0x04
  | .addrRange => 0x05
  | .overlap => 0x06
  | .badBit => 0x07
  | .badProg => 0x08
  | .queueFull => 0x09
  | .notConfigured => 0x0A
  | .badAdts => 0x0B
  | .badHdlc => 0x0C

/-- Error completion (R272): nothing but these changes. -/
def State.completeError (s : State) (c : Cause) (info : Word) : State :=
  { s with
    phase := .idle
    csr := { s.csr with
      flags := { s.csr.flags with done := true, err := true }
      cause := c.code
      info := info
      incnt := 0
      outcnt := 0 } }

/-- Stall completion (R276): nothing but these changes. -/
def State.completeStall (s : State) : State :=
  { s with
    phase := .idle
    csr := { s.csr with
      flags := { s.csr.flags with done := true, stall := true }
      incnt := 0
      outcnt := 0 } }

/-- Successful completion, with the counts of items consumed and produced (R29, R100). -/
def State.completeOk (s : State) (inItems outItems : Nat) : State :=
  { s with
    phase := .idle
    csr := { s.csr with
      flags := { s.csr.flags with done := true }
      incnt := toWord inItems
      outcnt := toWord outItems } }

/-- The state after a command that ended as `c` says (R70: all effects in one atomic step). -/
def State.finish (s : State) : Completion → State
  | .error c info => s.completeError c info
  | .stall => s.completeStall
  | .ok n m t => t.completeOk n m

/-- The outcome of a command: every command completes (R307). -/
def State.complete (s : State) (c : Completion) : Host.Outcome State Fault Refusal := .next (s.finish c)

/-! ## Command phase -/

/-- Acceptance of a command word in the IDLE phase (R23, R37). -/
def State.accept (s : State) (w : Word) : State :=
  { s with
    phase := .busy
    lat := ⟨w, s.csr.src, s.csr.dst, s.csr.len, s.csr.aux⟩
    csr := { s.csr with cmd := w } }

/-- A command word written while BUSY is dropped (R278). -/
def State.overrun (s : State) : State :=
  { s with csr := { s.csr with flags := { s.csr.flags with cmdovr := true } } }

/-- A write of CMD (R23). -/
def State.issue (s : State) (w : Word) : State :=
  match s.phase with
  | .idle => s.accept w
  | .busy => s.overrun

/-! ## Event queue -/

/-- emit_event(port): the queue after it, and whether the event was lost (R31, R279). -/
def pushEvent (depth : Nat) (q : List Port) (port : Port) : List Port × Bool :=
  if q.length < depth then (q ++ [port], false) else (q, true)

/-! ## Marks -/

/-- Record HOST_HAZARD in FAULTS (R76). -/
def State.markHazard (s : State) : State := { s with faults := { s.faults with hostHazard := true } }

/-- Record CSR_ACCESS in FAULTS (R66). -/
def State.markCsrAccess (s : State) : State := { s with faults := { s.faults with csrAccess := true } }

end Sys2Proof.Machine
end

