-- ==== Sys2Proof/Machine/Control.lean ====
section
/-! DEFINITION. The control commands NOP and SRST (45_control.md R260, R261). -/

namespace Sys2Proof.Machine

/-- NOP: no effect but its completion (R260). -/
def execNop (s : State) : Host.Outcome State Fault Refusal := s.complete (.ok 0 0 s)

/-- Every state element at its reset value but BUFMEM, FAULTS and CMD, and but the host, which is no part of
the block; the type IV cells and LAT are drawn anew (R43, R261). -/
def State.softReset (s : State) : State :=
  { s with
    csr := { Csr.reset with cmd := s.csr.cmd }
    phase := .idle
    lat := Lat.drawn s.draws
    iv := ivReset s.cfg s.draws
    l2 := L2State.reset s.cfg
    evq := []
    draws := s.draws + 1 }

/-- SRST (R261). -/
def execSrst (s : State) : Host.Outcome State Fault Refusal := s.complete (.ok 0 0 s.softReset)

end Sys2Proof.Machine
end

