-- ==== Sys2Proof/Syntax.lean ====
section
/-! DEFINITION. The commands of the block: one constructor per row of spec/opcode_table.json
(30_encoding.md R85). A command is the unit of work that plays the role of an instruction (R14). -/

namespace Sys2Proof

/-- A decoded command. Only the fields that vary inside a row are arguments: SEL of ILVIV and IMM of
AUDQ, PSDSET and AASQ (R82, R84). -/
inductive Instr where
  /-- Complete with no effect (R260). -/
  | nop
  /-- Soft reset (R261). -/
  | srst
  /-- Reverse the bit order of each group of 8 bit cells (R101). -/
  | rev8
  /-- Scramble a bit block (R104). -/
  | scr
  /-- Convolutional encode at rate 2/5 (R111). -/
  | conv25
  /-- Convolutional encode at rate 1/2 (R112). -/
  | conv12
  /-- P1 pass of the type I/II interleaver (R145). -/
  | ilvp1
  /-- PIDS pass of the type I/II interleaver (R146). -/
  | ilvpids
  /-- One frame through type IV instance `k` (R154). -/
  | ilviv (k : Nat)
  /-- Assemble one L1 output frame (R178). -/
  | l1map
  /-- Reed-Solomon parity of a region (R193). -/
  | rsenc
  /-- Append an audio sub-frame to the queue of program `p` (R202). -/
  | audq (p : Nat)
  /-- Supply the PSD block of program `p` (R203). -/
  | psdset (p : Nat)
  /-- Append one HDLC-encoded PDU to the queue of an AAS port (R204). -/
  | aasq (port : Port)
  /-- Build one L2 transport frame (R225). -/
  | l2frame
deriving DecidableEq, Repr

end Sys2Proof
end

