-- ==== Sys2Proof/WellFormed.lean ====
section
/-! DEFINITION. Which commands have a command word (30_encoding.md R82, R84): SEL holds 4 bits and IMM
holds 16 bits. -/

namespace Sys2Proof

/-- The operand of the command fits the field that carries it (R80). -/
def Instr.wellFormed : Instr → Bool
  | .ilviv k => decide (k < 16)
  | .audq p => decide (p < 65536)
  | .psdset p => decide (p < 65536)
  | .nop | .srst | .rev8 | .scr | .conv25 | .conv12 | .ilvp1 | .ilvpids
  | .l1map | .rsenc | .aasq _ | .l2frame => true

end Sys2Proof
end

