-- ==== Sys2Proof/Decode.lean ====
section
/-! DEFINITION. Decoding and encoding of command words, format C32 (30_encoding.md R80 to R88). -/

namespace Sys2Proof

/-- The operation code field, w[7:0] (R81). -/
def opcField (w : Word) : Nat := (w.extractLsb' 0 8).toNat

/-- The variant selector, w[11:8] (R82). -/
def selField (w : Word) : Nat := (w.extractLsb' 8 4).toNat

/-- The reserved field, w[15:12] (R83). -/
def rsvField (w : Word) : BitVec 4 := w.extractLsb' 12 4

/-- The immediate, w[31:16] (R84). -/
def immField (w : Word) : BitVec 16 := w.extractLsb' 16 16

/-- One row of the opcode map (R85). `usesImm` is false where the row's IMM column is 0, and `build` reads
the decoded fields: SEL first, then IMM. -/
structure OpRow where
  mnemonic : String
  pattern : Word
  mask : Word
  usesImm : Bool
  build : Nat → BitVec 16 → Instr

/-- The opcode map, in the order of R85. -/
def opcodeTable : List OpRow :=
  [ ⟨"NOP",     0x00000000, 0x00000FFF, false, fun _ _ => .nop⟩,
    ⟨"SRST",    0x00000001, 0x00000FFF, false, fun _ _ => .srst⟩,
    ⟨"REV8",    0x00000010, 0x00000FFF, false, fun _ _ => .rev8⟩,
    ⟨"SCR",     0x00000011, 0x00000FFF, false, fun _ _ => .scr⟩,
    ⟨"CONV25",  0x00000012, 0x00000FFF, false, fun _ _ => .conv25⟩,
    ⟨"CONV12",  0x00000112, 0x00000FFF, false, fun _ _ => .conv12⟩,
    ⟨"ILVP1",   0x00000020, 0x00000FFF, false, fun _ _ => .ilvp1⟩,
    ⟨"ILVPIDS", 0x00000120, 0x00000FFF, false, fun _ _ => .ilvpids⟩,
    ⟨"ILVIV",   0x00000021, 0x000000FF, false, fun sel _ => .ilviv sel⟩,
    ⟨"L1MAP",   0x00000030, 0x00000FFF, false, fun _ _ => .l1map⟩,
    ⟨"RSENC",   0x00000040, 0x00000FFF, false, fun _ _ => .rsenc⟩,
    ⟨"AUDQ",    0x00000050, 0x00000FFF, true,  fun _ imm => .audq imm.toNat⟩,
    ⟨"PSDSET",  0x00000051, 0x00000FFF, true,  fun _ imm => .psdset imm.toNat⟩,
    ⟨"AASQ",    0x00000052, 0x00000FFF, true,  fun _ imm => .aasq imm⟩,
    ⟨"L2FRAME", 0x00000053, 0x00000FFF, false, fun _ _ => .l2frame⟩ ]

/-- A word selects a row iff its masked bits are the row's pattern (R85). -/
def OpRow.selects (row : OpRow) (w : Word) : Bool := w &&& row.mask == row.pattern

/-- What decoding a command word answers (R86). -/
inductive Decoded where
  /-- The word is a command. -/
  | cmd (i : Instr)
  /-- No row of the opcode map matches: ILLEGAL_CMD. -/
  | illegalCmd
  /-- A reserved field, or an immediate the command does not use, is not 0: RSVD_NONZERO. -/
  | rsvdNonzero
deriving DecidableEq, Repr

/-- Decoding of an accepted word, with its checks in the order of R86. -/
def decode (w : Word) : Decoded :=
  match opcodeTable.find? (fun row => row.selects w) with
  | none => .illegalCmd
  | some row =>
    if rsvField w ≠ 0 then .rsvdNonzero
    else if !row.usesImm && immField w != 0 then .rsvdNonzero
    else .cmd (row.build (selField w) (immField w))

/-- A command word from its operation code, selector and immediate, with RSV = 0 (R80). -/
def packWord (opc sel imm : Nat) : Word :=
  BitVec.ofNat 16 imm ++ 0#4 ++ BitVec.ofNat 4 sel ++ BitVec.ofNat 8 opc

/-- The command word of a command, from the OPC, SEL and IMM columns of R85. An operand that does not fit its field, which
R85 gives no word, is taken modulo the size of the field (DESIGN CHOICE, log entry 25). -/
def encode : Instr → Word
  | .nop => packWord 0x00 0 0
  | .srst => packWord 0x01 0 0
  | .rev8 => packWord 0x10 0 0
  | .scr => packWord 0x11 0 0
  | .conv25 => packWord 0x12 0 0
  | .conv12 => packWord 0x12 1 0
  | .ilvp1 => packWord 0x20 0 0
  | .ilvpids => packWord 0x20 1 0
  | .ilviv k => packWord 0x21 k 0
  | .l1map => packWord 0x30 0 0
  | .rsenc => packWord 0x40 0 0
  | .audq p => packWord 0x50 0 p
  | .psdset p => packWord 0x51 0 p
  | .aasq port => packWord 0x52 0 port.toNat
  | .l2frame => packWord 0x53 0 0

/-- The command our decoder reads from a word whose low `nbits` bits are `w` and whose other bits are 0. A
command word is one 32-bit CSR write, so no byte order arises (R64, R80). -/
def decodeTableWord (nbits w : Nat) : Option Instr :=
  match decode (toWord (w % 2 ^ nbits)) with
  | .cmd i => some i
  | .illegalCmd => none
  | .rsvdNonzero => none

end Sys2Proof
end

