-- ==== Sys2Proof/Machine/Operands.lean ====
section
/-! DEFINITION. The operand forms of the commands: BUFMEM ranges named by the latched operands (20_memory.md R61,
R63, R78; 30_encoding.md R89; 40_scrambler_convenc.md R100). -/

namespace Sys2Proof.Machine

/-- A BUFMEM range (a, n) is legal: it ends inside BUFMEM, without wrap-around (R61). -/
abbrev legal (c : Cfg) (a n : Nat) : Prop := a + n ≤ c.bufBytes

/-- Two ranges share a byte (R100). -/
abbrev overlap (a n b m : Nat) : Prop := 0 < n ∧ 0 < m ∧ a < b + m ∧ b < a + n

/-- LAT.SRC as an address. -/
abbrev State.srcA (s : State) : Nat := s.lat.src.toNat

/-- LAT.DST as an address. -/
abbrev State.dstA (s : State) : Nat := s.lat.dst.toNat

/-- LAT.LEN as a count. -/
abbrev State.lenN (s : State) : Nat := s.lat.len.toNat

/-- LAT.AUX as an address. -/
abbrev State.auxA (s : State) : Nat := s.lat.aux.toNat

/-- A well-formed bit cell: the byte is 0 or 1 (R63). -/
def isBit (b : Byte) : Bool := b == 0 || b == 1

/-- The bit a well-formed bit cell holds. -/
def cellBit (b : Byte) : Bool := b.getLsbD 0

/-- The index of the first byte of a block that is no bit cell. -/
def firstNonBit (l : List Byte) : Option Nat := l.findIdx? (fun b => !isBit b)

/-- The in-use ranges of a command with the latched operands (R78). DESIGN CHOICE (log entry 23): R78 gives ILVIV k
the size IV[k].N/2, which does not exist for k ≥ NIV; such an ILVIV uses no range, as it completes as
NOT_CONFIGURED without an access. -/
def inUseRanges (s : State) : Instr → List (Nat × Nat)
  | .nop | .srst => []
  | .rev8 | .scr => [(s.srcA, s.lenN), (s.dstA, s.lenN)]
  | .conv25 => [(s.srcA, s.lenN), (s.dstA, 5 * s.lenN / 2)]
  | .conv12 => [(s.srcA, s.lenN), (s.dstA, 2 * s.lenN)]
  | .ilvp1 => [(s.srcA, n1), (s.dstA, matCells)]
  | .ilvpids => [(s.srcA, n2), (s.dstA, matCells)]
  | .ilviv k =>
    if s.cfg.niv ≤ k then [] else [(s.srcA, (s.cfg.ivAt k).half), (s.dstA, (s.cfg.ivAt k).half)]
  | .l1map => [(s.srcA, matCells), (s.auxA, s.cfg.secBytes), (s.dstA, s.cfg.l1FrameBytes)]
  | .rsenc => [(s.srcA, s.lenN)]
  | .audq _ | .aasq _ => [(s.srcA, s.lenN)]
  | .psdset _ => [(s.srcA, s.cfg.psdBytes)]
  | .l2frame => [(s.dstA, s.cfg.frameBits)]

/-- The in-use ranges of the latched word; a word that is no command uses none. -/
def latRanges (s : State) : List (Nat × Nat) :=
  match decode s.lat.w with
  | .cmd i => inUseRanges s i
  | .illegalCmd => []
  | .rsvdNonzero => []

end Sys2Proof.Machine
end

