-- ==== Sys2Proof/Machine/Interleaver.lean ====
section
/-! DEFINITION. The bit interleavers: types I/II (ILVP1, ILVPIDS) and type IV (ILVIV) (41_interleaver.md R140 to
R156). -/

namespace Sys2Proof.Machine

/-! ## Types I and II -/

/-- part(i), with M = 1 (R141). -/
def partOf (c : Cfg) (i : Nat) : Nat := c.vTable.getD (i % matJ) 0

/-- The row within a block, from ki (R142). -/
def kiRow (ki : Nat) : Nat := ki * 11 % 32

/-- The column within a partition, from ki (R142). -/
def kiCol (ki : Nat) : Nat := (ki * 11 + ki / (32 * 9)) % matC

/-- cell1(i): the matrix row and column of P1 input bit i (R142). -/
def cell1 (c : Cfg) (i : Nat) : Nat × Nat :=
  let p := partOf c i
  let blk := (i / matJ + p * 7) % matB
  let ki := i / (matJ * matB)
  (blk * 32 + kiRow ki, p * matC + kiCol ki)

/-- cell2(i): the matrix row and column of PIDS input bit i (R143). -/
def cell2 (c : Cfg) (i : Nat) : Nat × Nat :=
  let p := partOf c i
  let blk := i / 200
  let ki := i / matJ % (200 / matJ) + n1 / (matJ * matB)
  (blk * 32 + kiRow ki, p * matC + kiCol ki)

/-- The offset of a matrix cell from the matrix base: row-major, 720 columns (R140). -/
def matOffset (rc : Nat × Nat) : Nat := rc.1 * matCols + rc.2

/-- The writes that scatter the cells `t` into the matrix at `base`, in input order (R145, R146). -/
def scatter (base : Nat) (cellOf : Nat → Nat × Nat) (t : List Byte) : List (Nat × Byte) :=
  (List.range t.length).map (fun i => (base + matOffset (cellOf i), t.getD i 0))

/-- One pass of the type I/II interleaver over `n` input bits (R145, R146). -/
def ilvPass (s : State) (n : Nat) (cellOf : Nat → Nat × Nat) : Completion :=
  if s.lenN < n then .stall
  else if ¬ legal s.cfg s.srcA n then .error .addrRange s.lat.src
  else if ¬ legal s.cfg s.dstA matCells then .error .addrRange s.lat.dst
  else if overlap s.srcA n s.dstA matCells then .error .overlap s.lat.dst
  else .ok n n { s with mem := s.mem.writeAll (scatter s.dstA cellOf (s.mem.readBlock s.srcA n)) }

/-- ILVP1 (R145). -/
def execIlvp1 (s : State) : Host.Outcome State Fault Refusal := s.complete (ilvPass s n1 (cell1 s.cfg))

/-- ILVPIDS (R146). -/
def execIlvpids (s : State) : Host.Outcome State Fault Refusal := s.complete (ilvPass s n2 (cell2 s.cfg))

/-! ## Type IV -/

/-- The buffer after its cells `ws` were set, in order, to the bytes `t` (R152). -/
def setCells (buf : List Byte) : List Nat → List Byte → List Byte
  | w :: ws, b :: t => setCells (buf.set w b) ws t
  | _, _ => buf

/-- The instance state after a call with input `t`: the current half is rewritten and the halves change
places (R154). -/
def IvState.take (c : IvCfg) (v : IvState) (t : List Byte) : IvState :=
  ⟨setCells v.buf (c.writeCells v.half) t, !v.half⟩

/-- The output of a call: the previous half, in the order of R (R154). -/
def IvState.give (c : IvCfg) (v : IvState) : List Byte :=
  (c.readCells v.half).map (fun a => v.buf.getD a 0)

/-- The state of instance `k`; only ever used with k < NIV. -/
def State.ivAt (s : State) (k : Nat) : IvState := s.iv.getD k ⟨[], false⟩

/-- ILVIV k (R154). -/
def ilviv (k : Nat) (s : State) : Completion :=
  if s.cfg.niv ≤ k then .error .notConfigured (toWord k)
  else
    let c := s.cfg.ivAt k
    if s.lenN < c.half then .stall
    else if ¬ legal s.cfg s.srcA c.half then .error .addrRange s.lat.src
    else if ¬ legal s.cfg s.dstA c.half then .error .addrRange s.lat.dst
    else if overlap s.srcA c.half s.dstA c.half then .error .overlap s.lat.dst
    else .ok c.half c.half
      { s with
        mem := s.mem.writeBlock s.dstA ((s.ivAt k).give c)
        iv := s.iv.set k ((s.ivAt k).take c (s.mem.readBlock s.srcA c.half)) }

/-- ILVIV k (R154). -/
def execIlviv (k : Nat) (s : State) : Host.Outcome State Fault Refusal := s.complete (ilviv k s)

end Sys2Proof.Machine
end

