-- ==== Sys2Proof/Machine/ReedSolomon.lean ====
section
/-! DEFINITION. The Reed-Solomon encoder (43_reed_solomon.md R190 to R195). Polynomials over GF(2^8) are lists of
coefficients, degree 0 first. -/

namespace Sys2Proof.Machine

/-- Multiplication by α, the class of x, modulo the field polynomial 0x11d (R190). -/
def gfDouble (a : Byte) : Byte := if a.getLsbD 7 then (a <<< 1) ^^^ 0x1D else a <<< 1

/-- `a` times the number whose bits are the `n` highest bits of `b`. -/
def gfMulTop (a b : Byte) : Nat → Byte
  | 0 => 0
  | n + 1 => gfDouble (gfMulTop a b n) ^^^ (if b.getLsbD (7 - n) then a else 0)

/-- The product in GF(2^8) (R190). -/
def gfMul (a b : Byte) : Byte := gfMulTop a b 8

/-- α^n by repeated multiplication. -/
def alphaIter : Nat → Byte
  | 0 => 1
  | n + 1 => gfDouble (alphaIter n)

/-- α^n; the powers of α have period 255 (R190). -/
def alphaPow (n : Nat) : Byte := alphaIter (n % 255)

/-- The roots of the generator: α^((RS_FCR + j)·RS_PRIM) for j = 0..7 (R191). -/
def rsRoots (c : Cfg) : List Byte := (List.range 8).map (fun j => alphaPow ((c.rsFcr + j) * c.rsPrim))

/-- The product of a polynomial with (x - r); subtraction is XOR (R190). -/
def mulRoot (g : List Byte) (r : Byte) : List Byte :=
  List.zipWith (· ^^^ ·) (0 :: g) (g.map (gfMul r) ++ [0])

/-- g(x), coefficients of degree 0 to 8 (R191). -/
def rsGen (c : Cfg) : List Byte := (rsRoots c).foldl mulRoot [1]

/-- From the remainder of q(x) modulo g(x), the remainder of x·q(x) + d. -/
def rsStep (g : List Byte) (d : Byte) (rem : List Byte) : List Byte :=
  List.zipWith (· ^^^ ·) (d :: rem.take 7) ((g.take 8).map (gfMul (rem.getD 7 0)))

/-- The remainder modulo g(x) of the polynomial with the given coefficients. -/
def rsRem (g : List Byte) (cs : List Byte) : List Byte := cs.foldr (rsStep g) (List.replicate 8 0)

/-- The coefficients of d(x): the region's first 255 bytes, with its bytes 0..7 taken as 0 (R192, R193). -/
def rsData (region : List Byte) : List Byte := List.replicate 8 0 ++ (region.take 255).drop 8

/-- The parity bytes of a region: the coefficients of d(x) mod g(x) (R193). -/
def rsParity (c : Cfg) (region : List Byte) : List Byte := rsRem (rsGen c) (rsData region)

/-- The value of a polynomial at a point (R193). -/
def polyEval (cs : List Byte) (x : Byte) : Byte := cs.foldr (fun c acc => c ^^^ gfMul acc x) 0

/-- RSENC (R193). -/
def rsenc (s : State) : Completion :=
  if s.lenN < 8 then .error .badLen s.lat.len
  else if ¬ legal s.cfg s.srcA s.lenN then .error .addrRange s.lat.src
  else .ok (min s.lenN 255 - 8) 8
    { s with mem := s.mem.writeBlock s.srcA (rsParity s.cfg (s.mem.readBlock s.srcA s.lenN)) }

/-- RSENC (R193). -/
def execRsenc (s : State) : Host.Outcome State Fault Refusal := s.complete (rsenc s)

end Sys2Proof.Machine
end

