-- ==== Sys2Proof/Machine/L2Fields.lean ====
section
/-! DEFINITION. The field functions of the L2 frame: CRC-8, locators, control word, header extension (44_l2_multiplexer.md
R205 to R207), bit order and header spreading (R222, R223). -/

namespace Sys2Proof.Machine

/-! ## CRC-8 (R205) -/

/-- One shift of the reflected CRC. -/
def crcShift (poly c : Byte) : Byte := (c >>> 1) ^^^ (if c.getLsbD 0 then poly else 0)

/-- TABLE[i]: 8 shifts from i. -/
def crcTable (poly i : Byte) : Byte := (List.range 8).foldl (fun c _ => crcShift poly c) i

/-- crc8_upd(c, bytes). -/
def crcUpd (cfg : Cfg) (c : Byte) (bytes : List Byte) : Byte :=
  bytes.foldl (fun c b => crcTable cfg.crcRpoly (c ^^^ b)) c

/-- crc8_fin(c). -/
def crcFin (cfg : Cfg) (c : Byte) : Byte := c ^^^ cfg.crcXorout

/-- The CRC byte of a whole sub-frame payload. -/
def crcOf (cfg : Cfg) (sf : List Byte) : Byte := crcFin cfg (crcUpd cfg cfg.crcInit sf)

/-! ## Open fields (R206, R207) -/

/-- LOC_ENC(LC_BITS, ends), in LOC_BYTES(|ends|) bytes. -/
def locatorBytes (f : FrameFns) (cfg : Cfg) (ends : List Nat) : List Byte :=
  (List.range (cfg.locBytes ends.length)).map (f.locEnc cfg.lcBits ends)

/-- The control word, 6 bytes. -/
def controlWord (f : FrameFns) (p s0 n frameCnt : Nat) : List Byte := (List.range 6).map (f.cw p s0 n frameCnt)

/-- The header extension, 3 bytes. -/
def headerExt (f : FrameFns) (p frameCnt : Nat) : List Byte := (List.range 3).map (f.hdrExt p frameCnt)

/-! ## Bits of the frame (R222, R223) -/

/-- The bits of a byte in the order of the frame. -/
def byteBits (o : L2BitOrder) (b : Byte) : List Bool :=
  (List.range 8).map (fun i => match o with
    | .msbFirst => b.getLsbD (7 - i)
    | .lsbFirst => b.getLsbD i)

/-- The payload bits, byte 0 first. -/
def frameBitsOf (o : L2BitOrder) (bytes : List Byte) : List Bool := bytes.flatMap (byteBits o)

/-- `n` output positions from position `t` on: the codeword bits stand at position `pos`, then every `stride`
positions, and the payload bits fill the other positions in order. -/
def spreadFrom (stride : Nat) : Nat → Nat → Nat → List Bool → List Bool → List Bool
  | 0, _, _, _, _ => []
  | n + 1, t, pos, code, payload =>
    if t = pos ∧ code ≠ [] then
      code.headD false :: spreadFrom stride n (t + 1) (pos + stride) code.tail payload
    else payload.headD false :: spreadFrom stride n (t + 1) pos code payload.tail

/-- The FRAME_BITS output bits o[0 .. FRAME_BITS) for the payload bytes (R222). -/
def headerSpread (cfg : Cfg) (bytes : List Byte) : List Bool :=
  spreadFrom (cfg.hsNoffset + 1) cfg.frameBits 0 cfg.hsNstart cfg.hsCode (frameBitsOf cfg.l2BitOrder bytes)

end Sys2Proof.Machine
end

