-- ==== Sys2Proof/Machine/L2Data.lean ====
section
/-! DEFINITION. The data region of the L2 frame: sync byte, CCC slice and fixed-data subchannel (44_l2_multiplexer.md
R216 to R221). -/

namespace Sys2Proof.Machine

/-- The HDLC flag byte (R204, R220). -/
def hdlcFlag : Byte := 0x7e

/-- AASQ[q]; empty for a port that is not in PORTS. -/
def queueOf (aasq : List (Port × List Byte)) (q : Port) : List Byte :=
  match aasq.find? (fun e => e.1 == q) with
  | some e => e.2
  | none => []

/-- AASQ with the queue of `q` replaced; a new port is placed in rising order. -/
def setQueue (q : Port) (bs : List Byte) : List (Port × List Byte) → List (Port × List Byte)
  | [] => [(q, bs)]
  | e :: l => if e.1 = q then (q, bs) :: l else if q < e.1 then (q, bs) :: e :: l else e :: setQueue q bs l

/-- The ports with a non-empty queue, in rising order. -/
def busyPorts (aasq : List (Port × List Byte)) : List Port :=
  (aasq.filter (fun e => !e.2.isEmpty)).map (fun e => e.1)

/-- nextport(c) (R219). -/
def nextPort (aasq : List (Port × List Byte)) : Option Port → Option Port
  | none => (busyPorts aasq).head?
  | some c =>
    match (busyPorts aasq).find? (fun q => c < q) with
    | some q => some q
    | none => (busyPorts aasq).head?

/-- What the FDS stream works on: the AAS queues, the cursor, the PDU state, the stream position, and the
event queue with its overflow flag (R40, R218). -/
structure FdsState where
  aasq : List (Port × List Byte)
  curPort : Option Port
  inPdu : Bool
  fdsPos : Nat
  evq : List Port
  evovf : Bool
deriving DecidableEq, Repr

/-- emit_event(port) (R31, R221). -/
def FdsState.emit (cfg : Cfg) (z : FdsState) (port : Port) : FdsState :=
  { z with
    evq := (pushEvent cfg.evqDepth z.evq port).1
    evovf := z.evovf || (pushEvent cfg.evqDepth z.evq port).2 }

/-- The cursor at the start of fds_byte(): outside a PDU it leaves an empty queue (R220). -/
def FdsState.seek (z : FdsState) : FdsState :=
  if z.inPdu then z
  else match z.curPort with
    | none => { z with curPort := nextPort z.aasq none }
    | some c => if (queueOf z.aasq c).isEmpty then { z with curPort := nextPort z.aasq (some c) } else z

/-- The state after the flag byte that ends a PDU of port `c` (R220, R221). -/
def FdsState.closePdu (cfg : Cfg) (z : FdsState) (c : Port) : FdsState :=
  let y := if (queueOf z.aasq c).isEmpty then z.emit cfg c else z
  { y with inPdu := false, curPort := nextPort z.aasq (some c) }

/-- The state after the byte `b` was taken from the queue of port `c` (R220). -/
def FdsState.afterByte (cfg : Cfg) (z : FdsState) (c : Port) (b : Byte) : FdsState :=
  if b = hdlcFlag then
    if z.inPdu then z.closePdu cfg c else { z with inPdu := true }
  else z

/-- fds_byte() (R220). A cursor inside a PDU always has bytes in its queue, so an empty queue here means that
every queue is empty. -/
def fdsByte (cfg : Cfg) (z : FdsState) : Byte × FdsState :=
  match z.seek.curPort with
  | none => (cfg.fdsIdle, z.seek)
  | some c =>
    match queueOf z.seek.aasq c with
    | [] => (cfg.fdsIdle, z.seek)
    | b :: bs => (b, { z.seek with aasq := setQueue c bs z.seek.aasq }.afterByte cfg c b)

/-- One byte of the FDS stream at position FDSPOS (R218). -/
def fdsStream (cfg : Cfg) (z : FdsState) : Byte × FdsState :=
  let y := { z with fdsPos := z.fdsPos + 1 }
  if z.fdsPos % cfg.bbmPeriod < 4 then (cfg.bbmBytes.getD (z.fdsPos % cfg.bbmPeriod) 0, y)
  else fdsByte cfg y

/-- `n` bytes of the FDS stream. -/
def fdsTake (cfg : Cfg) : Nat → FdsState → List Byte × FdsState
  | 0, z => ([], z)
  | n + 1, z =>
    let r := fdsStream cfg z
    let q := fdsTake cfg n r.2
    (r.1 :: q.1, q.2)

/-- The CCC slice (R217). -/
def cccSlice (cfg : Cfg) (cccPos : Nat) : List Byte :=
  (List.range cfg.cccWidth).map (fun i => cfg.cccMsg.getD ((cccPos + i) % cfg.cccMsg.length) 0)

/-- Bytes of the FDS stream in one frame (R216). -/
def fdsBytes (cfg : Cfg) : Nat := cfg.dataBytes - 1 - cfg.cccWidth

/-- The data region and the state after it; nothing where DATA_BYTES is 0 (R200, R216). -/
def dataRegion (f : FrameFns) (cfg : Cfg) (frameCnt cccPos : Nat) (z : FdsState) : List Byte × FdsState :=
  if cfg.dataBytes = 0 then ([], z)
  else
    let r := fdsTake cfg (fdsBytes cfg) z
    (f.sync frameCnt :: cccSlice cfg cccPos ++ r.1, r.2)

/-- CCCPOS after the frame (R217). -/
def nextCccPos (cfg : Cfg) (cccPos : Nat) : Nat :=
  if cfg.dataBytes = 0 then cccPos else (cccPos + cfg.cccWidth) % cfg.cccMsg.length

end Sys2Proof.Machine
end

