-- ==== Sys2Proof/Machine/L2Pack.lean ====
section
/-! DEFINITION. Packing one program of the L2 frame (44_l2_multiplexer.md R201, R208 to R215, R224). -/

namespace Sys2Proof.Machine

/-- The working copies of packing: the audio field so far, the offsets of the CRC bytes in it, SEQ, PART and
the queue (R209, R210). -/
structure PackState where
  aud : List Byte
  ends : List Nat
  seq : Nat
  part : Option Partial
  queue : List (List Byte)
deriving DecidableEq, Repr

/-- Appending the end of a sub-frame and its CRC byte: the sub-frame has been fully emitted (R209, R210). -/
def PackState.addEnd (a : PackState) (bytes : List Byte) (crc : Byte) : PackState :=
  { a with
    aud := a.aud ++ bytes ++ [crc]
    ends := a.ends ++ [a.aud.length + bytes.length]
    seq := a.seq + 1 }

/-- Carryover: the audio field begins with the rest of a split sub-frame and its CRC (R209). -/
def packStart (cfg : Cfg) (v : ProgState) : PackState :=
  let a : PackState := ⟨[], [], v.seq, none, v.audq⟩
  match v.part with
  | none => a
  | some q => a.addEnd (q.sf.drop q.k) (crcFin cfg (crcUpd cfg q.crc (q.sf.drop q.k)))

/-- A whole sub-frame fits: with its CRC byte and one more locator (R210). -/
abbrev PackState.fits (cfg : Cfg) (area : Nat) (a : PackState) (sf : List Byte) : Prop :=
  a.aud.length + sf.length + 1 + cfg.locBytes (a.ends.length + 1) ≤ area

/-- R, the bytes left for a split (R211). -/
def PackState.room (cfg : Cfg) (area : Nat) (a : PackState) : Nat :=
  area - a.aud.length - cfg.locBytes a.ends.length

/-- Split of the head sub-frame, or nothing where no byte fits (R211). -/
def packSplit (cfg : Cfg) (area : Nat) (a : PackState) (sf : List Byte) (rest : List (List Byte)) : PackState :=
  if a.room cfg area = 0 then { a with queue := sf :: rest }
  else
    let b := min (a.room cfg area) sf.length
    { a with
      aud := a.aud ++ sf.take b
      part := some ⟨sf, b, crcUpd cfg cfg.crcInit (sf.take b)⟩
      queue := rest }

/-- The greedy step over the queue, until the target is reached, a sub-frame is split, or the queue is empty
before the target, which stalls the frame (`none`) (R210, R213). -/
def packGreedy (cfg : Cfg) (area target : Nat) : List (List Byte) → PackState → Option PackState
  | [], a => if a.seq < target then none else some { a with queue := [] }
  | sf :: rest, a =>
    if a.seq < target then
      if a.fits cfg area sf then packGreedy cfg area target rest (a.addEnd sf (crcOf cfg sf))
      else some (packSplit cfg area a sf rest)
    else some { a with queue := sf :: rest }

/-- target of the frame being built (R208). -/
def frameTarget (cfg : Cfg) (frameCnt : Nat) : Nat := (frameCnt + 1) * cfg.targetNop

/-- The packing of program `p`, or `none` for a stall (R208 to R211, R213). -/
def packAudio (cfg : Cfg) (frameCnt p : Nat) (v : ProgState) : Option PackState :=
  packGreedy cfg (cfg.area p) (frameTarget cfg frameCnt) v.audq (packStart cfg v)

/-- The audio field: the packed bytes and the padding (R212). -/
def audioField (cfg : Cfg) (p : Nat) (a : PackState) : List Byte :=
  a.aud ++ List.replicate (a.room cfg (cfg.area p)) cfg.padByte

/-- The region after its parity, in the order of R201. -/
def regionBody (f : FrameFns) (cfg : Cfg) (frameCnt p s0 : Nat) (a : PackState) (psd : List Byte) : List Byte :=
  controlWord f p s0 a.ends.length frameCnt ++ locatorBytes f cfg a.ends ++ headerExt f p frameCnt ++
    audioField cfg p a ++ psd

/-- The region of a program: its parity, then the body (R201, R215). -/
def regionBytes (f : FrameFns) (cfg : Cfg) (frameCnt p s0 : Nat) (a : PackState) (psd : List Byte) : List Byte :=
  let body := regionBody f cfg frameCnt p s0 a psd
  rsParity cfg (List.replicate 8 0 ++ body) ++ body

/-- The overrun condition: target - seq > 8 (R214). -/
def overrun (cfg : Cfg) (frameCnt : Nat) (a : PackState) : Bool := decide (a.seq + 8 < frameTarget cfg frameCnt)

/-- What packing a program yields: its region, its new state, its warning bit and the sub-frames it took
from the queue (R224, R225). -/
structure Packed where
  region : List Byte
  prog : ProgState
  warn : Bool
  taken : Nat
deriving DecidableEq, Repr

/-- pack(p), or `none` where the frame stalls for want of audio or of a PSD block (R213, R224). -/
def packProg (f : FrameFns) (cfg : Cfg) (frameCnt p : Nat) (v : ProgState) : Option Packed :=
  match v.psd, packAudio cfg frameCnt p v with
  | some psd, some a =>
    some ⟨regionBytes f cfg frameCnt p v.seq a psd, ⟨a.seq, a.part, a.queue, none⟩, overrun cfg frameCnt a,
      v.audq.length - a.queue.length⟩
  | _, _ => none

/-- pack for the programs from number `p` on; `none` if one of them stalls (R225). -/
def packAll (f : FrameFns) (cfg : Cfg) (frameCnt : Nat) : Nat → List ProgState → Option (List Packed)
  | _, [] => some []
  | p, v :: vs =>
    match packProg f cfg frameCnt p v, packAll f cfg frameCnt (p + 1) vs with
    | some r, some rs => some (r :: rs)
    | _, _ => none

end Sys2Proof.Machine
end

