-- ==== Sys2Proof/Machine/L2Mux.lean ====
section
/-! DEFINITION. The commands of the L2 multiplexer: AUDQ, PSDSET, AASQ and L2FRAME (44_l2_multiplexer.md R202 to R204,
R225). -/

namespace Sys2Proof.Machine

/-- The state of program `p`; only ever used with p < NPROG. -/
def State.progAt (s : State) (p : Nat) : ProgState := s.l2.progs.getD p ProgState.reset

/-- The state with the state of program `p` replaced. -/
def State.setProg (s : State) (p : Nat) (v : ProgState) : State :=
  { s with l2 := { s.l2 with progs := s.l2.progs.set p v } }

/-! ## AUDQ -/

/-- F, the 13-bit length field of a sub-frame header (R202). -/
def adtsLength (h : List Byte) : Nat :=
  (((h.getD 3 0 &&& 3).setWidth 13 <<< 11) ||| ((h.getD 4 0).setWidth 13 <<< 3) |||
    ((h.getD 5 0 >>> 5).setWidth 13) : BitVec 13).toNat

/-- AUDQ p (R202). -/
def audq (p : Nat) (s : State) : Completion :=
  if s.cfg.nprog ≤ p then .error .badProg (toWord p)
  else if s.lenN < 7 ∨ s.cfg.area p < s.lenN - 7 + 1 + s.cfg.locBytes 1 then .error .badLen s.lat.len
  else if ¬ legal s.cfg s.srcA s.lenN then .error .addrRange s.lat.src
  else
    let h := s.mem.readBlock s.srcA s.lenN
    if adtsLength h ≠ s.lenN then .error .badAdts (toWord (adtsLength h))
    else if (s.progAt p).audq.length = s.cfg.audqDepth then .error .queueFull (toWord p)
    else .ok s.lenN 0 (s.setProg p { s.progAt p with audq := (s.progAt p).audq ++ [h.drop 7] })

/-- AUDQ p (R202). -/
def execAudq (p : Nat) (s : State) : Host.Outcome State Fault Refusal := s.complete (audq p s)

/-! ## PSDSET -/

/-- PSDSET p (R203). -/
def psdset (p : Nat) (s : State) : Completion :=
  if s.cfg.nprog ≤ p then .error .badProg (toWord p)
  else if s.lenN ≠ s.cfg.psdBytes then .error .badLen s.lat.len
  else if ¬ legal s.cfg s.srcA s.cfg.psdBytes then .error .addrRange s.lat.src
  else if (s.progAt p).psd ≠ none then .error .queueFull (toWord p)
  else .ok s.cfg.psdBytes 0
    (s.setProg p { s.progAt p with psd := some (s.mem.readBlock s.srcA s.cfg.psdBytes) })

/-- PSDSET p (R203). -/
def execPsdset (p : Nat) (s : State) : Host.Outcome State Fault Refusal := s.complete (psdset p s)

/-! ## AASQ -/

/-- The byte at index `i` of `f` breaks the form of one flag-delimited HDLC frame (R204). -/
def hdlcOffends (f : List Byte) (i : Nat) : Bool :=
  if i = 0 ∨ i = f.length - 1 then f.getD i 0 != hdlcFlag else f.getD i 0 == hdlcFlag

/-- The lowest offending index. -/
def hdlcBad (f : List Byte) : Option Nat := (List.range f.length).find? (hdlcOffends f)

/-- AASQ port (R204). -/
def aasq (port : Port) (s : State) : Completion :=
  if s.lenN < 2 then .error .badLen s.lat.len
  else if ¬ legal s.cfg s.srcA s.lenN then .error .addrRange s.lat.src
  else
    let f := s.mem.readBlock s.srcA s.lenN
    match hdlcBad f with
    | some i => .error .badHdlc (toWord (s.srcA + i))
    | none =>
      if s.cfg.aasQbytes < (queueOf s.l2.aasq port).length + s.lenN then .error .queueFull (port.setWidth 32)
      else .ok s.lenN 0
        { s with l2 := { s.l2 with aasq := setQueue port (queueOf s.l2.aasq port ++ f) s.l2.aasq } }

/-- AASQ port (R204). -/
def execAasq (port : Port) (s : State) : Host.Outcome State Fault Refusal := s.complete (aasq port s)

/-! ## L2FRAME -/

/-- The FDS working state of the machine. -/
def State.fds (s : State) : FdsState :=
  ⟨s.l2.aasq, s.l2.curPort, s.l2.inPdu, s.l2.fdsPos, s.evq, s.csr.flags.evovf⟩

/-- The WARNMASK bits of the programs whose packing warns, from program `p` on (R214). -/
def warnBits : Nat → List Packed → Word
  | _, [] => 0
  | p, r :: rs => (if r.warn then 1#32 <<< p else 0) ||| warnBits (p + 1) rs

/-- The payload bytes of the frame: the regions, then the data region (R200). -/
def framePayload (rs : List Packed) (data : List Byte) : List Byte := rs.flatMap Packed.region ++ data

/-- The state after a successful frame (R225). -/
def l2Commit (f : FrameFns) (s : State) (rs : List Packed) : State :=
  let d := dataRegion f s.cfg s.l2.frameCnt s.l2.cccPos s.fds
  { s with
    mem := s.mem.writeBlock s.dstA ((headerSpread s.cfg (framePayload rs d.1)).map bitCell)
    l2 :=
      { progs := rs.map Packed.prog
        frameCnt := s.l2.frameCnt + 1
        aasq := d.2.aasq
        curPort := d.2.curPort
        inPdu := d.2.inPdu
        fdsPos := d.2.fdsPos
        cccPos := nextCccPos s.cfg s.l2.cccPos }
    evq := d.2.evq
    csr := { s.csr with
      warnmask := s.csr.warnmask ||| warnBits 0 rs
      flags := { s.csr.flags with
        warn := s.csr.flags.warn || rs.any Packed.warn
        evovf := d.2.evovf } } }

/-- L2FRAME with the open functions as an argument (R225). -/
def l2frameWith (f : FrameFns) (s : State) : Completion :=
  match packAll f s.cfg s.l2.frameCnt 0 s.l2.progs with
  | none => .stall
  | some rs =>
    if ¬ legal s.cfg s.dstA s.cfg.frameBits then .error .addrRange s.lat.dst
    else .ok (rs.map Packed.taken).sum s.cfg.frameBits (l2Commit f s rs)

/-- L2FRAME (R225). -/
def execL2frame (s : State) : Host.Outcome State Fault Refusal := s.complete (l2frameWith Config.frameFns s)

end Sys2Proof.Machine
end

