-- ==== Sys2Proof/Machine/ScramblerConv.lean ====
section
/-! DEFINITION. Bit reversal, the LFSR scrambler and the convolutional encoder (40_scrambler_convenc.md R101 to
R114). -/

namespace Sys2Proof.Machine

/-! ## REV8 -/

/-- Cell i of the output: within each group of 8, the order is reversed (R101). -/
def rev8Block (t : List Byte) : List Byte :=
  (List.range t.length).map (fun i => t.getD (8 * (i / 8) + (7 - i % 8)) 0)

/-- REV8 (R101). -/
def rev8 (s : State) : Completion :=
  if s.lenN % 8 ≠ 0 then .error .badLen s.lat.len
  else if ¬ legal s.cfg s.srcA s.lenN then .error .addrRange s.lat.src
  else if ¬ legal s.cfg s.dstA s.lenN then .error .addrRange s.lat.dst
  else if s.lat.dst ≠ s.lat.src ∧ overlap s.srcA s.lenN s.dstA s.lenN then .error .overlap s.lat.dst
  else .ok s.lenN s.lenN
    { s with mem := s.mem.writeBlock s.dstA (rev8Block (s.mem.readBlock s.srcA s.lenN)) }

/-- REV8 (R101). -/
def execRev8 (s : State) : Host.Outcome State Fault Refusal := s.complete (rev8 s)

/-! ## SCR -/

/-- The scrambler register at the start of every SCR (R102). -/
def lfsrSeed : BitVec 11 := 0x3FF

/-- The output bit of the register: r[9] ^ r[0] (R102). -/
def lfsrBit (r : BitVec 11) : Bool := r.getLsbD 9 ^^ r.getLsbD 0

/-- The register after a step: shifted right, with the output bit entering at bit 10 (R102). -/
def lfsrNext (r : BitVec 11) : BitVec 11 :=
  (r >>> 1) ||| ((BitVec.ofBool (lfsrBit r)).setWidth 11 <<< 10)

/-- The cells scrambled from register `r`: each cell XOR the output bit of its step (R104). -/
def scramble : BitVec 11 → List Byte → List Byte
  | _, [] => []
  | r, c :: cs => (c ^^^ bitCell (lfsrBit r)) :: scramble (lfsrNext r) cs

/-- The register after `n` steps. -/
def lfsrAfter : Nat → BitVec 11 → BitVec 11
  | 0, r => r
  | n + 1, r => lfsrAfter n (lfsrNext r)

/-- SCR (R104). -/
def scr (s : State) : Completion :=
  if ¬ legal s.cfg s.srcA s.lenN then .error .addrRange s.lat.src
  else if ¬ legal s.cfg s.dstA s.lenN then .error .addrRange s.lat.dst
  else if s.lat.dst ≠ s.lat.src ∧ overlap s.srcA s.lenN s.dstA s.lenN then .error .overlap s.lat.dst
  else .ok s.lenN s.lenN
    { s with
      mem := s.mem.writeBlock s.dstA (scramble lfsrSeed (s.mem.readBlock s.srcA s.lenN))
      csr := { s.csr with lfsr := lfsrAfter s.lenN lfsrSeed } }

/-- SCR (R104). -/
def execScr (s : State) : Host.Outcome State Fault Refusal := s.complete (scr s)

/-! ## Convolutional encoder -/

/-- The generators 0o133, 0o171 and 0o165 (R107). -/
def gen133 : BitVec 7 := 0b1011011
def gen171 : BitVec 7 := 0b1111001
def gen165 : BitVec 7 := 0b1110101

/-- The taps of rate 2/5 at position i: three at even positions, the first two at odd ones (R107). -/
def taps25 (i : Nat) : List (BitVec 7) :=
  if i % 2 = 0 then [gen133, gen171, gen165] else [gen133, gen171]

/-- The taps of rate 1/2 (R107). -/
def taps12 (_ : Nat) : List (BitVec 7) := [gen133, gen165]

/-- u[(i - k) mod n], the bit k places back from position i (R106); used with k ≤ 6 ≤ n. -/
def bitBack (u : List Bool) (i k : Nat) : Bool := u.getD ((i + u.length - k) % u.length) false

/-- The encoder register R_i: the current bit and the six before it, cyclically (R106). -/
def encReg (order : RegOrder) (u : List Bool) (i : Nat) : BitVec 7 :=
  match order with
  | .msbNewest => BitVec.ofFnLE (fun j : Fin 7 => bitBack u i (6 - j.val))
  | .lsbNewest => BitVec.ofFnLE (fun j : Fin 7 => bitBack u i j.val)

/-- parity7(v): the number of 1 bits modulo 2 (R13). -/
def parity7 (v : BitVec 7) : Bool := (List.range 7).foldl (fun p j => p ^^ v.getLsbD j) false

/-- The outputs of position i, in increasing order of the taps (R107). -/
def encAt (order : RegOrder) (taps : Nat → List (BitVec 7)) (u : List Bool) (i : Nat) : List Bool :=
  (taps i).map (fun g => parity7 (encReg order u i &&& g))

/-- The encoded block: the outputs of the positions in order (R108). -/
def encode7 (order : RegOrder) (taps : Nat → List (BitVec 7)) (u : List Bool) : List Bool :=
  (List.range u.length).flatMap (encAt order taps u)

/-- An encoder command with its output length and taps, after its length check (R110 steps 3 to 5, R111,
R112). -/
def convolve (s : State) (outLen : Nat) (taps : Nat → List (BitVec 7)) : Completion :=
  if ¬ legal s.cfg s.srcA s.lenN then .error .addrRange s.lat.src
  else if ¬ legal s.cfg s.dstA outLen then .error .addrRange s.lat.dst
  else if overlap s.srcA s.lenN s.dstA outLen then .error .overlap s.lat.dst
  else match firstNonBit (s.mem.readBlock s.srcA s.lenN) with
    | some i => .error .badBit (toWord (s.srcA + i))
    | none =>
      .ok s.lenN outLen
        { s with
          mem := s.mem.writeBlock s.dstA
            ((encode7 s.cfg.convRegOrder taps ((s.mem.readBlock s.srcA s.lenN).map cellBit)).map bitCell) }

/-- CONV25 (R111). -/
def conv25 (s : State) : Completion :=
  if s.lenN < 6 ∨ s.lenN % 2 ≠ 0 then .error .badLen s.lat.len
  else convolve s (5 * s.lenN / 2) taps25

/-- CONV25 (R111). -/
def execConv25 (s : State) : Host.Outcome State Fault Refusal := s.complete (conv25 s)

/-- CONV12 (R112). -/
def conv12 (s : State) : Completion :=
  if s.lenN < 6 then .error .badLen s.lat.len
  else convolve s (2 * s.lenN) taps12

/-- CONV12 (R112). -/
def execConv12 (s : State) : Host.Outcome State Fault Refusal := s.complete (conv12 s)

end Sys2Proof.Machine
end

