-- ==== Sys2Proof/Machine/SymbolMapper.lean ====
section
/-! DEFINITION. The L1 symbol mapper (42_l1_symbol_mapper.md R170 to R178). -/

namespace Sys2Proof.Machine

/-- pack(a, b): the 2-bit symbol of a cell pair, a at the lower column (R174). -/
def packSymbol (o : SymPack) (a b : Byte) : Byte :=
  match o with
  | .hiFirst => 2 * a + b
  | .loFirst => a + 2 * b

/-- The value of an unused subcarrier (R170). -/
def blankSymbol : Byte := 4

/-- The reference symbol of subcarrier `sc` in symbol `sym`, if it is a reference subcarrier (R172). -/
def refSymbol (c : Cfg) (sym sc : Nat) : Option Byte :=
  (c.refSc.reverse.find? (fun e => e.sc == sc)).map (fun e => BitVec.ofNat 8 (c.refSymAt e.scid sym))

/-- The P1 symbol of subcarrier `sc` in symbol `sym`, if it is a data subcarrier: entry 18*q + m of DATA_SC
carries the cell pair at columns q*36 + 2m and q*36 + 2m + 1 (R173). -/
def dataSymbol (c : Cfg) (m : Nat → Byte) (sym sc : Nat) : Option Byte :=
  (c.dataSc.findIdx? (· == sc)).map (fun e =>
    packSymbol c.symPack (m (sym * matCols + e / 18 * matC + 2 * (e % 18)))
      (m (sym * matCols + e / 18 * matC + 2 * (e % 18) + 1)))

/-- The secondary symbol of subcarrier `sc` in symbol `sym`, if SEC_MAP has an entry for it (R175). -/
def secSymbol (c : Cfg) (a : Nat → Byte) (sym sc : Nat) : Option Byte :=
  (c.secMap.reverse.find? (fun e => e.sym == sym && e.sc == sc)).map (fun e =>
    packSymbol c.symPack (a e.off) (a (e.off + 1)))

/-- The value of subcarrier `sc` in symbol `sym`: a later write of R178 stands over an earlier one. `m` and
`a` give the cells of the P1 matrix and of the secondary region. -/
def l1Symbol (c : Cfg) (m a : Nat → Byte) (sym sc : Nat) : Byte :=
  match secSymbol c a sym sc with
  | some v => v
  | none =>
    match dataSymbol c m sym sc with
    | some v => v
    | none => (refSymbol c sym sc).getD blankSymbol

/-- The frame, symbol by symbol (R170). -/
def l1Frame (c : Cfg) (m a : Nat → Byte) : List Byte :=
  (List.range symbolsPerFrame).flatMap (fun sym => (List.range c.fftSize).map (l1Symbol c m a sym))

/-- The addresses whose cells L1MAP reads into symbols: the whole P1 matrix and the cells SEC_MAP names. -/
def l1Reads (s : State) : List Nat :=
  (List.range matCells).map (s.srcA + ·) ++
  s.cfg.secMap.flatMap (fun e => [s.auxA + e.off, s.auxA + e.off + 1])

/-- The lowest of those addresses whose cell is no bit (R178). -/
def l1BadBit (s : State) : Option Nat := ((l1Reads s).filter (fun a => !isBit (s.mem.read a))).min?

/-- L1MAP (R178). -/
def l1map (s : State) : Completion :=
  if ¬ legal s.cfg s.srcA matCells then .error .addrRange s.lat.src
  else if ¬ legal s.cfg s.dstA s.cfg.l1FrameBytes then .error .addrRange s.lat.dst
  else if ¬ legal s.cfg s.auxA s.cfg.secBytes then .error .addrRange s.lat.aux
  else if overlap s.dstA s.cfg.l1FrameBytes s.srcA matCells ∨
      overlap s.dstA s.cfg.l1FrameBytes s.auxA s.cfg.secBytes then .error .overlap s.lat.dst
  else match l1BadBit s with
    | some a => .error .badBit (toWord a)
    | none =>
      .ok (matCells + s.cfg.secBytes) s.cfg.l1FrameBytes
        { s with
          mem := s.mem.writeBlock s.dstA
            (l1Frame s.cfg (fun i => s.mem.read (s.srcA + i)) (fun j => s.mem.read (s.auxA + j))) }

/-- L1MAP (R178). -/
def execL1map (s : State) : Host.Outcome State Fault Refusal := s.complete (l1map s)

end Sys2Proof.Machine
end

