-- ==== Sys2Proof/Machine/Dispatch.lean ====
section
/-! DEFINITION. The completion step of a command: one arm per constructor of Instr (30_encoding.md R85). -/

namespace Sys2Proof.Machine

def exec (i : Instr) (s : State) : Host.Outcome State Fault Refusal :=
  match i with
  | .nop => Sys2Proof.Machine.execNop s
  | .srst => Sys2Proof.Machine.execSrst s
  | .rev8 => Sys2Proof.Machine.execRev8 s
  | .scr => Sys2Proof.Machine.execScr s
  | .conv25 => Sys2Proof.Machine.execConv25 s
  | .conv12 => Sys2Proof.Machine.execConv12 s
  | .ilvp1 => Sys2Proof.Machine.execIlvp1 s
  | .ilvpids => Sys2Proof.Machine.execIlvpids s
  | .ilviv k => Sys2Proof.Machine.execIlviv k s
  | .l1map => Sys2Proof.Machine.execL1map s
  | .rsenc => Sys2Proof.Machine.execRsenc s
  | .audq p => Sys2Proof.Machine.execAudq p s
  | .psdset p => Sys2Proof.Machine.execPsdset p s
  | .aasq port => Sys2Proof.Machine.execAasq port s
  | .l2frame => Sys2Proof.Machine.execL2frame s

end Sys2Proof.Machine
end

