-- ==== Sys2Proof/Machine/Flags.lean ====
section
/-! DEFINITION. The STATUS flags and the interrupt level (10_state.md R24, R25, R42; 60_exceptions.md R280). -/

namespace Sys2Proof.Machine

/-- EVPEND: the event queue is non-empty (R31). -/
def State.evpend (s : State) : Bool := !s.evq.isEmpty

/-- The level of the interrupt output (R280). -/
def State.irq (s : State) : Bool :=
  (s.csr.flags.done && s.csr.irqen.getLsbD 0) || (s.csr.flags.err && s.csr.irqen.getLsbD 1) ||
  (s.csr.flags.warn && s.csr.irqen.getLsbD 2) || (s.evpend && s.csr.irqen.getLsbD 3)

/-- BUSY (R24). -/
def State.busy (s : State) : Bool := s.phase == .busy

/-- The STATUS word, bit 0 first (R24). -/
def State.status (s : State) : Word :=
  (BitVec.ofBoolListLE [s.busy, s.csr.flags.done, s.csr.flags.err, s.csr.flags.warn, s.csr.flags.stall,
    s.csr.flags.cmdovr, s.evpend, s.csr.flags.evovf, s.irq]).setWidth 32

/-- A write of `v` to STATUS clears the sticky bits whose bit of `v` is 1 (R25). -/
def Flags.clear (f : Flags) (v : Word) : Flags where
  done := f.done && !v.getLsbD 1
  err := f.err && !v.getLsbD 2
  warn := f.warn && !v.getLsbD 3
  stall := f.stall && !v.getLsbD 4
  cmdovr := f.cmdovr && !v.getLsbD 5
  evovf := f.evovf && !v.getLsbD 7

/-- The word ACK writes to STATUS: every sticky bit (R91). -/
def ackWord : Word := 0xBE

end Sys2Proof.Machine
end

