-- ==== Sys2Proof/Machine/Csr.lean ====
section
/-! DEFINITION. CSR reads and writes by the host, at word-aligned offsets (10_state.md R21 to R36). -/

namespace Sys2Proof.Machine

/-- IVSTAT: bit k is IVHALF[k] (R32). -/
def State.ivstat (s : State) : Word := (BitVec.ofBoolListLE (s.iv.map IvState.half)).setWidth 32

/-- L2FRAMES: FRAMECNT modulo 2^32 (R36). -/
def State.l2frames (s : State) : Word := toWord s.l2.frameCnt

/-- What EVQ reads: the head event with bit 31 set, or 0 when the queue is empty (R31). -/
def State.evqHead (s : State) : Word :=
  match s.evq with
  | [] => 0
  | port :: _ => 0x80000000#32 ||| port.setWidth 32

/-- The value of the CSR at an offset (R21, R22). -/
def State.csrValue (s : State) (off : Nat) : Word :=
  match off with
  | 0x00 => s.csr.cmd
  | 0x04 => s.status
  | 0x08 => s.csr.cause.setWidth 32
  | 0x0C => s.csr.info
  | 0x10 => s.csr.src
  | 0x14 => s.csr.dst
  | 0x18 => s.csr.len
  | 0x1C => s.csr.aux
  | 0x20 => s.csr.incnt
  | 0x24 => s.csr.outcnt
  | 0x28 => s.csr.lfsr.setWidth 32
  | 0x2C => s.ivstat
  | 0x30 => s.csr.irqen.setWidth 32
  | 0x34 => s.csr.warnmask
  | 0x38 => s.evqHead
  | 0x3C => s.l2frames
  | _ => 0

/-- The state after a read of the CSR at an offset: only a read of EVQ has an effect, and removes the head
event (R22, R31). -/
def State.afterCsrRead (s : State) (off : Nat) : State :=
  if off = 0x38 then { s with evq := s.evq.tail } else s

/-- The state after a write of the CSR at an offset; writes to read-only registers and to reserved offsets
are ignored (R22). -/
def State.csrWrite (s : State) (off : Nat) (v : Word) : State :=
  match off with
  | 0x00 => s.issue v
  | 0x04 => { s with csr := { s.csr with flags := s.csr.flags.clear v } }
  | 0x10 => { s with csr := { s.csr with src := v } }
  | 0x14 => { s with csr := { s.csr with dst := v } }
  | 0x18 => { s with csr := { s.csr with len := v } }
  | 0x1C => { s with csr := { s.csr with aux := v } }
  | 0x30 => { s with csr := { s.csr with irqen := v.setWidth 4 } }
  | 0x34 => { s with csr := { s.csr with warnmask := s.csr.warnmask &&& ~~~v } }
  | _ => s

end Sys2Proof.Machine
end

