-- ==== Sys2Proof/Machine/HostAgent.lean ====
section
/-! DEFINITION. The host agent: its accesses (20_memory.md R60 to R76) and the lines of its program (30_encoding.md
R90, R91). Each host access is one atomic step (R69). -/

namespace Sys2Proof.Machine

/-- Bytes of an access (R65). -/
def Width.bytes : Width → Nat
  | .byte => 1
  | .half => 2
  | .word => 4

/-- The host goes on to line `n`. -/
def State.hostAt (s : State) (n : Nat) : State := { s with host := { s.host with pc := n } }

/-- The host goes on to its next line. -/
def State.hostNext (s : State) : State := s.hostAt (s.host.pc + 1)

/-- A read returned `v` to the host. -/
def State.respond (s : State) (v : Word) : State :=
  { s with host := { s.host with responses := v :: s.host.responses } }

/-- A CSR access must be 32 bits wide at an offset that is a multiple of 4 (R66). -/
def csrAccessOk (wd : Width) (off : BitVec 8) : Bool := wd == .word && off.toNat % 4 == 0

/-- A host access to BUFMEM is a hazard: it touches a range in use by the running command (R76). -/
abbrev State.hazard (s : State) (a n : Nat) : Prop :=
  s.phase = .busy ∧ (latRanges s).any (fun r => decide (overlap a n r.1 r.2)) = true

/-- The first address of a range that does not exist. -/
def firstMissing (c : Cfg) (a : Nat) : Nat := if a < c.bufBytes then c.bufBytes else a

/-- Bits hi..lo of a word, as an unsigned number (R8). -/
def wordField (v : Word) (hi lo : Nat) : Nat := v.toNat / 2 ^ lo % 2 ^ (hi + 1 - lo)

/-- `rd`: the register's value, with the effect of a read of EVQ (R22, R66). -/
def hostRd (s : State) (wd : Width) (off : BitVec 8) : Host.Outcome State Fault Refusal :=
  if csrAccessOk wd off then
    .next (((s.afterCsrRead off.toNat).respond (s.csrValue off.toNat)).hostNext)
  else .next s.markCsrAccess.hostNext

/-- `wr`: a write of a CSR (R22, R66). -/
def hostWr (s : State) (wd : Width) (off : BitVec 8) (v : Word) : Host.Outcome State Fault Refusal :=
  if csrAccessOk wd off then .next (s.csrWrite off.toNat v).hostNext
  else .next s.markCsrAccess.hostNext

/-- A host read of BUFMEM (R65, R76). -/
def hostMr (s : State) (wd : Width) (a : Word) : Host.Outcome State Fault Refusal :=
  if ¬ legal s.cfg a.toNat wd.bytes then .fault (.bufAddress (firstMissing s.cfg a.toNat))
  else if s.hazard a.toNat wd.bytes then
    .next s.markHazard.hostNext
  else .next ((s.respond (toWord (s.mem.readLE a.toNat wd.bytes))).hostNext)

/-- A host write of BUFMEM (R65, R76). DESIGN CHOICE (log entry 27): of a value that does not fit the width, which R65 gives
no meaning, the low bytes are written and the rest is dropped. -/
def hostMw (s : State) (wd : Width) (a : Word) (v : Word) : Host.Outcome State Fault Refusal :=
  if ¬ legal s.cfg a.toNat wd.bytes then .fault (.bufAddress (firstMissing s.cfg a.toNat))
  else if s.hazard a.toNat wd.bytes then
    .next s.markHazard.hostNext
  else .next ({ s with mem := s.mem.writeBlock a.toNat (bytesLE v.toNat wd.bytes) }.hostNext)

/-- `loop_until`: a read of the register, then on to the next line or back to the label (R90). DESIGN CHOICE (log entry
25): a label that is no line of the program ends the program, and a field with no bit (hi < lo) reads as 0. -/
def hostLoop (s : State) (off : BitVec 8) (hi lo v label : Nat) : Host.Outcome State Fault Refusal :=
  if csrAccessOk .word off then
    let t := (s.afterCsrRead off.toNat).respond (s.csrValue off.toNat)
    if wordField (s.csrValue off.toNat) hi lo = v then .next t.hostNext else .next (t.hostAt label)
  else .next s.markCsrAccess.hostNext

/-- One line of the host's program. -/
def hostLine (s : State) : HostLine → Host.Outcome State Fault Refusal
  | .rd wd off => hostRd s wd off
  | .wr wd off v => hostWr s wd off v
  | .mr wd a => hostMr s wd a
  | .mw wd a v => hostMw s wd a v
  | .loopUntil off hi lo v label => hostLoop s off hi lo v label

/-- The host's turn: the line it is at. A host whose program has ended does nothing (R309). -/
def hostTurn (s : State) : Host.Outcome State Fault Refusal :=
  match s.host.program[s.host.pc]? with
  | none => .next s
  | some line => hostLine s line

/-! ## The assembler forms of R90 and the pseudo-commands of R91, as lines -/

/-- `wr NAME, v` with the register's offset; an offset of 0x100 or more, which names no register, is taken modulo 0x100
(DESIGN CHOICE, log entry 25). -/
def asmWr (off : Nat) (v : Word) : List HostLine := [.wr .word (BitVec.ofNat 8 off) v]

/-- `rd NAME`, with the offset as in `asmWr` (DESIGN CHOICE, log entry 25). -/
def asmRd (off : Nat) : List HostLine := [.rd .word (BitVec.ofNat 8 off)]

/-- `mw a, b0, b1, ...`. DESIGN CHOICE (log entry 24): a line names a 32-bit address, so the bytes of a list that
runs past address 2^32 - 1 go on at address 0; R90 gives such a list no meaning, and addresses never wrap (R61). -/
def asmMw (a : Nat) : List Byte → List HostLine
  | [] => []
  | b :: bs => .mw .byte (toWord a) (b.setWidth 32) :: asmMw (a + 1) bs

/-- `mfill a, n, b`; past address 2^32 - 1 as in `asmMw` (log entry 24). -/
def asmMfill (a n : Nat) (b : Byte) : List HostLine := asmMw a (List.replicate n b)

/-- `mr a, n`; past address 2^32 - 1 it goes on at address 0, as in `asmMw` (DESIGN CHOICE, log entry 24). -/
def asmMr (a n : Nat) : List HostLine := (List.range n).map (fun i => .mr .byte (toWord (a + i)))

/-- A command mnemonic: `wr CMD, w` with the command's word. DESIGN CHOICE (log entry 25): R90 gives a mnemonic whose
operand does not fit its field (ILVIV k with k > 15, AUDQ p or PSDSET p with p > 65535) no word; here the operand is taken
modulo the size of the field, as `encode` takes it. -/
def asmCmd (i : Instr) : List HostLine := asmWr 0x00 (encode i)

/-- `SETUP s, d, n`. -/
def asmSetup (src dst len : Word) : List HostLine := asmWr 0x10 src ++ asmWr 0x14 dst ++ asmWr 0x18 len

/-- `WAIT`, standing at line `line`: read STATUS until BUSY is 0. -/
def asmWait (line : Nat) : List HostLine := asmRd 0x04 ++ [.loopUntil 0x04 0 0 0 line]

/-- `RUN X`, standing at line `line`. -/
def asmRun (line : Nat) (i : Instr) : List HostLine := asmCmd i ++ asmWait (line + 1)

/-- `ACK`. -/
def asmAck : List HostLine := asmWr 0x04 ackWord

/-- `CHECK`: the read of STATUS whose bits 2 and 4 the host tests. DESIGN CHOICE (log entry 28): R91 gives the test no
outcome, so it is no line; the value read stands in the host's responses, and nothing follows from it. -/
def asmCheck : List HostLine := asmRd 0x04

end Sys2Proof.Machine
end

