-- ==== Sys2Proof/Machine/Step.lean ====
section
/-! DEFINITION. One step of the machine: one host access, or the completion of the running command (20_memory.md R69). -/

namespace Sys2Proof.Machine

/-- The block's turn: an IDLE block does nothing; a BUSY block completes its command, after the decode of
the latched word (R86, R307). -/
def blockTurn (s : State) : Host.Outcome State Fault Refusal :=
  match s.phase with
  | .idle => .next s
  | .busy =>
    match decode s.lat.w with
    | .cmd i => exec i s
    | .illegalCmd => .next (s.completeError .illegalCmd s.lat.w)
    | .rsvdNonzero => .next (s.completeError .rsvdNonzero s.lat.w)

/-- One step. `turns` says which agent moves; when it is empty the block moves while BUSY, and the host
otherwise. -/
def step (s : State) : Host.Outcome State Fault Refusal :=
  match s.host.turns with
  | .block :: rest => blockTurn { s with host := { s.host with turns := rest } }
  | .host :: rest => hostTurn { s with host := { s.host with turns := rest } }
  | [] =>
    match s.phase with
    | .busy => blockTurn s
    | .idle => hostTurn s

/-- The state in which the word with low bits `w` has just been written to CMD of an IDLE block and the block
moves next, so that the next step runs it. A block takes its command from the host's write of CMD and fetches
nothing (R23, R73). -/
def State.withFetchWord (s : State) (nbits w : Nat) : State :=
  let t := s.accept (toWord (w % 2 ^ nbits))
  { t with host := { t.host with turns := .block :: t.host.turns } }

end Sys2Proof.Machine
end

