-- ==== Sys2Proof/Safety.lean ====
section
/-! DEFINITION. Runs and their premises (70_reset_and_hazards.md R309, R310), and the invariants of the machine's
state. -/

namespace Sys2Proof.Machine

/-! ## Runs -/

/-- The premise of every claim about a run: FAULTS is empty (R41, R291). -/
def State.clean (s : State) : Prop := s.faults = Marks.none

/-- The clean-entry premise of a run (R310). -/
def State.cleanEntry (s : State) : Prop :=
  s.clean ∧ s.phase = .idle ∧ s.status = 0 ∧ s.evq = [] ∧
  (∀ v ∈ s.l2.progs, v.audq = [] ∧ v.psd = none ∧ v.part = none ∧ v.seq = 0) ∧
  (∀ e ∈ s.l2.aasq, e.2 = []) ∧
  s.l2.frameCnt = 0 ∧ s.l2.fdsPos = 0 ∧ s.l2.cccPos = 0 ∧
  (∀ v ∈ s.iv, v.half = false)

/-- A run has ended: the host's program has no further line, the phase is IDLE, and FAULTS is empty (R309). -/
def State.ended (s : State) : Prop :=
  s.host.program.length ≤ s.host.pc ∧ s.phase = .idle ∧ s.clean

/-! ## Invariants -/

/-- BUFMEM is in canonical form and lists no address outside BUFMEM (R60). -/
def State.memOk (s : State) : Prop := s.mem.wf = true ∧ s.mem.below s.cfg.bufBytes = true

/-- The tables of the state have the sizes CFG gives them (R31, R38, R39), CCCPOS is a position of the CCC message
(R217), and WARNMASK has no bit of a program that does not exist (R35). -/
def State.shapeOk (s : State) : Prop :=
  s.iv.length = s.cfg.niv ∧
  (∀ k < s.cfg.niv, (s.ivAt k).buf.length = (s.cfg.ivAt k).n) ∧
  s.l2.progs.length = s.cfg.nprog ∧
  (∀ v ∈ s.l2.progs, v.audq.length ≤ s.cfg.audqDepth ∧ ∀ b ∈ v.psd, b.length = s.cfg.psdBytes) ∧
  s.evq.length ≤ s.cfg.evqDepth ∧
  s.l2.cccPos < s.cfg.cccMsg.length ∧
  (∀ p, s.cfg.nprog ≤ p → s.csr.warnmask.getLsbD p = false)

/-- A sub-frame payload fits an empty program region whole (R202). -/
def fitsAlone (c : Cfg) (p : Nat) (sf : List Byte) : Prop := sf.length + 1 + c.locBytes 1 ≤ c.area p

/-- The state of program `p` after `frameCnt` frames: every waiting payload fits a region on its own, a split
sub-frame is split inside its payload with the CRC of its first part, and SEQ has not passed the target of
the last frame (R39, R202, R211, R226). -/
def ProgState.budgetOk (c : Cfg) (frameCnt p : Nat) (v : ProgState) : Prop :=
  (∀ sf ∈ v.audq, fitsAlone c p sf) ∧
  v.seq ≤ frameCnt * c.targetNop ∧
  (∀ q ∈ v.part, q.k ≤ q.sf.length ∧ fitsAlone c p q.sf ∧ q.crc = crcUpd c c.crcInit (q.sf.take q.k) ∧
    v.seq < frameCnt * c.targetNop)

/-- Every program is within its budget. -/
def State.budgetOk (s : State) : Prop :=
  ∀ p < s.cfg.nprog, (s.progAt p).budgetOk s.cfg s.l2.frameCnt p

/-- A byte sequence read from outside (`false`) or inside (`true`) a flag-delimited frame consists of whole
frames up to its end (R204). -/
def hdlcWhole : Bool → List Byte → Bool
  | inside, [] => !inside
  | false, b :: bs => b == hdlcFlag && hdlcWhole true bs
  | true, b :: bs => if b = hdlcFlag then hdlcWhole false bs else hdlcWhole true bs

/-- The AAS queues: ports in strictly rising order, no queue over its capacity, whole HDLC frames in every queue
but for the part of the current PDU already drained, and a cursor that is a port of PORTS whenever there is
one, and always inside a PDU (R40, R204, R220). -/
def State.aasOk (s : State) : Prop :=
  s.l2.aasq.Pairwise (fun a b => a.1 < b.1) ∧
  (∀ e ∈ s.l2.aasq, e.2.length ≤ s.cfg.aasQbytes) ∧
  (∀ e ∈ s.l2.aasq, hdlcWhole (s.l2.inPdu && s.l2.curPort == some e.1) e.2 = true) ∧
  (∀ q ∈ s.l2.curPort, q ∈ s.l2.aasq.map Prod.fst) ∧
  (s.l2.inPdu = true → s.l2.curPort ≠ none)

end Sys2Proof.Machine
end

