-- ==== Sys2Proof/Certificates/Slice0/Obligations.lean ====
section
/-! DEFINITION. The statements about the machine, each formalising rules of spec/. -/

open Sys2Proof Sys2Proof.Machine

/-! ## Words used in the statements -/

namespace Sys2Proof.Machine

/-- The CSRs after a successful completion that consumed `n` and produced `m` items and wrote no other CSR
(R29, R100). -/
def doneCsr (c : Csr) (n m : Nat) : Csr :=
  { c with flags := { c.flags with done := true }, incnt := toWord n, outcnt := toWord m }

/-- The state after an error completion (R272). -/
def errorState (s : State) (c : Cause) (info : Word) : State :=
  { s with
    phase := .idle
    csr := { s.csr with
      flags := { s.csr.flags with done := true, err := true }
      cause := c.code
      info := info
      incnt := 0
      outcnt := 0 } }

/-- The state after a stall completion (R276). -/
def stallState (s : State) : State :=
  { s with
    phase := .idle
    csr := { s.csr with
      flags := { s.csr.flags with done := true, stall := true }
      incnt := 0
      outcnt := 0 } }

/-- The bits of the input block of an encoder command. -/
def inputBits (s : State) : List Bool := (s.mem.readBlock s.srcA s.lenN).map cellBit

/-- Which causes a command may complete with, by the "raised by" column of R271. -/
def raisedBy (i : Instr) : List Cause :=
  match i with
  | .nop | .srst => []
  | .rev8 => [.badLen, .addrRange, .overlap]
  | .scr => [.addrRange, .overlap]
  | .conv25 | .conv12 => [.badLen, .addrRange, .overlap, .badBit]
  | .ilvp1 | .ilvpids => [.addrRange, .overlap]
  | .ilviv _ => [.notConfigured, .addrRange, .overlap]
  | .l1map => [.addrRange, .overlap, .badBit]
  | .rsenc => [.badLen, .addrRange]
  | .audq _ => [.badProg, .badLen, .addrRange, .badAdts, .queueFull]
  | .psdset _ => [.badProg, .badLen, .addrRange, .queueFull]
  | .aasq _ => [.badLen, .addrRange, .badHdlc, .queueFull]
  | .l2frame => [.addrRange]

/-- The commands that may stall (R276). -/
def mayStall (i : Instr) : Bool :=
  match i with
  | .ilvp1 | .ilvpids | .ilviv _ | .l2frame => true
  | .nop | .srst | .rev8 | .scr | .conv25 | .conv12 | .l1map | .rsenc
  | .audq _ | .psdset _ | .aasq _ => false

/-- It is the turn of agent `g` in `s`, and `u` is `s` with that turn taken off the order of turns. DESIGN CHOICE (log
entry 9): with an empty order the block moves while BUSY and the host while IDLE. -/
def turnOf (g : Agent) (s u : State) : Prop :=
  (∃ rest, s.host.turns = g :: rest ∧ u = { s with host := { s.host with turns := rest } }) ∨
  (s.host.turns = [] ∧ u = s ∧ (g = .block ↔ s.phase = .busy))

/-- W(h, i) of R152: the base of the partition of i, plus h·(N/2)/J, plus the number of the partition's inputs
before i. -/
def ivWrite (c : IvCfg) (h : Bool) (i : Nat) : Nat :=
  c.base.getD (c.part.getD i 0) 0 + h.toNat * (c.n / 2) / c.j +
    (List.range i).countP (fun m => c.part.getD m 0 == c.part.getD i 0)

/-- The number of 1 bits of a 7-bit number, modulo 2, is 1 (R13). -/
def oddOnes (v : BitVec 7) : Bool := decide ((List.range 7).countP (fun j => v.getLsbD j) % 2 = 1)

end Sys2Proof.Machine

/-! ## Encoding -/

/-- Decoding the word of a well-formed command gives the command back (R80, R85, R86). -/
def Obligations.EncodeThenDecode : Prop :=
  ∀ i : Instr, i.wellFormed = true → decode (encode i) = .cmd i

/-- A word that decodes to a command is that command's word, so no two words stand for one command (R80, R85,
R86). -/
def Obligations.DecodeThenEncode : Prop :=
  ∀ (w : Word) (i : Instr), decode w = .cmd i → i.wellFormed = true ∧ encode i = w

/-- No two rows of the opcode map match the same word (R85). -/
def Obligations.OpcodeRowsDisjoint : Prop :=
  opcodeTable.Pairwise (fun r q => ∀ w : Word, ¬(r.selects w = true ∧ q.selects w = true))

/-- Words written out from the OPC, SEL and IMM columns of R85 decode to their commands, and words with a
reserved field do not decode (R83, R86). -/
def Obligations.SpecWordsDecode : Prop :=
  decode 0x00000000 = .cmd .nop ∧ decode 0x00000001 = .cmd .srst ∧ decode 0x00000010 = .cmd .rev8 ∧
  decode 0x00000112 = .cmd .conv12 ∧ decode 0x00000120 = .cmd .ilvpids ∧ decode 0x00000321 = .cmd (.ilviv 3) ∧
  decode 0x00000030 = .cmd .l1map ∧ decode 0x00000040 = .cmd .rsenc ∧ decode 0x00070051 = .cmd (.psdset 7) ∧
  decode 0x51000052 = .cmd (.aasq 0x5100) ∧ decode 0x00001012 = .rsvdNonzero ∧
  decode 0x00010012 = .rsvdNonzero ∧ decode 0x00000013 = .illegalCmd

/-- The illegal words (R87): every OPC outside the opcode map, SEL of 2 or more with OPC 0x12 or 0x20, and a
non-zero SEL with any other OPC but 0x21, whatever RSV and IMM hold. With OPC 0x21 every SEL selects a
row. -/
def Obligations.IllegalWords : Prop :=
  ∀ w : Word,
    (opcField w ∉ [0x00, 0x01, 0x10, 0x11, 0x12, 0x20, 0x21, 0x30, 0x40, 0x50, 0x51, 0x52, 0x53] →
      decode w = .illegalCmd) ∧
    ((opcField w = 0x12 ∨ opcField w = 0x20) → 2 ≤ selField w → decode w = .illegalCmd) ∧
    (opcField w ≠ 0x12 → opcField w ≠ 0x20 → opcField w ≠ 0x21 → selField w ≠ 0 → decode w = .illegalCmd) ∧
    (opcField w = 0x21 → decode w ≠ .illegalCmd)

/-- An accepted word completes as R86 orders: no row, ILLEGAL_CMD; RSV not 0, or IMM not 0 where the row has
none, RSVD_NONZERO; else the row's command runs with the word's SEL and IMM. The model's choice: which agent moves (log
entry 9, DESIGN CHOICE), and that one step decodes and completes the word (log entries 14 and 22, DEDUCED). -/
def Obligations.AcceptedWordDecodesInOrder : Prop :=
  ∀ s u : State, s.phase = .busy → turnOf .block s u →
    ((∀ r ∈ opcodeTable, r.selects s.lat.w = false) →
      step s = .next (errorState u .illegalCmd s.lat.w)) ∧
    (∀ r ∈ opcodeTable, r.selects s.lat.w = true →
      (rsvField s.lat.w ≠ 0 → step s = .next (errorState u .rsvdNonzero s.lat.w)) ∧
      (rsvField s.lat.w = 0 → r.usesImm = false → immField s.lat.w ≠ 0 →
        step s = .next (errorState u .rsvdNonzero s.lat.w)) ∧
      (rsvField s.lat.w = 0 → (r.usesImm = true ∨ immField s.lat.w = 0) →
        step s = exec (r.build (selField s.lat.w) (immField s.lat.w)) u))

/-! ## Steps -/

/-- A step is the turn of one agent. The turn of a BUSY block whose latched word is a command is the command's
completion; an IDLE block does nothing in its turn; the host performs the line it is at, or nothing when its program
has ended. The model's choice: the order of turns, and that the block moves while BUSY when none is given (log entry 9,
DESIGN CHOICE), and that a completion is one step (log entry 14, DEDUCED). -/
def Obligations.StepRunsDecodedCommand : Prop :=
  ∀ s u : State,
    (turnOf .block s u → s.phase = .busy → ∀ i : Instr, decode s.lat.w = .cmd i → step s = exec i u) ∧
    (turnOf .block s u → s.phase = .idle → step s = .next u) ∧
    (turnOf .host s u →
      (∀ line, s.host.program[s.host.pc]? = some line → step s = hostLine u line) ∧
      (s.host.program.length ≤ s.host.pc → step s = .next u))

/-- A command's word placed for the next step is accepted with the operand registers as they stand, and the
next step completes that command. The model's choice: placing a word is the model's device and no write of CMD (log
entry 10, DESIGN CHOICE); in the BUSY phase it replaces the running command, where a write would be dropped (R23,
R278). -/
def Obligations.PlacedWordRuns : Prop :=
  ∀ (s : State) (i : Instr), i.wellFormed = true →
    step (s.withFetchWord 32 (encode i).toNat) =
      exec i { s with
        phase := .busy
        lat := ⟨encode i, s.csr.src, s.csr.dst, s.csr.len, s.csr.aux⟩
        csr := { s.csr with cmd := encode i } }

/-- A BUSY block whose turn it is completes its command in that step, whatever word it latched: the phase is
IDLE and DONE is set after it (R42, R307). The model's choice: the order of turns (log entry 9, DESIGN CHOICE) and the
completion in one step (log entry 14, DEDUCED). -/
def Obligations.BusyBlockCompletes : Prop :=
  ∀ s u : State, s.phase = .busy → turnOf .block s u →
    ∃ t, step s = .next t ∧ t.phase = .idle ∧ t.csr.flags.done = true

/-- No step changes CFG or removes a mark from FAULTS (R7, R41). -/
def Obligations.StepKeepsCfgAndMarks : Prop :=
  ∀ s t : State, step s = .next t →
    t.cfg = s.cfg ∧
    (s.faults.hostHazard = true → t.faults.hostHazard = true) ∧
    (s.faults.csrAccess = true → t.faults.csrAccess = true)

/-! ## Registers and the host -/

/-- A write of CMD (R23, R278): in the IDLE phase the word is accepted and the operands are latched, and the
register reads the word; in the BUSY phase the word is dropped and CMDOVR is set. Nothing else changes. After reset
CMD reads 0. -/
def Obligations.CommandAcceptance : Prop :=
  State.reset.csrValue 0x00 = 0 ∧
  ∀ (s : State) (w : Word),
    (s.phase = .idle →
      s.csrWrite 0x00 w = { s with
        phase := .busy
        lat := ⟨w, s.csr.src, s.csr.dst, s.csr.len, s.csr.aux⟩
        csr := { s.csr with cmd := w } } ∧
      (s.csrWrite 0x00 w).csrValue 0x00 = w ∧ (s.csrWrite 0x00 w).status.getLsbD 0 = true) ∧
    (s.phase = .busy →
      s.csrWrite 0x00 w =
        { s with csr := { s.csr with flags := { s.csr.flags with cmdovr := true } } } ∧
      (s.csrWrite 0x00 w).csrValue 0x00 = s.csr.cmd)

/-- The bits of STATUS (R24, R280). -/
def Obligations.StatusReadsFlags : Prop :=
  ∀ s : State,
    (s.csrValue 0x04).getLsbD 0 = decide (s.phase = .busy) ∧
    (s.csrValue 0x04).getLsbD 1 = s.csr.flags.done ∧
    (s.csrValue 0x04).getLsbD 2 = s.csr.flags.err ∧
    (s.csrValue 0x04).getLsbD 3 = s.csr.flags.warn ∧
    (s.csrValue 0x04).getLsbD 4 = s.csr.flags.stall ∧
    (s.csrValue 0x04).getLsbD 5 = s.csr.flags.cmdovr ∧
    (s.csrValue 0x04).getLsbD 6 = decide (s.evq ≠ []) ∧
    (s.csrValue 0x04).getLsbD 7 = s.csr.flags.evovf ∧
    (s.csrValue 0x04).getLsbD 8 =
      ((s.csr.flags.done && s.csr.irqen.getLsbD 0) || (s.csr.flags.err && s.csr.irqen.getLsbD 1) ||
        (s.csr.flags.warn && s.csr.irqen.getLsbD 2) || (decide (s.evq ≠ []) && s.csr.irqen.getLsbD 3)) ∧
    (∀ i, 9 ≤ i → (s.csrValue 0x04).getLsbD i = false)

/-- A write of `v` to STATUS (R25): each sticky bit whose bit of `v` is 1 becomes 0 and the others stay, BUSY
and EVPEND stay, and nothing but the sticky bits changes, in either phase. -/
def Obligations.StatusWriteClears : Prop :=
  ∀ (s : State) (v : Word),
    (∀ i ∈ [1, 2, 3, 4, 5, 7],
      ((s.csrWrite 0x04 v).status).getLsbD i = (s.status.getLsbD i && !v.getLsbD i)) ∧
    (∀ i ∈ [0, 6], ((s.csrWrite 0x04 v).status).getLsbD i = s.status.getLsbD i) ∧
    (s.csrWrite 0x04 v) =
      { s with csr := { s.csr with flags := (s.csrWrite 0x04 v).csr.flags } }

/-- A read of EVQ (R31): the head event with bit 31 set, which is removed; 0 when the queue is empty. EVPEND
says whether the queue is non-empty. -/
def Obligations.EventQueueRead : Prop :=
  ∀ s : State,
    (∀ port rest, s.evq = port :: rest →
      s.csrValue 0x38 = 0x80000000 ||| port.setWidth 32 ∧ s.afterCsrRead 0x38 = { s with evq := rest }) ∧
    (s.evq = [] → s.csrValue 0x38 = 0 ∧ s.afterCsrRead 0x38 = s) ∧
    (s.status.getLsbD 6 = true ↔ s.evq ≠ [])

/-- emit_event (R31, R279): the port is appended while there is room, and otherwise lost with EVOVF set. -/
def Obligations.EventEmission : Prop :=
  ∀ (c : Cfg) (z : FdsState) (port : Port),
    (z.evq.length < c.evqDepth → z.emit c port = { z with evq := z.evq ++ [port] }) ∧
    (c.evqDepth ≤ z.evq.length → z.emit c port = { z with evovf := true })

/-- The other CSRs (R21, R22, R26 to R30, R32, R33, R35, R36): the operand registers, IRQEN and WARNMASK take host
writes in either phase, and such a write changes nothing else; the read-only registers and the reserved offsets ignore
writes; each register reads its value, with its reserved bits 0; reserved offsets read 0; and no read but that of EVQ
has an effect. -/
def Obligations.CsrReadsAndWrites : Prop :=
  ∀ (s : State) (v : Word),
    s.csrWrite 0x10 v = { s with csr := { s.csr with src := v } } ∧ s.csrValue 0x10 = s.csr.src ∧
    s.csrWrite 0x14 v = { s with csr := { s.csr with dst := v } } ∧ s.csrValue 0x14 = s.csr.dst ∧
    s.csrWrite 0x18 v = { s with csr := { s.csr with len := v } } ∧ s.csrValue 0x18 = s.csr.len ∧
    s.csrWrite 0x1C v = { s with csr := { s.csr with aux := v } } ∧ s.csrValue 0x1C = s.csr.aux ∧
    s.csrWrite 0x30 v = { s with csr := { s.csr with irqen := (s.csrWrite 0x30 v).csr.irqen } } ∧
    s.csrWrite 0x34 v = { s with csr := { s.csr with warnmask := (s.csrWrite 0x34 v).csr.warnmask } } ∧
    (∀ i, ((s.csrWrite 0x30 v).csrValue 0x30).getLsbD i = (decide (i < 4) && v.getLsbD i)) ∧
    (∀ i, i < 32 → ((s.csrWrite 0x34 v).csrValue 0x34).getLsbD i =
      (s.csr.warnmask.getLsbD i && !v.getLsbD i)) ∧
    (s.csrValue 0x08).toNat = s.csr.cause.toNat ∧ (∀ i, 8 ≤ i → (s.csrValue 0x08).getLsbD i = false) ∧
    s.csrValue 0x0C = s.csr.info ∧
    s.csrValue 0x20 = s.csr.incnt ∧ s.csrValue 0x24 = s.csr.outcnt ∧
    (s.csrValue 0x28).toNat = s.csr.lfsr.toNat ∧
    (∀ k, (s.csrValue 0x2C).getLsbD k = (decide (k < 32) && (s.ivAt k).half)) ∧
    (s.csrValue 0x3C).toNat = s.l2.frameCnt % 2 ^ 32 ∧
    (∀ off ∈ [0x08, 0x0C, 0x20, 0x24, 0x28, 0x2C, 0x38, 0x3C], s.csrWrite off v = s) ∧
    (∀ off, 0x40 ≤ off → s.csrWrite off v = s ∧ s.csrValue off = 0) ∧
    (∀ off, off ≠ 0x38 → s.afterCsrRead off = s)

/-- A CSR access of the host (R22, R66, R90). A 32-bit one at a multiple of 4 writes the register, or returns its
value with the read's effect, and the host goes on to its next line; `loop_until` reads so, and goes on only if bits
hi..lo of the value are `v`, and back to its label otherwise. Any other access records CSR_ACCESS and has no other effect,
and the host goes on (the last is the model's choice, log entry 12; so is what a poll with a label that is no line or with
a field that has no bit does, log entry 25, and that the other widths are 1 and 2 bytes, log entry 26). -/
def Obligations.HostCsrAccess : Prop :=
  ∀ (s : State) (wd : Width) (off : BitVec 8) (v : Word) (hi lo n label : Nat),
    (off.toNat % 4 = 0 →
      (wd = .word →
        hostLine s (.wr wd off v) = .next { s.csrWrite off.toNat v with
          host := { s.host with pc := s.host.pc + 1 } } ∧
        hostLine s (.rd wd off) = .next { s.afterCsrRead off.toNat with
          host := { s.host with
            pc := s.host.pc + 1
            responses := s.csrValue off.toNat :: s.host.responses } }) ∧
      hostLine s (.loopUntil off hi lo n label) = .next { s.afterCsrRead off.toNat with
        host := { s.host with
          pc := if (s.csrValue off.toNat).toNat / 2 ^ lo % 2 ^ (hi + 1 - lo) = n then s.host.pc + 1 else label
          responses := s.csrValue off.toNat :: s.host.responses } }) ∧
    (∀ line, ((wd ≠ .word ∨ off.toNat % 4 ≠ 0) ∧ (line = HostLine.rd wd off ∨ line = HostLine.wr wd off v)) ∨
        (off.toNat % 4 ≠ 0 ∧ line = HostLine.loopUntil off hi lo n label) →
      hostLine s line = .next { s with
        faults := { s.faults with csrAccess := true }
        host := { s.host with pc := s.host.pc + 1 } })

/-- A host access to BUFMEM in the turn of the host, with the host at that line. Beyond BUFMEM it stops the
model at the first address that does not exist (R60; the model's choice, log entry 11). While BUSY, inside a range the
latched command uses, it records HOST_HAZARD and has no other effect, and the host goes on (R76; the last is the model's
choice, log entry 12). The ranges are those of the table of R78, and none for an ILVIV whose instance does not exist (the model's choice,
log entry 23). -/
def Obligations.HostHazard : Prop :=
  (∀ s : State,
    (∀ i ∈ [Instr.nop, .srst], inUseRanges s i = []) ∧
    (∀ i ∈ [Instr.rev8, .scr], inUseRanges s i = [(s.srcA, s.lenN), (s.dstA, s.lenN)]) ∧
    inUseRanges s .conv25 = [(s.srcA, s.lenN), (s.dstA, 5 * s.lenN / 2)] ∧
    inUseRanges s .conv12 = [(s.srcA, s.lenN), (s.dstA, 2 * s.lenN)] ∧
    inUseRanges s .ilvp1 = [(s.srcA, 365440), (s.dstA, 368640)] ∧
    inUseRanges s .ilvpids = [(s.srcA, 3200), (s.dstA, 368640)] ∧
    (∀ k, k < s.cfg.niv →
      inUseRanges s (.ilviv k) = [(s.srcA, (s.cfg.ivAt k).n / 2), (s.dstA, (s.cfg.ivAt k).n / 2)]) ∧
    (∀ k, s.cfg.niv ≤ k → inUseRanges s (.ilviv k) = []) ∧
    inUseRanges s .l1map =
      [(s.srcA, 368640), (s.auxA, s.cfg.secBytes), (s.dstA, 512 * s.cfg.fftSize)] ∧
    inUseRanges s .rsenc = [(s.srcA, s.lenN)] ∧
    (∀ p, inUseRanges s (.audq p) = [(s.srcA, s.lenN)]) ∧
    (∀ q, inUseRanges s (.aasq q) = [(s.srcA, s.lenN)]) ∧
    (∀ p, inUseRanges s (.psdset p) = [(s.srcA, s.cfg.psdBytes)]) ∧
    inUseRanges s .l2frame = [(s.dstA, s.cfg.frameBits)]) ∧
  ∀ (s u : State) (wd : Width) (a v : Word) (line : HostLine),
    turnOf .host s u → s.host.program[s.host.pc]? = some line →
    (line = .mr wd a ∨ line = .mw wd a v) →
    (s.cfg.bufBytes < a.toNat + wd.bytes → step s = .fault (.bufAddress (max a.toNat s.cfg.bufBytes))) ∧
    (a.toNat + wd.bytes ≤ s.cfg.bufBytes → s.phase = .busy →
      (∃ i r x, decode s.lat.w = .cmd i ∧ r ∈ inUseRanges s i ∧ a.toNat ≤ x ∧ x < a.toNat + wd.bytes ∧
        r.1 ≤ x ∧ x < r.1 + r.2) →
      step s = .next { u with
        faults := { u.faults with hostHazard := true }
        host := { u.host with pc := u.host.pc + 1 } })

/-- A host access to BUFMEM of 1, 2 or 4 bytes, of an IDLE block or outside the ranges that a BUSY block's command uses.
A read returns the little-endian number of the bytes as they stand and changes nothing but the host. A write puts byte i of
the value at address a + i and changes no other byte, and the read of the same place then returns the low bytes of the value
(R65; of a value that does not fit the width the low bytes are written, the model's choice, log entry 27). Both are allowed
there in either phase (R76). The ranges are those of R78, and none for an ILVIV whose instance does
not exist (the model's choice, log entry 23) and for a word that is no command (log entry 22). -/
def Obligations.HostMemoryLittleEndian : Prop :=
  (Width.byte.bytes = 1 ∧ Width.half.bytes = 2 ∧ Width.word.bytes = 4) ∧
  ∀ (s : State) (wd : Width) (a : Word), legal s.cfg a.toNat wd.bytes →
    (s.phase = .busy → ∀ i, decode s.lat.w = .cmd i → ∀ r ∈ inUseRanges s i, ∀ x,
      a.toNat ≤ x → x < a.toNat + wd.bytes → ¬(r.1 ≤ x ∧ x < r.1 + r.2)) →
    hostLine s (.mr wd a) = .next { s with host := { s.host with
      pc := s.host.pc + 1
      responses := toWord ((List.range wd.bytes).map (fun i =>
        (s.mem.read (a.toNat + i)).toNat * 256 ^ i)).sum :: s.host.responses } } ∧
    ∀ v : Word, ∃ t, hostLine s (.mw wd a v) = .next t ∧
      t = { s with mem := t.mem, host := { s.host with pc := s.host.pc + 1 } } ∧
      (∀ i, i < wd.bytes → t.mem.read (a.toNat + i) = v.extractLsb' (8 * i) 8) ∧
      (∀ x, x < a.toNat ∨ a.toNat + wd.bytes ≤ x → t.mem.read x = s.mem.read x) ∧
      hostLine t (.mr wd a) = .next { t with host := { t.host with
        pc := t.host.pc + 1
        responses := toWord (v.toNat % 2 ^ (8 * wd.bytes)) :: t.host.responses } }

/-! ## Rules over all commands -/

/-- Every command completes in one of three ways (R42, R272, R274, R276): as an error, with nothing changed but the
completion fields; as a stall, likewise, which only four commands do; or successfully, which leaves ERR,
STALL, CMDOVR, CAUSE and INFO alone, and WARN and EVOVF too but for L2FRAME. SRST clears them. -/
def Obligations.CompletionKinds : Prop :=
  ∀ (i : Instr) (s : State), ∃ t, exec i s = .next t ∧
    ((∃ c info, t = errorState s c info) ∨
     (t = stallState s ∧ mayStall i = true) ∨
     (t.phase = .idle ∧ t.csr.flags.done = true ∧
      (i = .srst ∨
        (t.csr.flags.err = s.csr.flags.err ∧ t.csr.flags.stall = s.csr.flags.stall ∧
         t.csr.flags.cmdovr = s.csr.flags.cmdovr ∧ t.csr.cause = s.csr.cause ∧ t.csr.info = s.csr.info ∧
         (i = .l2frame ∨ (t.csr.flags.warn = s.csr.flags.warn ∧ t.csr.flags.evovf = s.csr.flags.evovf))))))

/-- Which state a command may change at all: the operand registers, IRQEN and LAT by SRST alone; LFSR by SCR
and SRST; the type IV instances by ILVIV, its own instance, and SRST; BUFMEM by the commands that name an output
in it; the L2 state by the L2 commands and SRST; events and WARNMASK by L2FRAME and SRST; CMD, FAULTS, CFG
and the host by none (R26, R28, R30, R35, R41, R89, R151, R261, R302). That SRST leaves the host alone is the model's reading
(log entry 21, DEDUCED), and the counter of draws, which SRST alone advances, is the model's own (log entry 8, DESIGN
CHOICE). -/
def Obligations.CommandFootprint : Prop :=
  ∀ (i : Instr) (s t : State), exec i s = .next t →
    (t.cfg = s.cfg ∧ t.host = s.host ∧ t.faults = s.faults ∧ t.csr.cmd = s.csr.cmd) ∧
    (i ≠ .srst → t.csr.src = s.csr.src ∧ t.csr.dst = s.csr.dst ∧ t.csr.len = s.csr.len ∧
      t.csr.aux = s.csr.aux ∧ t.csr.irqen = s.csr.irqen ∧ t.lat = s.lat ∧ t.draws = s.draws) ∧
    (i ≠ .srst → i ≠ .scr → t.csr.lfsr = s.csr.lfsr) ∧
    (i ≠ .srst → (∀ k, i ≠ .ilviv k) → t.iv = s.iv) ∧
    (∀ k, i = .ilviv k → ∀ j, j ≠ k → t.ivAt j = s.ivAt j) ∧
    ((i = .nop ∨ i = .srst ∨ (∃ p, i = .audq p) ∨ (∃ p, i = .psdset p) ∨ (∃ q, i = .aasq q)) →
      t.mem = s.mem) ∧
    (i ≠ .srst → i ≠ .l2frame → (∀ p, i ≠ .audq p) → (∀ p, i ≠ .psdset p) → (∀ q, i ≠ .aasq q) →
      t.l2 = s.l2) ∧
    (i ≠ .srst → i ≠ .l2frame → t.evq = s.evq ∧ t.csr.warnmask = s.csr.warnmask)

/-- A command completes as an error only with a cause that R271 says it raises, whatever ERR was before (R271, R282):
read off where ERR was 0, and where ERR was 1 every command but SRST completes just as it does where ERR was 0, with ERR
staying 1. The codes of the causes are those of R271. -/
def Obligations.OnlyListedCauses : Prop :=
  [Cause.illegalCmd, .rsvdNonzero, .badLen, .addrRange, .overlap, .badBit, .badProg, .queueFull, .notConfigured, .badAdts,
    .badHdlc].map Cause.code = [0x01, 0x02, 0x04, 0x05, 0x06, 0x07, 0x08, 0x09, 0x0A, 0x0B, 0x0C] ∧
  ∀ (i : Instr) (s : State), s.csr.flags.err = false →
    (∀ (c : Cause) (info : Word), exec i s = .next (errorState s c info) → c ∈ raisedBy i) ∧
    (i ≠ .srst → ∀ t, exec i s = .next t →
      exec i { s with csr := { s.csr with flags := { s.csr.flags with err := true } } } =
        .next { t with csr := { t.csr with flags := { t.csr.flags with err := true } } })

/-! ## Invariants -/

/-- Every step keeps BUFMEM in canonical form and inside its size (R60, R61). -/
def Obligations.MemoryInvariant : Prop :=
  ∀ s t : State, s.cfg.valid = true → s.memOk → step s = .next t → t.memOk

/-- Every step keeps the sizes of the tables, queues and masks (R31, R35, R38, R39, R217). -/
def Obligations.ShapeInvariant : Prop :=
  ∀ s t : State, s.cfg.valid = true → s.shapeOk → step s = .next t → t.shapeOk

/-- Every step keeps every program within its budget (R39, R202, R209, R211, R226). -/
def Obligations.BudgetInvariant : Prop :=
  ∀ s t : State, s.shapeOk → s.budgetOk → step s = .next t → t.budgetOk

/-- Every step keeps the AAS queues and their cursor in order (R40, R204, R219, R220). -/
def Obligations.AasInvariant : Prop :=
  ∀ s t : State, s.aasOk → step s = .next t → t.aasOk

/-- The state after reset has a valid CFG and meets every invariant. -/
def Obligations.ResetMeetsInvariants : Prop :=
  State.reset.cfg.valid = true ∧ State.reset.memOk ∧ State.reset.shapeOk ∧ State.reset.budgetOk ∧
  State.reset.aasOk ∧ State.reset.cleanEntry

/-- The reset values of R43, with every flag 0 and the interrupt output low (R301). LAT, the type IV cells and
BUFMEM are drawn, so nothing is said of their contents. -/
def Obligations.ResetValues : Prop :=
  State.reset.phase = .idle ∧
  State.reset.csr = ⟨0, ⟨false, false, false, false, false, false⟩, 0, 0, 0, 0, 0, 0, 0, 0, 0x3FF, 0, 0⟩ ∧
  State.reset.status = 0 ∧ State.reset.irq = false ∧
  State.reset.iv.length = State.reset.cfg.niv ∧ (∀ v ∈ State.reset.iv, v.half = false) ∧
  State.reset.l2 =
    ⟨List.replicate State.reset.cfg.nprog ⟨0, none, [], none⟩, 0, [], none, false, 0, 0⟩ ∧
  State.reset.evq = [] ∧ State.reset.mem.cells = [] ∧ State.reset.faults = ⟨false, false⟩

/-! ## Control commands -/

/-- NOP (R260): the word 0 is NOP; DONE is set, INCNT and OUTCNT become 0, and nothing else changes. -/
def Obligations.NopOnlyCompletes : Prop :=
  decode 0x00000000 = .cmd .nop ∧ ∀ s : State, exec .nop s = .next { s with
    phase := .idle
    csr := { s.csr with flags := { s.csr.flags with done := true }, incnt := 0, outcnt := 0 } }

/-- SRST (R261): the reset values of R43 everywhere but BUFMEM, FAULTS and CMD, with STATUS = DONE. The type IV cells and
LAT are drawn anew (of the cells, only their number is said; log entries 6 and 7). That the host and CFG, which R261 does
not name, are left alone is the model's reading (log entry 21, DEDUCED), and the counter of draws, which goes up by one, is
the model's own (log entry 8, DESIGN CHOICE). -/
def Obligations.SrstResets : Prop :=
  ∀ s : State, ∃ t, exec .srst s = .next t ∧
    t = { s with
      phase := .idle
      csr := ⟨s.csr.cmd, ⟨true, false, false, false, false, false⟩, 0, 0, 0, 0, 0, 0, 0, 0, 0x3FF, 0, 0⟩
      lat := t.lat
      iv := t.iv
      l2 := ⟨List.replicate s.cfg.nprog ⟨0, none, [], none⟩, 0, [], none, false, 0, 0⟩
      evq := []
      draws := s.draws + 1 } ∧
    t.status = 0x2 ∧ t.irq = false ∧
    t.iv.length = s.cfg.niv ∧
    (∀ k, k < s.cfg.niv → (t.ivAt k).half = false ∧ (t.ivAt k).buf.length = (s.cfg.ivAt k).n)

/-! ## Bit reversal, scrambler, encoder -/

/-- REV8 on legal operands (R101): within each group of 8 cells the order is reversed, from the cells as they
stood before; the cells outside the output, and everything but the completion, are unchanged. -/
def Obligations.Rev8ReversesGroups : Prop :=
  ∀ s : State, s.lenN % 8 = 0 → legal s.cfg s.srcA s.lenN → legal s.cfg s.dstA s.lenN →
    (s.lat.dst = s.lat.src ∨ ¬overlap s.srcA s.lenN s.dstA s.lenN) →
    ∃ t, exec .rev8 s = .next t ∧
      t = { s with phase := .idle, csr := doneCsr s.csr s.lenN s.lenN, mem := t.mem } ∧
      (∀ g j, g < s.lenN / 8 → j < 8 →
        t.mem.read (s.dstA + (8 * g + j)) = s.mem.read (s.srcA + (8 * g + (7 - j)))) ∧
      (∀ a, a < s.dstA ∨ s.dstA + s.lenN ≤ a → t.mem.read a = s.mem.read a)

/-- SCR on legal operands (R104): cell i is XORed in its bit 0 with the output bit of step i of the register,
which starts at 0x3FF, and LFSR shows the register after the last step. -/
def Obligations.ScrScrambles : Prop :=
  ∀ s : State, legal s.cfg s.srcA s.lenN → legal s.cfg s.dstA s.lenN →
    (s.lat.dst = s.lat.src ∨ ¬overlap s.srcA s.lenN s.dstA s.lenN) →
    ∃ t, exec .scr s = .next t ∧
      t = { s with
        phase := .idle
        csr := { doneCsr s.csr s.lenN s.lenN with lfsr := lfsrAfter s.lenN 0x3FF }
        mem := t.mem } ∧
      (∀ i, i < s.lenN → t.mem.read (s.dstA + i) =
        s.mem.read (s.srcA + i) ^^^ (if lfsrBit (lfsrAfter i 0x3FF) then 1 else 0)) ∧
      (∀ a, a < s.dstA ∨ s.dstA + s.lenN ≤ a → t.mem.read a = s.mem.read a)

/-- CONV25 on legal operands (R13, R107, R108, R111): output j of position i is 1 iff the register R_i has an odd number
of 1 bits under generator j, at index 5·(i/2) + 3·(i%2) + j of the output block; three outputs at even positions, two at
odd ones. -/
def Obligations.Conv25Encodes : Prop :=
  ∀ s : State, 6 ≤ s.lenN → s.lenN % 2 = 0 → legal s.cfg s.srcA s.lenN →
    legal s.cfg s.dstA (5 * s.lenN / 2) → ¬overlap s.srcA s.lenN s.dstA (5 * s.lenN / 2) →
    (∀ i, i < s.lenN → isBit (s.mem.read (s.srcA + i)) = true) →
    ∃ t, exec .conv25 s = .next t ∧
      t = { s with phase := .idle, csr := doneCsr s.csr s.lenN (5 * s.lenN / 2), mem := t.mem } ∧
      (∀ i j, i < s.lenN → j < (if i % 2 = 0 then 3 else 2) →
        t.mem.read (s.dstA + (5 * (i / 2) + 3 * (i % 2) + j)) =
          bitCell (oddOnes (encReg s.cfg.convRegOrder (inputBits s) i &&&
            [0o133#7, 0o171#7, 0o165#7].getD j 0))) ∧
      (∀ a, a < s.dstA ∨ s.dstA + 5 * s.lenN / 2 ≤ a → t.mem.read a = s.mem.read a)

/-- CONV12 on legal operands (R13, R107, R108, R112): two outputs at each position, at indexes 2i and 2i + 1. -/
def Obligations.Conv12Encodes : Prop :=
  ∀ s : State, 6 ≤ s.lenN → legal s.cfg s.srcA s.lenN →
    legal s.cfg s.dstA (2 * s.lenN) → ¬overlap s.srcA s.lenN s.dstA (2 * s.lenN) →
    (∀ i, i < s.lenN → isBit (s.mem.read (s.srcA + i)) = true) →
    ∃ t, exec .conv12 s = .next t ∧
      t = { s with phase := .idle, csr := doneCsr s.csr s.lenN (2 * s.lenN), mem := t.mem } ∧
      (∀ i j, i < s.lenN → j < 2 →
        t.mem.read (s.dstA + (2 * i + j)) =
          bitCell (oddOnes (encReg s.cfg.convRegOrder (inputBits s) i &&& [0o133#7, 0o165#7].getD j 0))) ∧
      (∀ a, a < s.dstA ∨ s.dstA + 2 * s.lenN ≤ a → t.mem.read a = s.mem.read a)

/-- The order of the checks of the bit-block commands and the error each raises (R101, R104, R110 to R112,
R273). A range is legal if it ends inside BUFMEM (R61), two ranges overlap if they share a byte (R100), and a bit cell holds
0 or 1 (R63). -/
def Obligations.BitBlockErrors : Prop :=
  (∀ (c : Cfg) (a n : Nat), legal c a n ↔ a + n ≤ c.bufBytes) ∧
  (∀ a n b m : Nat, overlap a n b m ↔ ∃ x, a ≤ x ∧ x < a + n ∧ b ≤ x ∧ x < b + m) ∧
  (∀ b : Byte, isBit b = true ↔ b = bitCell false ∨ b = bitCell true) ∧ bitCell false = 0 ∧ bitCell true = 1 ∧
  ∀ s : State,
    (s.lenN % 8 ≠ 0 → exec .rev8 s = .next (errorState s .badLen s.lat.len)) ∧
    (s.lenN % 8 = 0 → ¬legal s.cfg s.srcA s.lenN → exec .rev8 s = .next (errorState s .addrRange s.lat.src)) ∧
    (s.lenN % 8 = 0 → legal s.cfg s.srcA s.lenN → ¬legal s.cfg s.dstA s.lenN →
      exec .rev8 s = .next (errorState s .addrRange s.lat.dst)) ∧
    (s.lenN % 8 = 0 → legal s.cfg s.srcA s.lenN → legal s.cfg s.dstA s.lenN → s.lat.dst ≠ s.lat.src →
      overlap s.srcA s.lenN s.dstA s.lenN → exec .rev8 s = .next (errorState s .overlap s.lat.dst)) ∧
    (¬legal s.cfg s.srcA s.lenN → exec .scr s = .next (errorState s .addrRange s.lat.src)) ∧
    (legal s.cfg s.srcA s.lenN → ¬legal s.cfg s.dstA s.lenN →
      exec .scr s = .next (errorState s .addrRange s.lat.dst)) ∧
    (legal s.cfg s.srcA s.lenN → legal s.cfg s.dstA s.lenN → s.lat.dst ≠ s.lat.src →
      overlap s.srcA s.lenN s.dstA s.lenN → exec .scr s = .next (errorState s .overlap s.lat.dst)) ∧
    ((s.lenN < 6 ∨ s.lenN % 2 ≠ 0) → exec .conv25 s = .next (errorState s .badLen s.lat.len)) ∧
    (s.lenN < 6 → exec .conv12 s = .next (errorState s .badLen s.lat.len)) ∧
    (∀ i outLen, (i = .conv25 ∧ s.lenN % 2 = 0 ∧ outLen = 5 * s.lenN / 2) ∨ (i = .conv12 ∧ outLen = 2 * s.lenN) →
      6 ≤ s.lenN →
      (¬legal s.cfg s.srcA s.lenN → exec i s = .next (errorState s .addrRange s.lat.src)) ∧
      (legal s.cfg s.srcA s.lenN → ¬legal s.cfg s.dstA outLen →
        exec i s = .next (errorState s .addrRange s.lat.dst)) ∧
      (legal s.cfg s.srcA s.lenN → legal s.cfg s.dstA outLen → overlap s.srcA s.lenN s.dstA outLen →
        exec i s = .next (errorState s .overlap s.lat.dst)) ∧
      (legal s.cfg s.srcA s.lenN → legal s.cfg s.dstA outLen → ¬overlap s.srcA s.lenN s.dstA outLen →
        ∀ k, k < s.lenN → isBit (s.mem.read (s.srcA + k)) = false →
          (∀ j, j < k → isBit (s.mem.read (s.srcA + j)) = true) →
          exec i s = .next (errorState s .badBit (toWord (s.srcA + k)))))

/-- The scrambler sequence (R102, R103): the register starts at 0x3FF and takes b = r[9] ^ r[0] in at bit 10 as it
shifts right; the sequence s of its bit 0 obeys s(j+11) = s(j+9) ^ s(j) and is s(n+11) at output n; its
period is 2047; and its first 11 bits, the first 80 outputs (the first 32 among them) and the registers after 32
and after 80 steps are those the rule lists. -/
def Obligations.ScramblerSequence : Prop :=
  (∀ r : BitVec 11, ∀ j, (lfsrNext r).getLsbD j =
    (if j = 10 then (r.getLsbD 9 ^^ r.getLsbD 0) else r.getLsbD (j + 1))) ∧
  (∀ n, lfsrBit (lfsrAfter n 0x3FF) = (lfsrAfter (n + 11) 0x3FF).getLsbD 0) ∧
  (∀ n, (lfsrAfter (n + 11) 0x3FF).getLsbD 0 =
    ((lfsrAfter (n + 9) 0x3FF).getLsbD 0 ^^ (lfsrAfter n 0x3FF).getLsbD 0)) ∧
  (∀ n, lfsrAfter (n + 2047) 0x3FF = lfsrAfter n 0x3FF) ∧
  (∀ n, 0 < n → n < 2047 → lfsrAfter n 0x3FF ≠ 0x3FF) ∧
  (∀ j, j < 11 → (lfsrAfter j 0x3FF).getLsbD 0 = decide (j < 10)) ∧
  (List.range 80).map (fun n => lfsrBit (lfsrAfter n 0x3FF)) =
    (List.range 80).map (fun n => Nat.testBit
      0b01100110010110100101110001011100101000110100010100100000100001010100000010001010 (79 - n)) ∧
  lfsrAfter 32 0x3FF = 0x1D1 ∧ lfsrAfter 80 0x3FF = 0x288

/-- SCR is an involution (R105): a second SCR of the same length, from the first one's output to any legal place,
gives back the first one's input. -/
def Obligations.ScrTwiceRestores : Prop :=
  ∀ s t u : State, legal s.cfg s.srcA s.lenN → legal s.cfg s.dstA s.lenN →
    (s.lat.dst = s.lat.src ∨ ¬overlap s.srcA s.lenN s.dstA s.lenN) →
    exec .scr s = .next t →
    u.mem = t.mem → u.cfg = t.cfg → u.lat.src = s.lat.dst → u.lat.len = s.lat.len →
    legal u.cfg u.dstA u.lenN → (u.lat.dst = u.lat.src ∨ ¬overlap u.srcA u.lenN u.dstA u.lenN) →
    ∃ v, exec .scr u = .next v ∧
      ∀ i, i < s.lenN → v.mem.read (u.dstA + i) = s.mem.read (s.srcA + i)

/-- The encoder register (R106, R114): its bits are the current input bit and the six before it, cyclically, with
the newest at bit 6 or at bit 0 by CONV_REG_ORDER; and with the newest at bit 6 the shift form, seeded from
the tail of the block, computes the same register. -/
def Obligations.EncoderRegister : Prop :=
  ∀ (u : List Bool) (i : Nat), 6 ≤ u.length → i < u.length →
    (∀ k, k ≤ 6 →
      (encReg .msbNewest u i).getLsbD (6 - k) = u.getD ((i + u.length - k) % u.length) false ∧
      (encReg .lsbNewest u i).getLsbD k = u.getD ((i + u.length - k) % u.length) false) ∧
    (i + 1 < u.length →
      encReg .msbNewest u (i + 1) =
        (encReg .msbNewest u i >>> 1) ||| ((BitVec.ofBool (u.getD (i + 1) false)).setWidth 7 <<< 6)) ∧
    encReg .msbNewest u 0 =
      (((encReg .msbNewest u (u.length - 1)) >>> 1) ||| ((BitVec.ofBool (u.getD 0 false)).setWidth 7 <<< 6))

/-- The encoder is linear (R113): the encoding of the cellwise XOR of two blocks of one length is the cellwise
XOR of their encodings, at either rate and under either register order. -/
def Obligations.EncoderIsLinear : Prop :=
  ∀ (order : RegOrder) (u v : List Bool), u.length = v.length →
    encode7 order taps25 (List.zipWith xor u v) =
      List.zipWith xor (encode7 order taps25 u) (encode7 order taps25 v) ∧
    encode7 order taps12 (List.zipWith xor u v) =
      List.zipWith xor (encode7 order taps12 u) (encode7 order taps12 v)

/-! ## Interleavers -/

/-- ILVP1 with enough input and legal operands (R142, R145): input cell i goes to matrix cell cell1(i), row-major
with 720 columns; exactly N1 items are consumed; no other cell changes. -/
def Obligations.Ilvp1Scatters : Prop :=
  ∀ s : State, s.cfg.valid = true → 365440 ≤ s.lenN → legal s.cfg s.srcA 365440 →
    legal s.cfg s.dstA 368640 → ¬overlap s.srcA 365440 s.dstA 368640 →
    ∃ t, exec .ilvp1 s = .next t ∧
      t = { s with phase := .idle, csr := doneCsr s.csr 365440 365440, mem := t.mem } ∧
      (∀ i, i < 365440 →
        t.mem.read (s.dstA + ((cell1 s.cfg i).1 * 720 + (cell1 s.cfg i).2)) = s.mem.read (s.srcA + i)) ∧
      (∀ a, (∀ i, i < 365440 → a ≠ s.dstA + ((cell1 s.cfg i).1 * 720 + (cell1 s.cfg i).2)) →
        t.mem.read a = s.mem.read a)

/-- ILVPIDS with enough input and legal operands (R143, R146). -/
def Obligations.IlvpidsScatters : Prop :=
  ∀ s : State, s.cfg.valid = true → 3200 ≤ s.lenN → legal s.cfg s.srcA 3200 →
    legal s.cfg s.dstA 368640 → ¬overlap s.srcA 3200 s.dstA 368640 →
    ∃ t, exec .ilvpids s = .next t ∧
      t = { s with phase := .idle, csr := doneCsr s.csr 3200 3200, mem := t.mem } ∧
      (∀ i, i < 3200 →
        t.mem.read (s.dstA + ((cell2 s.cfg i).1 * 720 + (cell2 s.cfg i).2)) = s.mem.read (s.srcA + i)) ∧
      (∀ a, (∀ i, i < 3200 → a ≠ s.dstA + ((cell2 s.cfg i).1 * 720 + (cell2 s.cfg i).2)) →
        t.mem.read a = s.mem.read a)

/-- The two passes (R142, R143, R147): the formulas of cell1 and cell2; for any permutation V_TABLE each is
injective, their images are disjoint, and together they cover the 512 by 720 matrix. -/
def Obligations.PassesFillMatrix : Prop :=
  ∀ c : Cfg, c.interleaverOk = true →
    (∀ i, cell1 c i =
      ((i / 20 + c.vTable.getD (i % 20) 0 * 7) % 16 * 32 + i / 320 * 11 % 32,
       c.vTable.getD (i % 20) 0 * 36 + (i / 320 * 11 + i / 320 / 288) % 36)) ∧
    (∀ i, cell2 c i =
      (i / 200 * 32 + (i / 20 % 10 + 1142) * 11 % 32,
       c.vTable.getD (i % 20) 0 * 36 + ((i / 20 % 10 + 1142) * 11 + (i / 20 % 10 + 1142) / 288) % 36)) ∧
    (∀ i j, i < 365440 → j < 365440 → cell1 c i = cell1 c j → i = j) ∧
    (∀ i j, i < 3200 → j < 3200 → cell2 c i = cell2 c j → i = j) ∧
    (∀ i j, i < 365440 → j < 3200 → cell1 c i ≠ cell2 c j) ∧
    (∀ row col, row < 512 → col < 720 →
      (∃ i, i < 365440 ∧ cell1 c i = (row, col)) ∨ (∃ i, i < 3200 ∧ cell2 c i = (row, col)))

/-- ILVIV k with enough input and legal operands (R152 to R154): the output is the previous half, in the order of
R; input i goes to the cell W(h, i) of the current half, which is the base of its partition, plus h·(N/2)/J, plus the
number of earlier inputs of the same partition; the cells that are no W(h, i) keep their bytes; the halves change places;
no other instance changes. -/
def Obligations.IlvivDelays : Prop :=
  ∀ (s : State) (k : Nat), s.cfg.valid = true → s.shapeOk → k < s.cfg.niv →
    (s.cfg.ivAt k).half ≤ s.lenN → legal s.cfg s.srcA (s.cfg.ivAt k).half →
    legal s.cfg s.dstA (s.cfg.ivAt k).half →
    ¬overlap s.srcA (s.cfg.ivAt k).half s.dstA (s.cfg.ivAt k).half →
    ∃ t, exec (.ilviv k) s = .next t ∧
      t = { s with
        phase := .idle
        csr := doneCsr s.csr (s.cfg.ivAt k).half (s.cfg.ivAt k).half
        mem := t.mem
        iv := t.iv } ∧
      (∀ j, j < (s.cfg.ivAt k).half → t.mem.read (s.dstA + j) =
        (s.ivAt k).buf.getD ((s.cfg.ivAt k).readCell (s.ivAt k).half j) 0) ∧
      (∀ a, a < s.dstA ∨ s.dstA + (s.cfg.ivAt k).half ≤ a → t.mem.read a = s.mem.read a) ∧
      (∀ i, i < (s.cfg.ivAt k).half →
        (t.ivAt k).buf.getD (ivWrite (s.cfg.ivAt k) (s.ivAt k).half i) 0 = s.mem.read (s.srcA + i)) ∧
      (∀ a, (∀ i, i < (s.cfg.ivAt k).half → a ≠ ivWrite (s.cfg.ivAt k) (s.ivAt k).half i) →
        (t.ivAt k).buf.getD a 0 = (s.ivAt k).buf.getD a 0) ∧
      (t.ivAt k).half = !(s.ivAt k).half ∧ t.iv.length = s.iv.length ∧
      (∀ j, j ≠ k → t.ivAt j = s.ivAt j)

/-- The lag of type IV (R155): the output of a call is a fixed permutation of the input of the call before it,
and does not depend on its own input. The permutation is given by CFG and the half alone. -/
def Obligations.IlvivLag : Prop :=
  ∀ (c : Cfg) (k : Nat) (h : Bool), c.valid = true → k < c.niv →
    ∃ σ : Nat → Nat,
      (∀ j, j < (c.ivAt k).half → σ j < (c.ivAt k).half) ∧
      (∀ i j, i < (c.ivAt k).half → j < (c.ivAt k).half → σ i = σ j → i = j) ∧
      ∀ s t u v : State, s.cfg = c → s.shapeOk → (s.ivAt k).half = h →
        (c.ivAt k).half ≤ s.lenN → legal c s.srcA (c.ivAt k).half → legal c s.dstA (c.ivAt k).half →
        ¬overlap s.srcA (c.ivAt k).half s.dstA (c.ivAt k).half →
        exec (.ilviv k) s = .next t →
        u.cfg = c → u.ivAt k = t.ivAt k →
        (c.ivAt k).half ≤ u.lenN → legal c u.srcA (c.ivAt k).half → legal c u.dstA (c.ivAt k).half →
        ¬overlap u.srcA (c.ivAt k).half u.dstA (c.ivAt k).half →
        exec (.ilviv k) u = .next v →
        ∀ j, j < (c.ivAt k).half → v.mem.read (u.dstA + j) = s.mem.read (s.srcA + σ j)

/-- The stalls and errors of the interleaver commands, in their order (R145, R146, R154, R273). -/
def Obligations.InterleaverStops : Prop :=
  ∀ s : State,
    (∀ k, s.cfg.niv ≤ k → exec (.ilviv k) s = .next (errorState s .notConfigured (toWord k))) ∧
    (∀ i n m, (i = .ilvp1 ∧ n = 365440 ∧ m = 368640) ∨ (i = .ilvpids ∧ n = 3200 ∧ m = 368640) ∨
        (∃ k, k < s.cfg.niv ∧ i = .ilviv k ∧ n = (s.cfg.ivAt k).half ∧ m = (s.cfg.ivAt k).half) →
      (s.lenN < n → exec i s = .next (stallState s)) ∧
      (n ≤ s.lenN → ¬legal s.cfg s.srcA n → exec i s = .next (errorState s .addrRange s.lat.src)) ∧
      (n ≤ s.lenN → legal s.cfg s.srcA n → ¬legal s.cfg s.dstA m →
        exec i s = .next (errorState s .addrRange s.lat.dst)) ∧
      (n ≤ s.lenN → legal s.cfg s.srcA n → legal s.cfg s.dstA m → overlap s.srcA n s.dstA m →
        exec i s = .next (errorState s .overlap s.lat.dst)))

/-! ## L1 symbol mapper -/

/-- L1MAP on legal operands with bit cells (R170 to R178): each reference subcarrier carries its sequence, each
data subcarrier its packed cell pair of the matrix row, each secondary entry its packed pair, and every other
subcarrier the blank 4; nothing outside the frame changes. A pair (a, b) packs as 2a + b under HI_FIRST and as a + 2b under
LO_FIRST. -/
def Obligations.L1mapAssemblesFrame : Prop :=
  (∀ a b : Byte, packSymbol .hiFirst a b = 2 * a + b ∧ packSymbol .loFirst a b = a + 2 * b) ∧
  ∀ s : State, s.cfg.valid = true → legal s.cfg s.srcA 368640 → legal s.cfg s.dstA (512 * s.cfg.fftSize) →
    legal s.cfg s.auxA s.cfg.secBytes → ¬overlap s.dstA (512 * s.cfg.fftSize) s.srcA 368640 →
    ¬overlap s.dstA (512 * s.cfg.fftSize) s.auxA s.cfg.secBytes →
    (∀ i, i < 368640 → isBit (s.mem.read (s.srcA + i)) = true) →
    (∀ e ∈ s.cfg.secMap, isBit (s.mem.read (s.auxA + e.off)) = true ∧
      isBit (s.mem.read (s.auxA + e.off + 1)) = true) →
    ∃ t, exec .l1map s = .next t ∧
      t = { s with
        phase := .idle
        csr := doneCsr s.csr (368640 + s.cfg.secBytes) (512 * s.cfg.fftSize)
        mem := t.mem } ∧
      (∀ y, y < 512 →
        (∀ e ∈ s.cfg.refSc, t.mem.read (s.dstA + (y * s.cfg.fftSize + e.sc)) =
          BitVec.ofNat 8 (s.cfg.refSymAt e.scid y)) ∧
        (∀ q m, q < 20 → m < 18 → t.mem.read (s.dstA + (y * s.cfg.fftSize + s.cfg.dataScAt q m)) =
          packSymbol s.cfg.symPack (s.mem.read (s.srcA + (y * 720 + q * 36 + 2 * m)))
            (s.mem.read (s.srcA + (y * 720 + q * 36 + 2 * m + 1)))) ∧
        (∀ c, c < s.cfg.fftSize → (∀ e ∈ s.cfg.refSc, e.sc ≠ c) → c ∉ s.cfg.dataSc →
          (∀ e ∈ s.cfg.secMap, ¬(e.sym = y ∧ e.sc = c)) →
          t.mem.read (s.dstA + (y * s.cfg.fftSize + c)) = 4)) ∧
      (∀ e ∈ s.cfg.secMap, t.mem.read (s.dstA + (e.sym * s.cfg.fftSize + e.sc)) =
        packSymbol s.cfg.symPack (s.mem.read (s.auxA + e.off)) (s.mem.read (s.auxA + e.off + 1))) ∧
      (∀ a, a < s.dstA ∨ s.dstA + 512 * s.cfg.fftSize ≤ a → t.mem.read a = s.mem.read a)

/-- The errors of L1MAP, in their order (R178, R273); BAD_BIT names the lowest address among the cells that are
read into symbols. -/
def Obligations.L1mapErrors : Prop :=
  ∀ s : State,
    (¬legal s.cfg s.srcA 368640 → exec .l1map s = .next (errorState s .addrRange s.lat.src)) ∧
    (legal s.cfg s.srcA 368640 → ¬legal s.cfg s.dstA (512 * s.cfg.fftSize) →
      exec .l1map s = .next (errorState s .addrRange s.lat.dst)) ∧
    (legal s.cfg s.srcA 368640 → legal s.cfg s.dstA (512 * s.cfg.fftSize) →
      ¬legal s.cfg s.auxA s.cfg.secBytes → exec .l1map s = .next (errorState s .addrRange s.lat.aux)) ∧
    (legal s.cfg s.srcA 368640 → legal s.cfg s.dstA (512 * s.cfg.fftSize) →
      legal s.cfg s.auxA s.cfg.secBytes →
      (overlap s.dstA (512 * s.cfg.fftSize) s.srcA 368640 ∨
        overlap s.dstA (512 * s.cfg.fftSize) s.auxA s.cfg.secBytes) →
      exec .l1map s = .next (errorState s .overlap s.lat.dst)) ∧
    (legal s.cfg s.srcA 368640 → legal s.cfg s.dstA (512 * s.cfg.fftSize) →
      legal s.cfg s.auxA s.cfg.secBytes → ¬overlap s.dstA (512 * s.cfg.fftSize) s.srcA 368640 →
      ¬overlap s.dstA (512 * s.cfg.fftSize) s.auxA s.cfg.secBytes →
      ∀ a, isBit (s.mem.read a) = false →
        ((∃ i, i < 368640 ∧ a = s.srcA + i) ∨
          (∃ e ∈ s.cfg.secMap, a = s.auxA + e.off ∨ a = s.auxA + e.off + 1)) →
        (∀ i, i < 368640 → isBit (s.mem.read (s.srcA + i)) = false → a ≤ s.srcA + i) →
        (∀ e ∈ s.cfg.secMap, (isBit (s.mem.read (s.auxA + e.off)) = false → a ≤ s.auxA + e.off) ∧
          (isBit (s.mem.read (s.auxA + e.off + 1)) = false → a ≤ s.auxA + e.off + 1)) →
        exec .l1map s = .next (errorState s .badBit (toWord a)))

/-! ## Reed-Solomon -/

/-- RSENC on legal operands (R192, R193): the first 8 bytes of the region become the coefficients of d(x) mod
g(x), INCNT counts the data bytes used, and no other byte changes; a region under 8 bytes is BAD_LEN and an
illegal one ADDR_RANGE. -/
def Obligations.RsencWritesParity : Prop :=
  ∀ s : State,
    (s.lenN < 8 → exec .rsenc s = .next (errorState s .badLen s.lat.len)) ∧
    (8 ≤ s.lenN → ¬legal s.cfg s.srcA s.lenN → exec .rsenc s = .next (errorState s .addrRange s.lat.src)) ∧
    (8 ≤ s.lenN → legal s.cfg s.srcA s.lenN →
      ∃ t, exec .rsenc s = .next t ∧
        t = { s with phase := .idle, csr := doneCsr s.csr (min s.lenN 255 - 8) 8, mem := t.mem } ∧
        (∀ i, i < 8 → t.mem.read (s.srcA + i) =
          (rsRem (rsGen s.cfg) (List.replicate 8 0 ++
            (s.mem.readBlock (s.srcA + 8) (min s.lenN 255 - 8)))).getD i 0) ∧
        (∀ a, a < s.srcA ∨ s.srcA + 8 ≤ a → t.mem.read a = s.mem.read a))

/-- After RSENC the first 255 bytes of the region are a codeword (R190, R191, R193): as a polynomial with byte i
the coefficient of x^i, it is 0 at α^((RS_FCR + j)·RS_PRIM) for j = 0..7, whatever the roots are. A second
RSENC writes the same bytes (R194). The field is that of R190: the product is additive in each argument, has 0 and 1 as
zero and one, and by α = 2 it is the shift reduced by 0x11d; the powers of α are repeated products, whatever the exponent
(log entry 15); a polynomial's value is by Horner's rule. The generator is the monic polynomial of degree 8 that is 0 at
those eight powers (R191). -/
def Obligations.RsencMakesCodeword : Prop :=
  (∀ a b c : Byte,
    gfMul (a ^^^ b) c = gfMul a c ^^^ gfMul b c ∧ gfMul a (b ^^^ c) = gfMul a b ^^^ gfMul a c ∧
    gfMul a 0 = 0 ∧ gfMul a 1 = a ∧ gfMul a b = gfMul b a ∧ gfMul (gfMul a b) c = gfMul a (gfMul b c) ∧
    gfMul 2 a = (a <<< 1) ^^^ (if a.getLsbD 7 then 0x1D else 0)) ∧
  alphaPow 0 = 1 ∧ (∀ n, alphaPow (n + 1) = gfMul 2 (alphaPow n)) ∧
  (∀ x : Byte, polyEval [] x = 0 ∧ ∀ c cs, polyEval (c :: cs) x = c ^^^ gfMul x (polyEval cs x)) ∧
  (∀ c : Cfg, (rsGen c).length = 9 ∧ (rsGen c).getD 8 0 = 1 ∧
    ∀ j, j < 8 → polyEval (rsGen c) (alphaPow ((c.rsFcr + j) * c.rsPrim)) = 0) ∧
  ∀ s t : State, 8 ≤ s.lenN → legal s.cfg s.srcA s.lenN → exec .rsenc s = .next t →
    (∀ j, j < 8 → polyEval (t.mem.readBlock s.srcA (min s.lenN 255))
      (alphaPow ((s.cfg.rsFcr + j) * s.cfg.rsPrim)) = 0) ∧
    ∃ u, exec .rsenc t = .next u ∧ ∀ a, u.mem.read a = t.mem.read a

/-! ## L2 input commands -/

/-- AUDQ p on a sub-frame with the right length field and room for it (R202): the payload after the 7-byte header
is appended to the program's queue; nothing else changes. -/
def Obligations.AudqQueuesPayload : Prop :=
  ∀ (s : State) (p : Nat), s.shapeOk → p < s.cfg.nprog → 7 ≤ s.lenN →
    s.lenN - 7 + 1 + s.cfg.locBytes 1 ≤ s.cfg.area p → legal s.cfg s.srcA s.lenN →
    (s.mem.read (s.srcA + 3)).toNat % 4 * 2048 + (s.mem.read (s.srcA + 4)).toNat * 8 +
      (s.mem.read (s.srcA + 5)).toNat / 32 = s.lenN →
    (s.progAt p).audq.length < s.cfg.audqDepth →
    ∃ t, exec (.audq p) s = .next t ∧
      t = { s with
        phase := .idle
        csr := doneCsr s.csr s.lenN 0
        l2 := { s.l2 with progs := t.l2.progs } } ∧
      t.l2.progs.length = s.l2.progs.length ∧ (∀ q, q ≠ p → t.progAt q = s.progAt q) ∧
      t.progAt p = { s.progAt p with
        audq := (s.progAt p).audq ++ [(List.range (s.lenN - 7)).map (fun i => s.mem.read (s.srcA + (7 + i)))] }

/-- PSDSET p with the right length and an empty slot (R203): the block waits in the slot of the program. -/
def Obligations.PsdsetFillsSlot : Prop :=
  ∀ (s : State) (p : Nat), s.shapeOk → p < s.cfg.nprog → s.lenN = s.cfg.psdBytes →
    legal s.cfg s.srcA s.cfg.psdBytes → (s.progAt p).psd = none →
    ∃ t, exec (.psdset p) s = .next t ∧
      t = { s with
        phase := .idle
        csr := doneCsr s.csr s.cfg.psdBytes 0
        l2 := { s.l2 with progs := t.l2.progs } } ∧
      t.l2.progs.length = s.l2.progs.length ∧ (∀ q, q ≠ p → t.progAt q = s.progAt q) ∧
      t.progAt p = { s.progAt p with
        psd := some ((List.range s.cfg.psdBytes).map (fun i => s.mem.read (s.srcA + i))) }

/-- AASQ port on one flag-delimited HDLC frame that fits (R204): the port is in PORTS afterwards and the bytes
are appended to its queue; the other queues and everything else are unchanged. -/
def Obligations.AasqQueuesFrame : Prop :=
  ∀ (s : State) (port : Port), 2 ≤ s.lenN → legal s.cfg s.srcA s.lenN →
    s.mem.read s.srcA = 0x7e → s.mem.read (s.srcA + (s.lenN - 1)) = 0x7e →
    (∀ i, 0 < i → i < s.lenN - 1 → s.mem.read (s.srcA + i) ≠ 0x7e) →
    (queueOf s.l2.aasq port).length + s.lenN ≤ s.cfg.aasQbytes →
    ∃ t, exec (.aasq port) s = .next t ∧
      t = { s with
        phase := .idle
        csr := doneCsr s.csr s.lenN 0
        l2 := { s.l2 with aasq := t.l2.aasq } } ∧
      (∀ q, q ∈ t.l2.aasq.map Prod.fst ↔ q = port ∨ q ∈ s.l2.aasq.map Prod.fst) ∧
      queueOf t.l2.aasq port = queueOf s.l2.aasq port ++ s.mem.readBlock s.srcA s.lenN ∧
      (∀ q, q ≠ port → queueOf t.l2.aasq q = queueOf s.l2.aasq q)

/-- The errors of AUDQ, PSDSET and AASQ, in their order (R202 to R204, R273). -/
def Obligations.L2InputErrors : Prop :=
  ∀ s : State,
    (∀ p, s.cfg.nprog ≤ p → exec (.audq p) s = .next (errorState s .badProg (toWord p)) ∧
      exec (.psdset p) s = .next (errorState s .badProg (toWord p))) ∧
    (∀ p, p < s.cfg.nprog → (s.lenN < 7 ∨ s.cfg.area p < s.lenN - 7 + 1 + s.cfg.locBytes 1) →
      exec (.audq p) s = .next (errorState s .badLen s.lat.len)) ∧
    (∀ p, p < s.cfg.nprog → 7 ≤ s.lenN → s.lenN - 7 + 1 + s.cfg.locBytes 1 ≤ s.cfg.area p →
      (¬legal s.cfg s.srcA s.lenN → exec (.audq p) s = .next (errorState s .addrRange s.lat.src)) ∧
      (legal s.cfg s.srcA s.lenN → ∀ f, f =
          (s.mem.read (s.srcA + 3)).toNat % 4 * 2048 + (s.mem.read (s.srcA + 4)).toNat * 8 +
            (s.mem.read (s.srcA + 5)).toNat / 32 →
        (f ≠ s.lenN → exec (.audq p) s = .next (errorState s .badAdts (toWord f))) ∧
        (f = s.lenN → (s.progAt p).audq.length = s.cfg.audqDepth →
          exec (.audq p) s = .next (errorState s .queueFull (toWord p))))) ∧
    (∀ p, p < s.cfg.nprog →
      (s.lenN ≠ s.cfg.psdBytes → exec (.psdset p) s = .next (errorState s .badLen s.lat.len)) ∧
      (s.lenN = s.cfg.psdBytes → ¬legal s.cfg s.srcA s.cfg.psdBytes →
        exec (.psdset p) s = .next (errorState s .addrRange s.lat.src)) ∧
      (s.lenN = s.cfg.psdBytes → legal s.cfg s.srcA s.cfg.psdBytes → (s.progAt p).psd ≠ none →
        exec (.psdset p) s = .next (errorState s .queueFull (toWord p)))) ∧
    (∀ q, (s.lenN < 2 → exec (.aasq q) s = .next (errorState s .badLen s.lat.len)) ∧
      (2 ≤ s.lenN → ¬legal s.cfg s.srcA s.lenN →
        exec (.aasq q) s = .next (errorState s .addrRange s.lat.src)) ∧
      (2 ≤ s.lenN → legal s.cfg s.srcA s.lenN →
        (∀ k, k < s.lenN →
          (((k = 0 ∨ k = s.lenN - 1) ∧ s.mem.read (s.srcA + k) ≠ 0x7e) ∨
            (0 < k ∧ k < s.lenN - 1 ∧ s.mem.read (s.srcA + k) = 0x7e)) →
          (∀ j, j < k → ((j = 0 ∨ j = s.lenN - 1) → s.mem.read (s.srcA + j) = 0x7e) ∧
            (0 < j → j < s.lenN - 1 → s.mem.read (s.srcA + j) ≠ 0x7e)) →
          exec (.aasq q) s = .next (errorState s .badHdlc (toWord (s.srcA + k)))) ∧
        (s.mem.read s.srcA = 0x7e → s.mem.read (s.srcA + (s.lenN - 1)) = 0x7e →
          (∀ i, 0 < i → i < s.lenN - 1 → s.mem.read (s.srcA + i) ≠ 0x7e) →
          s.cfg.aasQbytes < (queueOf s.l2.aasq q).length + s.lenN →
          exec (.aasq q) s = .next (errorState s .queueFull (q.setWidth 32)))))

/-! ## L2 frame -/

/-- L2FRAME when every program has its PSD block and packs without a stall, on a legal output (R225): each
program takes over its packed SEQ, PART and queue and its PSD slot empties, FRAMECNT goes up by one, WARN and
WARNMASK record the programs that overran, INCNT counts the sub-frames taken, the AAS queues, the cursor, the
positions, the event queue and EVOVF are those after the data region, and the FRAME_BITS cells at DST are the
header-spread bits of the regions and the data region. -/
def Obligations.L2frameBuildsFrame : Prop :=
  ∀ s : State, s.shapeOk → legal s.cfg s.dstA s.cfg.frameBits →
    ∀ (psd : Nat → List Byte) (a : Nat → PackState),
    (∀ p, p < s.cfg.nprog → (s.progAt p).psd = some (psd p) ∧
      packAudio s.cfg s.l2.frameCnt p (s.progAt p) = some (a p)) →
    ∃ t, exec .l2frame s = .next t ∧
      t = { s with
        phase := .idle
        csr := { doneCsr s.csr
            ((List.range s.cfg.nprog).map (fun p => (s.progAt p).audq.length - (a p).queue.length)).sum
            s.cfg.frameBits with
          flags := { s.csr.flags with
            done := true
            warn := t.csr.flags.warn
            evovf := t.csr.flags.evovf }
          warnmask := t.csr.warnmask }
        mem := t.mem
        l2 := t.l2
        evq := t.evq } ∧
      t.l2.frameCnt = s.l2.frameCnt + 1 ∧ t.l2.progs.length = s.cfg.nprog ∧
      t.fds = (dataRegion Config.frameFns s.cfg s.l2.frameCnt s.l2.cccPos s.fds).2 ∧
      t.l2.cccPos = nextCccPos s.cfg s.l2.cccPos ∧
      (∀ p, p < s.cfg.nprog → t.progAt p = ⟨(a p).seq, (a p).part, (a p).queue, none⟩ ∧
        t.csr.warnmask.getLsbD p =
          (decide (p < 32) && (s.csr.warnmask.getLsbD p ||
            decide ((a p).seq + 8 < (s.l2.frameCnt + 1) * s.cfg.targetNop)))) ∧
      (t.csr.flags.warn = true ↔ s.csr.flags.warn = true ∨
        ∃ p, p < s.cfg.nprog ∧ (a p).seq + 8 < (s.l2.frameCnt + 1) * s.cfg.targetNop) ∧
      (∀ x, x < s.cfg.frameBits → t.mem.read (s.dstA + x) =
        bitCell ((headerSpread s.cfg
          ((List.range s.cfg.nprog).flatMap (fun p =>
            regionBytes Config.frameFns s.cfg s.l2.frameCnt p (s.progAt p).seq (a p) (psd p)) ++
          (dataRegion Config.frameFns s.cfg s.l2.frameCnt s.l2.cccPos s.fds).1)).getD x false)) ∧
      (∀ x, x < s.dstA ∨ s.dstA + s.cfg.frameBits ≤ x → t.mem.read x = s.mem.read x)

/-- L2FRAME stops (R213, R225): it stalls if a program has no PSD block or its packing runs out of sub-frames
before the target; else an output range that is not legal is ADDR_RANGE. -/
def Obligations.L2frameStops : Prop :=
  ∀ s : State, s.shapeOk →
    ((∃ p, p < s.cfg.nprog ∧
        ((s.progAt p).psd = none ∨ packAudio s.cfg s.l2.frameCnt p (s.progAt p) = none)) →
      exec .l2frame s = .next (stallState s)) ∧
    ((∀ p, p < s.cfg.nprog →
        (s.progAt p).psd ≠ none ∧ packAudio s.cfg s.l2.frameCnt p (s.progAt p) ≠ none) →
      ¬legal s.cfg s.dstA s.cfg.frameBits →
      exec .l2frame s = .next (errorState s .addrRange s.lat.dst))

/-- The region of a program (R201, R206, R212, R215): parity, control word, locators, header extension, audio,
padding and PSD, in that order, PROG_BYTES[p] bytes in all, with the parity that of the region itself. LOC_BYTES(n) is
(n·LC_BITS + 7)/8 (R206), and A(p) is PROG_BYTES[p] - 17 - PSD_BYTES (R208). -/
def Obligations.RegionLayout : Prop :=
  (∀ (c : Cfg) (n : Nat), c.locBytes n = (n * c.lcBits + 7) / 8) ∧
  (∀ (c : Cfg) (p : Nat), c.progBytesAt p = c.progBytes.getD p 0 ∧
    c.area p = c.progBytes.getD p 0 - 17 - c.psdBytes) ∧
  ∀ (f : FrameFns) (c : Cfg) (n p : Nat) (v : ProgState) (a : PackState) (psd : List Byte),
    c.valid = true → p < c.nprog → v.budgetOk c n p → psd.length = c.psdBytes →
    packAudio c n p v = some a →
    (regionBytes f c n p v.seq a psd).length = c.progBytesAt p ∧
    ∃ parity pad,
      regionBytes f c n p v.seq a psd =
        parity ++ (List.range 6).map (f.cw p v.seq a.ends.length n) ++
          (List.range (c.locBytes a.ends.length)).map (f.locEnc c.lcBits a.ends) ++
          (List.range 3).map (f.hdrExt p n) ++ a.aud ++ pad ++ psd ∧
      parity.length = 8 ∧ parity = rsParity c (regionBytes f c n p v.seq a psd) ∧
      (∀ b ∈ pad, b = c.padByte) ∧
      a.aud.length + pad.length + c.locBytes a.ends.length = c.area p

/-- Packing (R205, R208 to R211, R213, R226). It starts with the rest and the CRC of a split sub-frame, or with nothing,
and goes over the queue. Below the target, a head that fits with its CRC byte and one more locator is appended; one that
does not fit is split at the bytes left, or left in the queue where no byte is left, and packing ends. At the target
packing ends. It stalls exactly when the queue empties below the target. The CRC is the reflected CRC-8 of R205. For a program
within its budget: a split sub-frame is finished first, with the CRC of its whole payload, ending at the first
locator; SEQ never goes down nor past the target; a new split leaves SEQ below the target; and locators and audio fit the
region. -/
def Obligations.PackingFinishesCarryover : Prop :=
  (∀ (c : Cfg) (x : Byte) (bs : List Byte),
    crcUpd c x bs = bs.foldl (fun y b =>
      (fun z : Byte => (z >>> 1) ^^^ (if z.getLsbD 0 then c.crcRpoly else 0))^[8] (y ^^^ b)) x ∧
    crcFin c x = x ^^^ c.crcXorout) ∧
  (∀ (c : Cfg) (n p : Nat) (v : ProgState),
    (v.part = none → packAudio c n p v =
      packGreedy c (c.area p) ((n + 1) * c.targetNop) v.audq ⟨[], [], v.seq, none, v.audq⟩) ∧
    (∀ q, v.part = some q → packAudio c n p v =
      packGreedy c (c.area p) ((n + 1) * c.targetNop) v.audq
        ⟨q.sf.drop q.k ++ [crcFin c (crcUpd c q.crc (q.sf.drop q.k))], [(q.sf.drop q.k).length], v.seq + 1, none,
          v.audq⟩)) ∧
  (∀ (c : Cfg) (area target : Nat) (a : PackState) (sf : List Byte) (rest : List (List Byte)),
    (a.seq < target → packGreedy c area target [] a = none) ∧
    (target ≤ a.seq → packGreedy c area target [] a = some { a with queue := [] } ∧
      packGreedy c area target (sf :: rest) a = some { a with queue := sf :: rest }) ∧
    (a.seq < target → a.aud.length + sf.length + 1 + c.locBytes (a.ends.length + 1) ≤ area →
      packGreedy c area target (sf :: rest) a = packGreedy c area target rest { a with
        aud := a.aud ++ sf ++ [crcFin c (crcUpd c c.crcInit sf)]
        ends := a.ends ++ [a.aud.length + sf.length]
        seq := a.seq + 1 }) ∧
    (a.seq < target → area < a.aud.length + sf.length + 1 + c.locBytes (a.ends.length + 1) →
      ∀ room, room = area - a.aud.length - c.locBytes a.ends.length →
      (room = 0 → packGreedy c area target (sf :: rest) a = some { a with queue := sf :: rest }) ∧
      (0 < room → packGreedy c area target (sf :: rest) a = some { a with
        aud := a.aud ++ sf.take (min room sf.length)
        part := some ⟨sf, min room sf.length, crcUpd c c.crcInit (sf.take (min room sf.length))⟩
        queue := rest }))) ∧
  (∀ (c : Cfg) (area target : Nat) (queue : List (List Byte)) (a : PackState),
    packGreedy c area target queue a = none ↔
      a.seq + queue.length < target ∧
      ∀ m, m < queue.length →
        a.aud.length + ((queue.take (m + 1)).map (fun sf => sf.length + 1)).sum +
          c.locBytes (a.ends.length + m + 1) ≤ area) ∧
  (∀ (c : Cfg) (n p : Nat) (v : ProgState) (a : PackState), v.budgetOk c n p → packAudio c n p v = some a →
    (∀ q, v.part = some q →
      (∃ rest, a.aud = q.sf.drop q.k ++ crcFin c (crcUpd c c.crcInit q.sf) :: rest) ∧
      a.ends.head? = some (q.sf.length - q.k) ∧ v.seq + 1 ≤ a.seq) ∧
    v.seq ≤ a.seq ∧ a.seq ≤ max v.seq ((n + 1) * c.targetNop) ∧
    (a.part ≠ none → a.seq < (n + 1) * c.targetNop) ∧
    a.aud.length + c.locBytes a.ends.length ≤ c.area p)

/-- The data region (R216 to R218): the sync byte, the CCC slice, and the FDS stream. The stream starts from the working
state z. At the first four positions of each period its byte is the block boundary marker, whatever the queues hold, and only
FDSPOS moves; elsewhere byte and next state are those of fds_byte() on the running state, with FDSPOS one higher; and the
state after the last byte is the one that remains. So its byte is FDS_IDLE elsewhere while every queue is empty (also inside a PDU, where R220 pops a head: there FDS_IDLE is the model's choice, log entry 16, DEDUCED, of
a case that cannot be reached). FDSPOS and CCCPOS move on by the bytes sent. Without a data region nothing moves. -/
def Obligations.DataRegionLayout : Prop :=
  ∀ (f : FrameFns) (c : Cfg) (n pos : Nat) (z : FdsState), c.l2Ok = true →
    (c.dataBytes = 0 → dataRegion f c n pos z = ([], z) ∧ nextCccPos c pos = pos) ∧
    (0 < c.dataBytes → ∀ d, d = dataRegion f c n pos z →
      d.1.length = c.dataBytes ∧ d.1.getD 0 0 = f.sync n ∧
      (∀ i, i < c.cccWidth → d.1.getD (1 + i) 0 = c.cccMsg.getD ((pos + i) % c.cccMsg.length) 0) ∧
      (∀ i, i < c.dataBytes - 1 - c.cccWidth →
        ((z.fdsPos + i) % c.bbmPeriod < 4 →
          d.1.getD (1 + c.cccWidth + i) 0 = c.bbmBytes.getD ((z.fdsPos + i) % c.bbmPeriod) 0) ∧
        (4 ≤ (z.fdsPos + i) % c.bbmPeriod → (∀ e ∈ z.aasq, e.2 = []) →
          d.1.getD (1 + c.cccWidth + i) 0 = c.fdsIdle)) ∧
      (∃ zs : Nat → FdsState, zs 0 = z ∧ d.2 = zs (c.dataBytes - 1 - c.cccWidth) ∧
        ∀ i, i < c.dataBytes - 1 - c.cccWidth →
          ((z.fdsPos + i) % c.bbmPeriod < 4 → zs (i + 1) = { zs i with fdsPos := (zs i).fdsPos + 1 }) ∧
          (4 ≤ (z.fdsPos + i) % c.bbmPeriod →
            (d.1.getD (1 + c.cccWidth + i) 0, zs (i + 1)) =
              fdsByte c { zs i with fdsPos := (zs i).fdsPos + 1 })) ∧
      d.2.fdsPos = z.fdsPos + (c.dataBytes - 1 - c.cccWidth) ∧
      nextCccPos c pos = (pos + c.cccWidth) % c.cccMsg.length)

/-- The drain of the AAS queues (R219 to R221). Where R220 pops the head of an empty queue, which cannot be reached, nothing
is said. nextport answers the next port in rising order that has bytes, and
NONE when no port has any. fds_byte takes the head byte of the current queue: inside a PDU of the current
port, outside one of the port found by nextport where the current queue is empty. A flag opens a PDU, or
closes it, moves the cursor on, and is followed by a ready event if the queue is then empty. -/
def Obligations.FdsDrain : Prop :=
  (∀ (l : List (Port × List Byte)) (c : Option Port), l.Pairwise (fun a b => a.1 < b.1) →
    (nextPort l c = none ↔ ∀ q, queueOf l q = []) ∧
    (∀ q, nextPort l c = some q → queueOf l q ≠ [] ∧
      ((∃ d r, c = some d ∧ d < r ∧ queueOf l r ≠ []) →
        ∀ d, c = some d → d < q ∧ ∀ r, d < r → queueOf l r ≠ [] → q ≤ r) ∧
      ((∀ d r, c = some d → d < r → queueOf l r = []) → ∀ r, queueOf l r ≠ [] → q ≤ r))) ∧
  (∀ (c : Cfg) (z : FdsState) (p : Port) (b : Byte) (bs : List Byte),
    z.inPdu = true → z.curPort = some p → queueOf z.aasq p = b :: bs →
    fdsByte c z =
      if b ≠ 0x7e then (b, { z with aasq := setQueue p bs z.aasq })
      else (b, { (if bs = [] then ({ z with aasq := setQueue p bs z.aasq } : FdsState).emit c p
                  else { z with aasq := setQueue p bs z.aasq }) with
        inPdu := false
        curPort := nextPort (setQueue p bs z.aasq) (some p) })) ∧
  (∀ (c : Cfg) (z : FdsState) (p : Port) (b : Byte) (bs : List Byte),
    z.inPdu = false →
    ((z.curPort = some p ∧ queueOf z.aasq p ≠ []) ∨
      ((∀ q, z.curPort = some q → queueOf z.aasq q = []) ∧ nextPort z.aasq z.curPort = some p)) →
    queueOf z.aasq p = b :: bs →
    fdsByte c z = (b, { z with
      aasq := setQueue p bs z.aasq
      curPort := some p
      inPdu := decide (b = 0x7e) })) ∧
  (∀ (c : Cfg) (z : FdsState), z.inPdu = false → nextPort z.aasq z.curPort = none →
    fdsByte c z = (c.fdsIdle, { z with curPort := none }))

/-- Header spreading (R222): the frame has FRAME_BITS bits, 8 for each byte of the regions and the data region and HS_LEN
more (R200); bit P_k is codeword bit k, and the other positions, in
increasing order, carry the payload bits in order: payload bit j is a bit of byte j / 8, the highest first under MSB_FIRST
and the lowest first under LSB_FIRST (R223). -/
def Obligations.HeaderSpreading : Prop :=
  ∀ (c : Cfg) (bytes : List Byte), c.l2Ok = true → bytes.length = c.payloadBytes →
    c.payloadBytes = c.progBytes.sum + c.dataBytes ∧ c.frameBits = 8 * c.payloadBytes + c.hsLen ∧
    (headerSpread c bytes).length = c.frameBits ∧
    (∀ k, k < c.hsLen → (headerSpread c bytes).getD (c.hsNstart + k * (c.hsNoffset + 1)) false =
      c.hsCode.getD k false) ∧
    ((List.range c.frameBits).filter
        (fun x => (List.range c.hsLen).all (fun k => x != c.hsNstart + k * (c.hsNoffset + 1)))).map
      (fun x => (headerSpread c bytes).getD x false) =
      (List.range (8 * bytes.length)).map (fun j => (bytes.getD (j / 8) 0).getLsbD
        (match c.l2BitOrder with
          | .msbFirst => 7 - j % 8
          | .lsbFirst => j % 8))
end

