-- ==== Sys2Proof/Laws/Blocks.lean ====
section
/-! SUPPORT. The lengths and the elements of the blocks that the bit commands and the mapper write. -/

namespace Sys2Proof.Machine

/-! ## Lists made position by position -/

/-- Where a list of consecutive pieces has its length and its elements; `off i` is where piece i starts. -/
theorem length_flatMap_range {α : Type} (f : Nat → List α) (off : Nat → Nat) (h0 : off 0 = 0)
    (hs : ∀ i, off (i + 1) = off i + (f i).length) (n : Nat) : ((List.range n).flatMap f).length = off n := by
  induction n with
  | zero => simp [h0]
  | succ n ih => rw [List.range_succ, List.flatMap_append, List.length_append, ih, hs]; simp

theorem getD_flatMap_range {α : Type} (f : Nat → List α) (off : Nat → Nat) (d : α) (h0 : off 0 = 0)
    (hs : ∀ i, off (i + 1) = off i + (f i).length) (n i j : Nat) (hi : i < n) (hj : j < (f i).length) :
    ((List.range n).flatMap f).getD (off i + j) d = (f i).getD j d := by
  induction n with
  | zero => omega
  | succ n ih =>
    have hl := length_flatMap_range f off h0 hs n
    rw [List.range_succ, List.flatMap_append]
    by_cases h : i = n
    · subst h
      simp [List.getD, List.getElem?_append_right, hl]
    · have hm : off (i + 1) ≤ off n := by
        have : ∀ k, off (i + 1) ≤ off (i + 1 + k) := by
          intro k; induction k with
          | zero => exact Nat.le_refl _
          | succ k ihk => have := hs (i + 1 + k); rw [← Nat.add_assoc]; omega
        have h2 := this (n - (i + 1))
        rwa [show i + 1 + (n - (i + 1)) = n by omega] at h2
      have hlt : off i + j < off n := by have := hs i; omega
      rw [← ih (by omega)]
      simp only [List.getD, List.getElem?_append_left (hl.symm ▸ hlt)]

/-! ## REV8 -/

@[simp] theorem length_rev8Block (t : List Byte) : (rev8Block t).length = t.length := by simp [rev8Block]

theorem getD_rev8Block (t : List Byte) (i : Nat) (h : i < t.length) :
    (rev8Block t).getD i 0 = t.getD (8 * (i / 8) + (7 - i % 8)) 0 := by
  simp [rev8Block, List.getD, h]

/-! ## SCR -/

@[simp] theorem length_scramble (r : BitVec 11) (t : List Byte) : (scramble r t).length = t.length := by
  induction t generalizing r with
  | nil => rfl
  | cons b t ih => simp [scramble, ih]

theorem getD_scramble (r : BitVec 11) (t : List Byte) (i : Nat) (h : i < t.length) :
    (scramble r t).getD i 0 = t.getD i 0 ^^^ bitCell (lfsrBit (lfsrAfter i r)) := by
  induction t generalizing r i with
  | nil => simp at h
  | cons b t ih =>
    cases i with
    | zero => rfl
    | succ i => exact ih _ _ (by simpa using h)

theorem lfsrAfter_add (m n : Nat) (r : BitVec 11) : lfsrAfter (m + n) r = lfsrAfter n (lfsrAfter m r) := by
  induction m generalizing r with
  | zero => simp [lfsrAfter]
  | succ m ih => rw [Nat.succ_add]; exact ih _

theorem lfsrAfter_succ (n : Nat) (r : BitVec 11) : lfsrAfter (n + 1) r = lfsrNext (lfsrAfter n r) := by
  rw [lfsrAfter_add]; rfl

/-- Each bit of the next register (R102). -/
theorem getLsbD_lfsrNext (r : BitVec 11) (j : Nat) :
    (lfsrNext r).getLsbD j = if j = 10 then lfsrBit r else r.getLsbD (j + 1) := by
  simp only [lfsrNext, BitVec.getLsbD_or, BitVec.getLsbD_ushiftRight, BitVec.getLsbD_shiftLeft,
    BitVec.getLsbD_setWidth, BitVec.getLsbD_ofBool]
  by_cases h : j = 10
  · subst h
    simp
  · by_cases h2 : j < 10
    · simp [h2, h]; rw [Nat.add_comm]
    · simp [h, show ¬j < 11 by omega, BitVec.getLsbD_of_ge r (1 + j) (by omega),
        BitVec.getLsbD_of_ge r (j + 1) (by omega)]

/-! ## The convolutional encoder -/

theorem length_encode25 (o : RegOrder) (u : List Bool) (h : u.length % 2 = 0) :
    (encode7 o taps25 u).length = 5 * u.length / 2 := by
  rw [encode7, length_flatMap_range _ (fun i => 5 * (i / 2) + 3 * (i % 2)) rfl]
  · omega
  · intro i
    by_cases h : i % 2 = 0 <;> simp [encAt, taps25, h] <;> omega

theorem getD_encode25 (o : RegOrder) (u : List Bool) (i j : Nat) (hi : i < u.length)
    (hj : j < if i % 2 = 0 then 3 else 2) :
    (encode7 o taps25 u).getD (5 * (i / 2) + 3 * (i % 2) + j) false =
      parity7 (encReg o u i &&& [gen133, gen171, gen165].getD j 0) := by
  rw [encode7, getD_flatMap_range _ (fun i => 5 * (i / 2) + 3 * (i % 2)) false rfl _ _ _ _ hi]
  · by_cases h : i % 2 = 0
    · simp only [h, if_true] at hj
      simp only [encAt, taps25, h, if_true]
      interval_cases j <;> rfl
    · simp only [h, if_false] at hj
      simp only [encAt, taps25, h, if_false]
      interval_cases j <;> rfl
  · by_cases h : i % 2 = 0 <;> simpa [encAt, taps25, h] using hj
  · intro i
    by_cases h : i % 2 = 0 <;> simp [encAt, taps25, h] <;> omega

theorem length_encode12 (o : RegOrder) (u : List Bool) : (encode7 o taps12 u).length = 2 * u.length := by
  rw [encode7, length_flatMap_range _ (fun i => 2 * i) rfl]
  intro i; simp [encAt, taps12]; omega

theorem getD_encode12 (o : RegOrder) (u : List Bool) (i j : Nat) (hi : i < u.length) (hj : j < 2) :
    (encode7 o taps12 u).getD (2 * i + j) false =
      parity7 (encReg o u i &&& [gen133, gen165].getD j 0) := by
  rw [encode7, getD_flatMap_range _ (fun i => 2 * i) false rfl _ _ _ _ hi]
  · interval_cases j <;> rfl
  · simpa [encAt, taps12] using hj
  · intro i; simp [encAt, taps12]; omega

/-- A block has no byte that is no bit cell iff the search finds none. -/
theorem firstNonBit_eq_none (l : List Byte) : firstNonBit l = none ↔ ∀ i, i < l.length → isBit (l.getD i 0) = true := by
  rw [firstNonBit, List.findIdx?_eq_none_iff]
  constructor
  · intro h i hi
    have := h l[i] (List.getElem_mem hi)
    simpa [List.getD, hi] using this
  · intro h b hb
    obtain ⟨i, hi, rfl⟩ := List.mem_iff_getElem.1 hb
    simpa [List.getD, hi] using h i hi

/-- The search finds the lowest byte that is no bit cell. -/
theorem firstNonBit_eq_some (l : List Byte) (k : Nat) (hk : k < l.length) (h : isBit (l.getD k 0) = false)
    (hlt : ∀ j, j < k → isBit (l.getD j 0) = true) : firstNonBit l = some k := by
  rw [firstNonBit, List.findIdx?_eq_some_iff_getElem]
  refine ⟨hk, by simpa [List.getD, hk] using h, fun j hj => ?_⟩
  have := hlt j hj
  simpa [List.getD, Nat.lt_trans hj hk] using this

/-! ## The L1 frame -/

@[simp] theorem length_l1Frame (c : Cfg) (m a : Nat → Byte) : (l1Frame c m a).length = c.l1FrameBytes := by
  rw [l1Frame, length_flatMap_range _ (fun i => i * c.fftSize) (by simp)]
  · rfl
  · intro i; simp [Nat.succ_mul]

theorem getD_l1Frame (c : Cfg) (m a : Nat → Byte) (sym sc : Nat) (hy : sym < symbolsPerFrame) (hc : sc < c.fftSize) :
    (l1Frame c m a).getD (sym * c.fftSize + sc) 0 = l1Symbol c m a sym sc := by
  rw [l1Frame, getD_flatMap_range _ (fun i => i * c.fftSize) 0 (by simp) _ _ _ _ hy]
  · simp [List.getD, hc]
  · simpa using hc
  · intro i; simp [Nat.succ_mul]

end Sys2Proof.Machine
end

