-- ==== Sys2Proof/Laws/State.lean ====
section
/-! SUPPORT. One lemma per field per update of the state, each true by rfl. -/

namespace Sys2Proof.Machine

/-! ### completeError -/

@[simp] theorem State.completeError_cfg (s : State) (c : Cause) (i : Word) : (s.completeError c i).cfg = s.cfg := rfl
@[simp] theorem State.completeError_lat (s : State) (c : Cause) (i : Word) : (s.completeError c i).lat = s.lat := rfl
@[simp] theorem State.completeError_iv (s : State) (c : Cause) (i : Word) : (s.completeError c i).iv = s.iv := rfl
@[simp] theorem State.completeError_l2 (s : State) (c : Cause) (i : Word) : (s.completeError c i).l2 = s.l2 := rfl
@[simp] theorem State.completeError_evq (s : State) (c : Cause) (i : Word) : (s.completeError c i).evq = s.evq := rfl
@[simp] theorem State.completeError_mem (s : State) (c : Cause) (i : Word) : (s.completeError c i).mem = s.mem := rfl
@[simp] theorem State.completeError_faults (s : State) (c : Cause) (i : Word) : (s.completeError c i).faults = s.faults := rfl
@[simp] theorem State.completeError_draws (s : State) (c : Cause) (i : Word) : (s.completeError c i).draws = s.draws := rfl
@[simp] theorem State.completeError_host (s : State) (c : Cause) (i : Word) : (s.completeError c i).host = s.host := rfl
@[simp] theorem State.completeError_cmd (s : State) (c : Cause) (i : Word) : (s.completeError c i).csr.cmd = s.csr.cmd := rfl
@[simp] theorem State.completeError_src (s : State) (c : Cause) (i : Word) : (s.completeError c i).csr.src = s.csr.src := rfl
@[simp] theorem State.completeError_dst (s : State) (c : Cause) (i : Word) : (s.completeError c i).csr.dst = s.csr.dst := rfl
@[simp] theorem State.completeError_len (s : State) (c : Cause) (i : Word) : (s.completeError c i).csr.len = s.csr.len := rfl
@[simp] theorem State.completeError_aux (s : State) (c : Cause) (i : Word) : (s.completeError c i).csr.aux = s.csr.aux := rfl
@[simp] theorem State.completeError_lfsr (s : State) (c : Cause) (i : Word) : (s.completeError c i).csr.lfsr = s.csr.lfsr := rfl
@[simp] theorem State.completeError_irqen (s : State) (c : Cause) (i : Word) : (s.completeError c i).csr.irqen = s.csr.irqen := rfl
@[simp] theorem State.completeError_warnmask (s : State) (c : Cause) (i : Word) : (s.completeError c i).csr.warnmask = s.csr.warnmask := rfl
@[simp] theorem State.completeError_phase (s : State) (c : Cause) (i : Word) : (s.completeError c i).phase = .idle := rfl
@[simp] theorem State.completeError_flags (s : State) (c : Cause) (i : Word) : (s.completeError c i).csr.flags = { s.csr.flags with done := true, err := true } := rfl
@[simp] theorem State.completeError_cause (s : State) (c : Cause) (i : Word) : (s.completeError c i).csr.cause = c.code := rfl
@[simp] theorem State.completeError_info (s : State) (c : Cause) (i : Word) : (s.completeError c i).csr.info = i := rfl
@[simp] theorem State.completeError_incnt (s : State) (c : Cause) (i : Word) : (s.completeError c i).csr.incnt = 0 := rfl
@[simp] theorem State.completeError_outcnt (s : State) (c : Cause) (i : Word) : (s.completeError c i).csr.outcnt = 0 := rfl

/-! ### completeStall -/

@[simp] theorem State.completeStall_cfg (s : State) : s.completeStall.cfg = s.cfg := rfl
@[simp] theorem State.completeStall_lat (s : State) : s.completeStall.lat = s.lat := rfl
@[simp] theorem State.completeStall_iv (s : State) : s.completeStall.iv = s.iv := rfl
@[simp] theorem State.completeStall_l2 (s : State) : s.completeStall.l2 = s.l2 := rfl
@[simp] theorem State.completeStall_evq (s : State) : s.completeStall.evq = s.evq := rfl
@[simp] theorem State.completeStall_mem (s : State) : s.completeStall.mem = s.mem := rfl
@[simp] theorem State.completeStall_faults (s : State) : s.completeStall.faults = s.faults := rfl
@[simp] theorem State.completeStall_draws (s : State) : s.completeStall.draws = s.draws := rfl
@[simp] theorem State.completeStall_host (s : State) : s.completeStall.host = s.host := rfl
@[simp] theorem State.completeStall_cmd (s : State) : s.completeStall.csr.cmd = s.csr.cmd := rfl
@[simp] theorem State.completeStall_cause (s : State) : s.completeStall.csr.cause = s.csr.cause := rfl
@[simp] theorem State.completeStall_info (s : State) : s.completeStall.csr.info = s.csr.info := rfl
@[simp] theorem State.completeStall_src (s : State) : s.completeStall.csr.src = s.csr.src := rfl
@[simp] theorem State.completeStall_dst (s : State) : s.completeStall.csr.dst = s.csr.dst := rfl
@[simp] theorem State.completeStall_len (s : State) : s.completeStall.csr.len = s.csr.len := rfl
@[simp] theorem State.completeStall_aux (s : State) : s.completeStall.csr.aux = s.csr.aux := rfl
@[simp] theorem State.completeStall_lfsr (s : State) : s.completeStall.csr.lfsr = s.csr.lfsr := rfl
@[simp] theorem State.completeStall_irqen (s : State) : s.completeStall.csr.irqen = s.csr.irqen := rfl
@[simp] theorem State.completeStall_warnmask (s : State) : s.completeStall.csr.warnmask = s.csr.warnmask := rfl
@[simp] theorem State.completeStall_phase (s : State) : s.completeStall.phase = .idle := rfl
@[simp] theorem State.completeStall_flags (s : State) : s.completeStall.csr.flags = { s.csr.flags with done := true, stall := true } := rfl
@[simp] theorem State.completeStall_incnt (s : State) : s.completeStall.csr.incnt = 0 := rfl
@[simp] theorem State.completeStall_outcnt (s : State) : s.completeStall.csr.outcnt = 0 := rfl

/-! ### completeOk -/

@[simp] theorem State.completeOk_cfg (s : State) (n m : Nat) : (s.completeOk n m).cfg = s.cfg := rfl
@[simp] theorem State.completeOk_lat (s : State) (n m : Nat) : (s.completeOk n m).lat = s.lat := rfl
@[simp] theorem State.completeOk_iv (s : State) (n m : Nat) : (s.completeOk n m).iv = s.iv := rfl
@[simp] theorem State.completeOk_l2 (s : State) (n m : Nat) : (s.completeOk n m).l2 = s.l2 := rfl
@[simp] theorem State.completeOk_evq (s : State) (n m : Nat) : (s.completeOk n m).evq = s.evq := rfl
@[simp] theorem State.completeOk_mem (s : State) (n m : Nat) : (s.completeOk n m).mem = s.mem := rfl
@[simp] theorem State.completeOk_faults (s : State) (n m : Nat) : (s.completeOk n m).faults = s.faults := rfl
@[simp] theorem State.completeOk_draws (s : State) (n m : Nat) : (s.completeOk n m).draws = s.draws := rfl
@[simp] theorem State.completeOk_host (s : State) (n m : Nat) : (s.completeOk n m).host = s.host := rfl
@[simp] theorem State.completeOk_cmd (s : State) (n m : Nat) : (s.completeOk n m).csr.cmd = s.csr.cmd := rfl
@[simp] theorem State.completeOk_cause (s : State) (n m : Nat) : (s.completeOk n m).csr.cause = s.csr.cause := rfl
@[simp] theorem State.completeOk_info (s : State) (n m : Nat) : (s.completeOk n m).csr.info = s.csr.info := rfl
@[simp] theorem State.completeOk_src (s : State) (n m : Nat) : (s.completeOk n m).csr.src = s.csr.src := rfl
@[simp] theorem State.completeOk_dst (s : State) (n m : Nat) : (s.completeOk n m).csr.dst = s.csr.dst := rfl
@[simp] theorem State.completeOk_len (s : State) (n m : Nat) : (s.completeOk n m).csr.len = s.csr.len := rfl
@[simp] theorem State.completeOk_aux (s : State) (n m : Nat) : (s.completeOk n m).csr.aux = s.csr.aux := rfl
@[simp] theorem State.completeOk_lfsr (s : State) (n m : Nat) : (s.completeOk n m).csr.lfsr = s.csr.lfsr := rfl
@[simp] theorem State.completeOk_irqen (s : State) (n m : Nat) : (s.completeOk n m).csr.irqen = s.csr.irqen := rfl
@[simp] theorem State.completeOk_warnmask (s : State) (n m : Nat) : (s.completeOk n m).csr.warnmask = s.csr.warnmask := rfl
@[simp] theorem State.completeOk_phase (s : State) (n m : Nat) : (s.completeOk n m).phase = .idle := rfl
@[simp] theorem State.completeOk_flags (s : State) (n m : Nat) : (s.completeOk n m).csr.flags = { s.csr.flags with done := true } := rfl
@[simp] theorem State.completeOk_incnt (s : State) (n m : Nat) : (s.completeOk n m).csr.incnt = toWord n := rfl
@[simp] theorem State.completeOk_outcnt (s : State) (n m : Nat) : (s.completeOk n m).csr.outcnt = toWord m := rfl

/-! ### accept -/

@[simp] theorem State.accept_cfg (s : State) (w : Word) : (s.accept w).cfg = s.cfg := rfl
@[simp] theorem State.accept_iv (s : State) (w : Word) : (s.accept w).iv = s.iv := rfl
@[simp] theorem State.accept_l2 (s : State) (w : Word) : (s.accept w).l2 = s.l2 := rfl
@[simp] theorem State.accept_evq (s : State) (w : Word) : (s.accept w).evq = s.evq := rfl
@[simp] theorem State.accept_mem (s : State) (w : Word) : (s.accept w).mem = s.mem := rfl
@[simp] theorem State.accept_faults (s : State) (w : Word) : (s.accept w).faults = s.faults := rfl
@[simp] theorem State.accept_draws (s : State) (w : Word) : (s.accept w).draws = s.draws := rfl
@[simp] theorem State.accept_host (s : State) (w : Word) : (s.accept w).host = s.host := rfl
@[simp] theorem State.accept_flags (s : State) (w : Word) : (s.accept w).csr.flags = s.csr.flags := rfl
@[simp] theorem State.accept_cause (s : State) (w : Word) : (s.accept w).csr.cause = s.csr.cause := rfl
@[simp] theorem State.accept_info (s : State) (w : Word) : (s.accept w).csr.info = s.csr.info := rfl
@[simp] theorem State.accept_src (s : State) (w : Word) : (s.accept w).csr.src = s.csr.src := rfl
@[simp] theorem State.accept_dst (s : State) (w : Word) : (s.accept w).csr.dst = s.csr.dst := rfl
@[simp] theorem State.accept_len (s : State) (w : Word) : (s.accept w).csr.len = s.csr.len := rfl
@[simp] theorem State.accept_aux (s : State) (w : Word) : (s.accept w).csr.aux = s.csr.aux := rfl
@[simp] theorem State.accept_incnt (s : State) (w : Word) : (s.accept w).csr.incnt = s.csr.incnt := rfl
@[simp] theorem State.accept_outcnt (s : State) (w : Word) : (s.accept w).csr.outcnt = s.csr.outcnt := rfl
@[simp] theorem State.accept_lfsr (s : State) (w : Word) : (s.accept w).csr.lfsr = s.csr.lfsr := rfl
@[simp] theorem State.accept_irqen (s : State) (w : Word) : (s.accept w).csr.irqen = s.csr.irqen := rfl
@[simp] theorem State.accept_warnmask (s : State) (w : Word) : (s.accept w).csr.warnmask = s.csr.warnmask := rfl
@[simp] theorem State.accept_phase (s : State) (w : Word) : (s.accept w).phase = .busy := rfl
@[simp] theorem State.accept_lat (s : State) (w : Word) : (s.accept w).lat = ⟨w, s.csr.src, s.csr.dst, s.csr.len, s.csr.aux⟩ := rfl
@[simp] theorem State.accept_cmd (s : State) (w : Word) : (s.accept w).csr.cmd = w := rfl

/-! ### overrun -/

@[simp] theorem State.overrun_cfg (s : State) : s.overrun.cfg = s.cfg := rfl
@[simp] theorem State.overrun_phase (s : State) : s.overrun.phase = s.phase := rfl
@[simp] theorem State.overrun_lat (s : State) : s.overrun.lat = s.lat := rfl
@[simp] theorem State.overrun_iv (s : State) : s.overrun.iv = s.iv := rfl
@[simp] theorem State.overrun_l2 (s : State) : s.overrun.l2 = s.l2 := rfl
@[simp] theorem State.overrun_evq (s : State) : s.overrun.evq = s.evq := rfl
@[simp] theorem State.overrun_mem (s : State) : s.overrun.mem = s.mem := rfl
@[simp] theorem State.overrun_faults (s : State) : s.overrun.faults = s.faults := rfl
@[simp] theorem State.overrun_draws (s : State) : s.overrun.draws = s.draws := rfl
@[simp] theorem State.overrun_host (s : State) : s.overrun.host = s.host := rfl
@[simp] theorem State.overrun_cmd (s : State) : s.overrun.csr.cmd = s.csr.cmd := rfl
@[simp] theorem State.overrun_cause (s : State) : s.overrun.csr.cause = s.csr.cause := rfl
@[simp] theorem State.overrun_info (s : State) : s.overrun.csr.info = s.csr.info := rfl
@[simp] theorem State.overrun_src (s : State) : s.overrun.csr.src = s.csr.src := rfl
@[simp] theorem State.overrun_dst (s : State) : s.overrun.csr.dst = s.csr.dst := rfl
@[simp] theorem State.overrun_len (s : State) : s.overrun.csr.len = s.csr.len := rfl
@[simp] theorem State.overrun_aux (s : State) : s.overrun.csr.aux = s.csr.aux := rfl
@[simp] theorem State.overrun_incnt (s : State) : s.overrun.csr.incnt = s.csr.incnt := rfl
@[simp] theorem State.overrun_outcnt (s : State) : s.overrun.csr.outcnt = s.csr.outcnt := rfl
@[simp] theorem State.overrun_lfsr (s : State) : s.overrun.csr.lfsr = s.csr.lfsr := rfl
@[simp] theorem State.overrun_irqen (s : State) : s.overrun.csr.irqen = s.csr.irqen := rfl
@[simp] theorem State.overrun_warnmask (s : State) : s.overrun.csr.warnmask = s.csr.warnmask := rfl
@[simp] theorem State.overrun_flags (s : State) : s.overrun.csr.flags = { s.csr.flags with cmdovr := true } := rfl

/-! ### softReset -/

@[simp] theorem State.softReset_cfg (s : State) : s.softReset.cfg = s.cfg := rfl
@[simp] theorem State.softReset_mem (s : State) : s.softReset.mem = s.mem := rfl
@[simp] theorem State.softReset_faults (s : State) : s.softReset.faults = s.faults := rfl
@[simp] theorem State.softReset_host (s : State) : s.softReset.host = s.host := rfl
@[simp] theorem State.softReset_phase (s : State) : s.softReset.phase = .idle := rfl
@[simp] theorem State.softReset_csr (s : State) : s.softReset.csr = { Csr.reset with cmd := s.csr.cmd } := rfl
@[simp] theorem State.softReset_lat (s : State) : s.softReset.lat = Lat.drawn s.draws := rfl
@[simp] theorem State.softReset_iv (s : State) : s.softReset.iv = ivReset s.cfg s.draws := rfl
@[simp] theorem State.softReset_l2 (s : State) : s.softReset.l2 = L2State.reset s.cfg := rfl
@[simp] theorem State.softReset_evq (s : State) : s.softReset.evq = [] := rfl
@[simp] theorem State.softReset_draws (s : State) : s.softReset.draws = s.draws + 1 := rfl

/-! ### setProg -/

@[simp] theorem State.setProg_cfg (s : State) (p : Nat) (v : ProgState) : (s.setProg p v).cfg = s.cfg := rfl
@[simp] theorem State.setProg_csr (s : State) (p : Nat) (v : ProgState) : (s.setProg p v).csr = s.csr := rfl
@[simp] theorem State.setProg_phase (s : State) (p : Nat) (v : ProgState) : (s.setProg p v).phase = s.phase := rfl
@[simp] theorem State.setProg_lat (s : State) (p : Nat) (v : ProgState) : (s.setProg p v).lat = s.lat := rfl
@[simp] theorem State.setProg_iv (s : State) (p : Nat) (v : ProgState) : (s.setProg p v).iv = s.iv := rfl
@[simp] theorem State.setProg_evq (s : State) (p : Nat) (v : ProgState) : (s.setProg p v).evq = s.evq := rfl
@[simp] theorem State.setProg_mem (s : State) (p : Nat) (v : ProgState) : (s.setProg p v).mem = s.mem := rfl
@[simp] theorem State.setProg_faults (s : State) (p : Nat) (v : ProgState) : (s.setProg p v).faults = s.faults := rfl
@[simp] theorem State.setProg_draws (s : State) (p : Nat) (v : ProgState) : (s.setProg p v).draws = s.draws := rfl
@[simp] theorem State.setProg_host (s : State) (p : Nat) (v : ProgState) : (s.setProg p v).host = s.host := rfl
@[simp] theorem State.setProg_l2 (s : State) (p : Nat) (v : ProgState) : (s.setProg p v).l2 = { s.l2 with progs := s.l2.progs.set p v } := rfl

/-! ### markHazard -/

@[simp] theorem State.markHazard_cfg (s : State) : s.markHazard.cfg = s.cfg := rfl
@[simp] theorem State.markHazard_csr (s : State) : s.markHazard.csr = s.csr := rfl
@[simp] theorem State.markHazard_phase (s : State) : s.markHazard.phase = s.phase := rfl
@[simp] theorem State.markHazard_lat (s : State) : s.markHazard.lat = s.lat := rfl
@[simp] theorem State.markHazard_iv (s : State) : s.markHazard.iv = s.iv := rfl
@[simp] theorem State.markHazard_l2 (s : State) : s.markHazard.l2 = s.l2 := rfl
@[simp] theorem State.markHazard_evq (s : State) : s.markHazard.evq = s.evq := rfl
@[simp] theorem State.markHazard_mem (s : State) : s.markHazard.mem = s.mem := rfl
@[simp] theorem State.markHazard_draws (s : State) : s.markHazard.draws = s.draws := rfl
@[simp] theorem State.markHazard_host (s : State) : s.markHazard.host = s.host := rfl
@[simp] theorem State.markHazard_faults (s : State) : s.markHazard.faults = { s.faults with hostHazard := true } := rfl

/-! ### markCsrAccess -/

@[simp] theorem State.markCsrAccess_cfg (s : State) : s.markCsrAccess.cfg = s.cfg := rfl
@[simp] theorem State.markCsrAccess_csr (s : State) : s.markCsrAccess.csr = s.csr := rfl
@[simp] theorem State.markCsrAccess_phase (s : State) : s.markCsrAccess.phase = s.phase := rfl
@[simp] theorem State.markCsrAccess_lat (s : State) : s.markCsrAccess.lat = s.lat := rfl
@[simp] theorem State.markCsrAccess_iv (s : State) : s.markCsrAccess.iv = s.iv := rfl
@[simp] theorem State.markCsrAccess_l2 (s : State) : s.markCsrAccess.l2 = s.l2 := rfl
@[simp] theorem State.markCsrAccess_evq (s : State) : s.markCsrAccess.evq = s.evq := rfl
@[simp] theorem State.markCsrAccess_mem (s : State) : s.markCsrAccess.mem = s.mem := rfl
@[simp] theorem State.markCsrAccess_draws (s : State) : s.markCsrAccess.draws = s.draws := rfl
@[simp] theorem State.markCsrAccess_host (s : State) : s.markCsrAccess.host = s.host := rfl
@[simp] theorem State.markCsrAccess_faults (s : State) : s.markCsrAccess.faults = { s.faults with csrAccess := true } := rfl

/-! ### hostAt -/

@[simp] theorem State.hostAt_cfg (s : State) (n : Nat) : (s.hostAt n).cfg = s.cfg := rfl
@[simp] theorem State.hostAt_csr (s : State) (n : Nat) : (s.hostAt n).csr = s.csr := rfl
@[simp] theorem State.hostAt_phase (s : State) (n : Nat) : (s.hostAt n).phase = s.phase := rfl
@[simp] theorem State.hostAt_lat (s : State) (n : Nat) : (s.hostAt n).lat = s.lat := rfl
@[simp] theorem State.hostAt_iv (s : State) (n : Nat) : (s.hostAt n).iv = s.iv := rfl
@[simp] theorem State.hostAt_l2 (s : State) (n : Nat) : (s.hostAt n).l2 = s.l2 := rfl
@[simp] theorem State.hostAt_evq (s : State) (n : Nat) : (s.hostAt n).evq = s.evq := rfl
@[simp] theorem State.hostAt_mem (s : State) (n : Nat) : (s.hostAt n).mem = s.mem := rfl
@[simp] theorem State.hostAt_faults (s : State) (n : Nat) : (s.hostAt n).faults = s.faults := rfl
@[simp] theorem State.hostAt_draws (s : State) (n : Nat) : (s.hostAt n).draws = s.draws := rfl
@[simp] theorem State.hostAt_host (s : State) (n : Nat) : (s.hostAt n).host = { s.host with pc := n } := rfl

/-! ### hostNext -/

@[simp] theorem State.hostNext_cfg (s : State) : s.hostNext.cfg = s.cfg := rfl
@[simp] theorem State.hostNext_csr (s : State) : s.hostNext.csr = s.csr := rfl
@[simp] theorem State.hostNext_phase (s : State) : s.hostNext.phase = s.phase := rfl
@[simp] theorem State.hostNext_lat (s : State) : s.hostNext.lat = s.lat := rfl
@[simp] theorem State.hostNext_iv (s : State) : s.hostNext.iv = s.iv := rfl
@[simp] theorem State.hostNext_l2 (s : State) : s.hostNext.l2 = s.l2 := rfl
@[simp] theorem State.hostNext_evq (s : State) : s.hostNext.evq = s.evq := rfl
@[simp] theorem State.hostNext_mem (s : State) : s.hostNext.mem = s.mem := rfl
@[simp] theorem State.hostNext_faults (s : State) : s.hostNext.faults = s.faults := rfl
@[simp] theorem State.hostNext_draws (s : State) : s.hostNext.draws = s.draws := rfl
@[simp] theorem State.hostNext_host (s : State) : s.hostNext.host = { s.host with pc := s.host.pc + 1 } := rfl

/-! ### respond -/

@[simp] theorem State.respond_cfg (s : State) (v : Word) : (s.respond v).cfg = s.cfg := rfl
@[simp] theorem State.respond_csr (s : State) (v : Word) : (s.respond v).csr = s.csr := rfl
@[simp] theorem State.respond_phase (s : State) (v : Word) : (s.respond v).phase = s.phase := rfl
@[simp] theorem State.respond_lat (s : State) (v : Word) : (s.respond v).lat = s.lat := rfl
@[simp] theorem State.respond_iv (s : State) (v : Word) : (s.respond v).iv = s.iv := rfl
@[simp] theorem State.respond_l2 (s : State) (v : Word) : (s.respond v).l2 = s.l2 := rfl
@[simp] theorem State.respond_evq (s : State) (v : Word) : (s.respond v).evq = s.evq := rfl
@[simp] theorem State.respond_mem (s : State) (v : Word) : (s.respond v).mem = s.mem := rfl
@[simp] theorem State.respond_faults (s : State) (v : Word) : (s.respond v).faults = s.faults := rfl
@[simp] theorem State.respond_draws (s : State) (v : Word) : (s.respond v).draws = s.draws := rfl
@[simp] theorem State.respond_host (s : State) (v : Word) : (s.respond v).host = { s.host with responses := v :: s.host.responses } := rfl

end Sys2Proof.Machine
end

