-- ==== Sys2Proof/Laws/Commands.lean ====
section
/-! SUPPORT. What each command can do: its completion, and, where it completes successfully, the conditions it checked
and the state it leaves. -/

namespace Sys2Proof.Machine

/-- The completion of a command (R100). -/
def completionOf (i : Instr) (s : State) : Completion :=
  match i with
  | .nop => .ok 0 0 s
  | .srst => .ok 0 0 s.softReset
  | .rev8 => rev8 s
  | .scr => scr s
  | .conv25 => conv25 s
  | .conv12 => conv12 s
  | .ilvp1 => ilvPass s n1 (cell1 s.cfg)
  | .ilvpids => ilvPass s n2 (cell2 s.cfg)
  | .ilviv k => ilviv k s
  | .l1map => l1map s
  | .rsenc => rsenc s
  | .audq p => audq p s
  | .psdset p => psdset p s
  | .aasq port => aasq port s
  | .l2frame => l2frameWith Config.frameFns s

/-- Every command completes, as its completion says. -/
theorem exec_eq (i : Instr) (s : State) : exec i s = .next (s.finish (completionOf i s)) := by
  cases i <;> rfl

theorem exec_next_iff (i : Instr) (s t : State) :
    exec i s = .next t ↔ t = s.finish (completionOf i s) := by
  rw [exec_eq]; constructor
  · intro h; injection h with h; exact h.symm
  · rintro rfl; rfl

@[simp] theorem State.finish_error (s : State) (c : Cause) (i : Word) :
    s.finish (.error c i) = s.completeError c i := rfl

@[simp] theorem State.finish_stall (s : State) : s.finish .stall = s.completeStall := rfl

@[simp] theorem State.finish_ok (s t : State) (n m : Nat) : s.finish (.ok n m t) = t.completeOk n m := rfl

/-! ## Successful completions -/

theorem rev8_ok {s t : State} {n m : Nat} (h : rev8 s = .ok n m t) :
    (s.lenN % 8 = 0 ∧ legal s.cfg s.srcA s.lenN ∧ legal s.cfg s.dstA s.lenN ∧
      ¬(s.lat.dst ≠ s.lat.src ∧ overlap s.srcA s.lenN s.dstA s.lenN)) ∧
    n = s.lenN ∧ m = s.lenN ∧
    t = { s with mem := s.mem.writeBlock s.dstA (rev8Block (s.mem.readBlock s.srcA s.lenN)) } := by
  unfold rev8 at h
  split_ifs at h
  injections
  simp_all

theorem scr_ok {s t : State} {n m : Nat} (h : scr s = .ok n m t) :
    (legal s.cfg s.srcA s.lenN ∧ legal s.cfg s.dstA s.lenN ∧
      ¬(s.lat.dst ≠ s.lat.src ∧ overlap s.srcA s.lenN s.dstA s.lenN)) ∧
    n = s.lenN ∧ m = s.lenN ∧
    t = { s with
          mem := s.mem.writeBlock s.dstA (scramble lfsrSeed (s.mem.readBlock s.srcA s.lenN))
          csr := { s.csr with lfsr := lfsrAfter s.lenN lfsrSeed } } := by
  unfold scr at h
  split_ifs at h
  injections
  simp_all

theorem convolve_ok {s t : State} {o n m : Nat} {taps : Nat → List (BitVec 7)}
    (h : convolve s o taps = .ok n m t) :
    (legal s.cfg s.srcA s.lenN ∧ legal s.cfg s.dstA o ∧ ¬overlap s.srcA s.lenN s.dstA o ∧
      firstNonBit (s.mem.readBlock s.srcA s.lenN) = none) ∧
    n = s.lenN ∧ m = o ∧
    t = { s with
          mem := s.mem.writeBlock s.dstA
            ((encode7 s.cfg.convRegOrder taps ((s.mem.readBlock s.srcA s.lenN).map cellBit)).map bitCell) } := by
  unfold convolve at h
  split_ifs at h
  split at h <;> injections
  simp_all

theorem conv25_ok {s t : State} {n m : Nat} (h : conv25 s = .ok n m t) :
    6 ≤ s.lenN ∧ s.lenN % 2 = 0 ∧ convolve s (5 * s.lenN / 2) taps25 = .ok n m t := by
  unfold conv25 at h
  split_ifs at h with hl
  exact ⟨by omega, by omega, h⟩

theorem conv12_ok {s t : State} {n m : Nat} (h : conv12 s = .ok n m t) :
    6 ≤ s.lenN ∧ convolve s (2 * s.lenN) taps12 = .ok n m t := by
  unfold conv12 at h
  split_ifs at h with hl
  exact ⟨by omega, h⟩

theorem ilvPass_ok {s t : State} {k n m : Nat} {cellOf : Nat → Nat × Nat} (h : ilvPass s k cellOf = .ok n m t) :
    (k ≤ s.lenN ∧ legal s.cfg s.srcA k ∧ legal s.cfg s.dstA matCells ∧ ¬overlap s.srcA k s.dstA matCells) ∧
    n = k ∧ m = k ∧
    t = { s with mem := s.mem.writeAll (scatter s.dstA cellOf (s.mem.readBlock s.srcA k)) } := by
  unfold ilvPass at h
  split_ifs at h
  injections
  simp_all

theorem ilviv_ok {s t : State} {k n m : Nat} (h : ilviv k s = .ok n m t) :
    (k < s.cfg.niv ∧ (s.cfg.ivAt k).half ≤ s.lenN ∧ legal s.cfg s.srcA (s.cfg.ivAt k).half ∧
      legal s.cfg s.dstA (s.cfg.ivAt k).half ∧
      ¬overlap s.srcA (s.cfg.ivAt k).half s.dstA (s.cfg.ivAt k).half) ∧
    n = (s.cfg.ivAt k).half ∧ m = (s.cfg.ivAt k).half ∧
    t = { s with
          mem := s.mem.writeBlock s.dstA ((s.ivAt k).give (s.cfg.ivAt k))
          iv := s.iv.set k ((s.ivAt k).take (s.cfg.ivAt k) (s.mem.readBlock s.srcA (s.cfg.ivAt k).half)) } := by
  unfold ilviv at h
  simp only at h
  split_ifs at h
  injections
  simp_all

theorem l1map_ok {s t : State} {n m : Nat} (h : l1map s = .ok n m t) :
    (legal s.cfg s.srcA matCells ∧ legal s.cfg s.dstA s.cfg.l1FrameBytes ∧
      legal s.cfg s.auxA s.cfg.secBytes ∧ ¬overlap s.dstA s.cfg.l1FrameBytes s.srcA matCells ∧
      ¬overlap s.dstA s.cfg.l1FrameBytes s.auxA s.cfg.secBytes ∧ l1BadBit s = none) ∧
    n = matCells + s.cfg.secBytes ∧ m = s.cfg.l1FrameBytes ∧
    t = { s with
          mem := s.mem.writeBlock s.dstA
            (l1Frame s.cfg (fun i => s.mem.read (s.srcA + i)) (fun j => s.mem.read (s.auxA + j))) } := by
  unfold l1map at h
  split_ifs at h with h1 h2 h3 h4
  rw [not_or] at h4
  split at h
  · cases h
  · next hb =>
    injection h with hn hm ht
    exact ⟨⟨h1, h2, h3, h4.1, h4.2, hb⟩, hn.symm, hm.symm, ht.symm⟩

theorem rsenc_ok {s t : State} {n m : Nat} (h : rsenc s = .ok n m t) :
    (8 ≤ s.lenN ∧ legal s.cfg s.srcA s.lenN) ∧ n = min s.lenN 255 - 8 ∧ m = 8 ∧
    t = { s with mem := s.mem.writeBlock s.srcA (rsParity s.cfg (s.mem.readBlock s.srcA s.lenN)) } := by
  unfold rsenc at h
  split_ifs at h
  injections
  simp_all

theorem audq_ok {s t : State} {p n m : Nat} (h : audq p s = .ok n m t) :
    (p < s.cfg.nprog ∧ 7 ≤ s.lenN ∧ s.lenN - 7 + 1 + s.cfg.locBytes 1 ≤ s.cfg.area p ∧
      legal s.cfg s.srcA s.lenN ∧ adtsLength (s.mem.readBlock s.srcA s.lenN) = s.lenN ∧
      (s.progAt p).audq.length ≠ s.cfg.audqDepth) ∧
    n = s.lenN ∧ m = 0 ∧
    t = s.setProg p { s.progAt p with
          audq := (s.progAt p).audq ++ [(s.mem.readBlock s.srcA s.lenN).drop 7] } := by
  unfold audq at h
  simp only at h
  split_ifs at h
  injections
  simp_all

theorem psdset_ok {s t : State} {p n m : Nat} (h : psdset p s = .ok n m t) :
    (p < s.cfg.nprog ∧ s.lenN = s.cfg.psdBytes ∧ legal s.cfg s.srcA s.cfg.psdBytes ∧
      (s.progAt p).psd = none) ∧
    n = s.cfg.psdBytes ∧ m = 0 ∧
    t = s.setProg p { s.progAt p with psd := some (s.mem.readBlock s.srcA s.cfg.psdBytes) } := by
  unfold psdset at h
  split_ifs at h
  injections
  simp_all

theorem aasq_ok {s t : State} {port : Port} {n m : Nat} (h : aasq port s = .ok n m t) :
    (2 ≤ s.lenN ∧ legal s.cfg s.srcA s.lenN ∧ hdlcBad (s.mem.readBlock s.srcA s.lenN) = none ∧
      (queueOf s.l2.aasq port).length + s.lenN ≤ s.cfg.aasQbytes) ∧
    n = s.lenN ∧ m = 0 ∧
    t = { s with l2 := { s.l2 with
          aasq := setQueue port (queueOf s.l2.aasq port ++ s.mem.readBlock s.srcA s.lenN) s.l2.aasq } } := by
  unfold aasq at h
  simp only at h
  split_ifs at h <;> split at h <;> injections
  next h2 _ _ _ _ _ _ _ => exact ⟨⟨by omega, by simp_all⟩, by simp_all⟩

theorem l2frame_ok {f : FrameFns} {s t : State} {n m : Nat} (h : l2frameWith f s = .ok n m t) :
    ∃ rs, packAll f s.cfg s.l2.frameCnt 0 s.l2.progs = some rs ∧ legal s.cfg s.dstA s.cfg.frameBits ∧
      n = (rs.map Packed.taken).sum ∧ m = s.cfg.frameBits ∧ t = l2Commit f s rs := by
  unfold l2frameWith at h
  split at h
  · injections
  · next rs hrs =>
    split_ifs at h with hl
    injections
    exact ⟨rs, hrs, hl, by simp_all, by simp_all, by simp_all⟩

/-- What a successful completion leaves alone, before its completion fields are written. -/
theorem completionOf_ok_frame {i : Instr} {s t : State} {n m : Nat} (h : completionOf i s = .ok n m t) :
    t.cfg = s.cfg ∧ t.host = s.host ∧ t.faults = s.faults ∧ t.csr.cmd = s.csr.cmd ∧
    (i ≠ .srst → t.csr.src = s.csr.src ∧ t.csr.dst = s.csr.dst ∧ t.csr.len = s.csr.len ∧
      t.csr.aux = s.csr.aux ∧ t.csr.irqen = s.csr.irqen ∧ t.lat = s.lat ∧ t.draws = s.draws ∧
      t.csr.cause = s.csr.cause ∧ t.csr.info = s.csr.info ∧ t.csr.flags.err = s.csr.flags.err ∧
      t.csr.flags.stall = s.csr.flags.stall ∧ t.csr.flags.cmdovr = s.csr.flags.cmdovr) ∧
    (i ≠ .srst → i ≠ .l2frame → t.evq = s.evq ∧ t.csr.warnmask = s.csr.warnmask ∧ t.csr.flags = s.csr.flags) ∧
    (i ≠ .srst → i ≠ .scr → t.csr.lfsr = s.csr.lfsr) ∧
    (i ≠ .srst → (∀ k, i ≠ .ilviv k) → t.iv = s.iv) ∧
    (∀ k, i = .ilviv k → ∃ v, t.iv = s.iv.set k v) ∧
    ((i = .nop ∨ i = .srst ∨ (∃ p, i = .audq p) ∨ (∃ p, i = .psdset p) ∨ (∃ q, i = .aasq q)) →
      t.mem = s.mem) ∧
    (i ≠ .srst → i ≠ .l2frame → (∀ p, i ≠ .audq p) → (∀ p, i ≠ .psdset p) → (∀ q, i ≠ .aasq q) →
      t.l2 = s.l2) := by
  cases i with
  | nop => injection h with _ _ h; subst h; simp
  | srst => injection h with _ _ h; subst h; simp [State.softReset]
  | rev8 => obtain ⟨_, _, _, rfl⟩ := rev8_ok h; simp
  | scr => obtain ⟨_, _, _, rfl⟩ := scr_ok h; simp
  | conv25 => obtain ⟨_, _, _, rfl⟩ := convolve_ok (conv25_ok h).2.2; simp
  | conv12 => obtain ⟨_, _, _, rfl⟩ := convolve_ok (conv12_ok h).2; simp
  | ilvp1 => obtain ⟨_, _, _, rfl⟩ := ilvPass_ok h; simp
  | ilvpids => obtain ⟨_, _, _, rfl⟩ := ilvPass_ok h; simp
  | ilviv k => obtain ⟨_, _, _, rfl⟩ := ilviv_ok h; simp
  | l1map => obtain ⟨_, _, _, rfl⟩ := l1map_ok h; simp
  | rsenc => obtain ⟨_, _, _, rfl⟩ := rsenc_ok h; simp
  | audq p => obtain ⟨_, _, _, rfl⟩ := audq_ok h; simp [State.setProg]
  | psdset p => obtain ⟨_, _, _, rfl⟩ := psdset_ok h; simp [State.setProg]
  | aasq q => obtain ⟨_, _, _, rfl⟩ := aasq_ok h; simp
  | l2frame => obtain ⟨rs, _, _, _, _, rfl⟩ := l2frame_ok h; simp [l2Commit]

/-- A pass changes BUFMEM alone. -/
theorem ilvPass_ok_mem {s t : State} {k n m : Nat} {cellOf : Nat → Nat × Nat} (h : ilvPass s k cellOf = .ok n m t) :
    ∃ x, t = { s with mem := x } := ⟨_, (ilvPass_ok h).2.2.2⟩

/-- A successful command that is none of the L2 commands leaves the L2 state, and SRST resets it. -/
theorem completionOf_ok_l2 {i : Instr} {s t : State} {n m : Nat} (h : completionOf i s = .ok n m t) :
    t.cfg = s.cfg ∧ (t.l2 = s.l2 ∨ t.l2 = L2State.reset s.cfg ∨
    (∃ p, i = .audq p) ∨ (∃ p, i = .psdset p) ∨ (∃ q, i = .aasq q) ∨ i = .l2frame) := by
  cases i with
  | nop => simp only [completionOf] at h; injection h with _ _ h; subst h; exact ⟨rfl, .inl rfl⟩
  | srst => simp only [completionOf] at h; injection h with _ _ h; subst h; exact ⟨rfl, .inr (.inl rfl)⟩
  | rev8 => obtain ⟨-, -, -, ht⟩ := rev8_ok h; subst ht; exact ⟨rfl, .inl rfl⟩
  | scr => obtain ⟨-, -, -, ht⟩ := scr_ok h; subst ht; exact ⟨rfl, .inl rfl⟩
  | conv25 =>
    obtain ⟨-, -, h⟩ := conv25_ok h; obtain ⟨-, -, -, ht⟩ := convolve_ok h; subst ht; exact ⟨rfl, .inl rfl⟩
  | conv12 =>
    obtain ⟨-, h⟩ := conv12_ok h; obtain ⟨-, -, -, ht⟩ := convolve_ok h; subst ht; exact ⟨rfl, .inl rfl⟩
  | ilvp1 => obtain ⟨x, ht⟩ := ilvPass_ok_mem h; subst ht; exact ⟨rfl, .inl rfl⟩
  | ilvpids => obtain ⟨x, ht⟩ := ilvPass_ok_mem h; subst ht; exact ⟨rfl, .inl rfl⟩
  | ilviv k => obtain ⟨-, -, -, ht⟩ := ilviv_ok h; subst ht; exact ⟨rfl, .inl rfl⟩
  | l1map =>
    obtain ⟨-, -, -, ht⟩ := l1map_ok h
    generalize l1Frame _ _ _ = ws at ht
    subst ht; exact ⟨rfl, .inl rfl⟩
  | rsenc =>
    obtain ⟨-, -, -, ht⟩ := rsenc_ok h
    generalize rsParity _ _ = ws at ht
    subst ht; exact ⟨rfl, .inl rfl⟩
  | audq p => exact ⟨(completionOf_ok_frame h).1, by simp⟩
  | psdset p => exact ⟨(completionOf_ok_frame h).1, by simp⟩
  | aasq p => exact ⟨(completionOf_ok_frame h).1, by simp⟩
  | l2frame => exact ⟨(completionOf_ok_frame h).1, by simp⟩

/-- The type IV instances after a reset (R38). -/
theorem ivReset_facts (c : Cfg) (d : Nat) : (ivReset c d).length = c.niv ∧
    ∀ k, k < c.niv → ((ivReset c d).getD k ⟨[], false⟩).buf.length = (c.ivAt k).n ∧
      ((ivReset c d).getD k ⟨[], false⟩).half = false := by
  refine ⟨by simp [ivReset], fun k hk => ?_⟩
  rw [List.getD_eq_getElem _ _ (by simpa [ivReset] using hk)]
  simp [ivReset, IvState.drawn]

theorem reset_progAt (c : Cfg) (p : Nat) : (L2State.reset c).progs.getD p ProgState.reset = ProgState.reset := by
  simp only [L2State.reset, List.getD, List.getElem?_replicate]; split <;> rfl

/-! ## ERR has no effect on a command (R282) -/

/-- The state with ERR set. -/
def State.withErr (s : State) : State := { s with csr := { s.csr with flags := { s.csr.flags with err := true } } }

/-- The completion with ERR set in the state it leaves. -/
def Completion.withErr : Completion → Completion
  | .error c info => .error c info
  | .stall => .stall
  | .ok n m t => .ok n m t.withErr

@[simp] theorem State.withErr_cfg (s : State) : s.withErr.cfg = s.cfg := rfl
@[simp] theorem State.withErr_lat (s : State) : s.withErr.lat = s.lat := rfl
@[simp] theorem State.withErr_srcA (s : State) : s.withErr.srcA = s.srcA := rfl
@[simp] theorem State.withErr_dstA (s : State) : s.withErr.dstA = s.dstA := rfl
@[simp] theorem State.withErr_lenN (s : State) : s.withErr.lenN = s.lenN := rfl
@[simp] theorem State.withErr_auxA (s : State) : s.withErr.auxA = s.auxA := rfl
@[simp] theorem State.withErr_mem (s : State) : s.withErr.mem = s.mem := rfl
@[simp] theorem State.withErr_l2 (s : State) : s.withErr.l2 = s.l2 := rfl
@[simp] theorem State.withErr_ivAt (s : State) (k : Nat) : s.withErr.ivAt k = s.ivAt k := rfl
@[simp] theorem State.withErr_progAt (s : State) (p : Nat) : s.withErr.progAt p = s.progAt p := rfl
@[simp] theorem State.withErr_badBit (s : State) : l1BadBit s.withErr = l1BadBit s := rfl

@[simp] theorem Completion.withErr_ite (P : Prop) [Decidable P] (a b : Completion) :
    (if P then a else b).withErr = if P then a.withErr else b.withErr := apply_ite _ _ _ _
@[simp] theorem Completion.withErr_error (c : Cause) (i : Word) : (Completion.error c i).withErr = .error c i := rfl
@[simp] theorem Completion.withErr_stall : Completion.stall.withErr = .stall := rfl
@[simp] theorem Completion.withErr_ok (n m : Nat) (t : State) : (Completion.ok n m t).withErr = .ok n m t.withErr := rfl

theorem convolve_withErr (s : State) (n : Nat) (taps : Nat → List (BitVec 7)) :
    convolve s.withErr n taps = (convolve s n taps).withErr := by
  simp only [convolve, Completion.withErr_ite, State.withErr_cfg, State.withErr_lat, State.withErr_mem,
    State.withErr_srcA, State.withErr_dstA, State.withErr_lenN, Completion.withErr_error]
  iterate 3 refine ite_congr rfl (fun _ => rfl) (fun _ => ?_)
  cases firstNonBit (s.mem.readBlock s.srcA s.lenN) <;> rfl

/-- What every command but SRST does is the same whether ERR is set or not. -/
theorem completionOf_withErr (i : Instr) (s : State) (h : i ≠ .srst) :
    completionOf i s.withErr = (completionOf i s).withErr := by
  cases i with
  | srst => exact absurd rfl h
  | nop => rfl
  | conv25 | conv12 =>
    simp only [completionOf, conv25, conv12, Completion.withErr_ite, convolve_withErr, State.withErr_lat, State.withErr_lenN,
      Completion.withErr_error]
  | l1map =>
    simp only [completionOf, l1map, Completion.withErr_ite, State.withErr_cfg, State.withErr_lat, State.withErr_badBit,
      State.withErr_srcA, State.withErr_dstA, State.withErr_auxA, State.withErr_mem, Completion.withErr_error]
    iterate 4 refine ite_congr rfl (fun _ => rfl) (fun _ => ?_)
    cases l1BadBit s <;> simp only [Completion.withErr, State.withErr]
  | aasq port =>
    simp only [completionOf, aasq, Completion.withErr_ite, State.withErr_cfg, State.withErr_lat, State.withErr_mem,
      State.withErr_l2, State.withErr_srcA, State.withErr_lenN, Completion.withErr_error]
    iterate 2 refine ite_congr rfl (fun _ => rfl) (fun _ => ?_)
    cases hdlcBad (s.mem.readBlock s.srcA s.lenN) with
    | some i => rfl
    | none => rw [Completion.withErr_ite]; exact ite_congr rfl (fun _ => rfl) (fun _ => rfl)
  | l2frame =>
    simp only [completionOf, l2frameWith, State.withErr_cfg, State.withErr_l2]
    cases packAll Config.frameFns s.cfg s.l2.frameCnt 0 s.l2.progs with
    | none => rfl
    | some rs => rw [Completion.withErr_ite]; exact ite_congr rfl (fun _ => rfl) (fun _ => rfl)
  | rev8 | scr | ilvp1 | ilvpids | ilviv k | rsenc =>
    simp only [completionOf, rev8, scr, ilvPass, ilviv, rsenc, Completion.withErr_ite, State.withErr_cfg, State.withErr_lat,
      State.withErr_mem, State.withErr_ivAt, State.withErr_srcA, State.withErr_dstA, State.withErr_lenN,
      Completion.withErr_error, Completion.withErr_stall, Completion.withErr_ok]
    repeat refine ite_congr rfl (fun _ => rfl) (fun _ => ?_)
    simp only [State.withErr]
  | audq p | psdset p =>
    simp only [completionOf, audq, psdset, Completion.withErr_ite, State.withErr_cfg, State.withErr_lat, State.withErr_mem,
      State.withErr_progAt, State.withErr_srcA, State.withErr_lenN, Completion.withErr_error, Completion.withErr_ok]
    repeat refine ite_congr rfl (fun _ => rfl) (fun _ => ?_)
    rfl

end Sys2Proof.Machine
end

