-- ==== Sys2Proof/Laws/Config.lean ====
section
/-! SUPPORT. The configuration of the instance is valid whatever was requested (00_scope.md R6), and the fixed sizes as
numerals. -/

namespace Sys2Proof

theorem matCells_eq : matCells = 368640 := rfl
theorem n1_eq : n1 = 365440 := rfl
theorem n2_eq : n2 = 3200 := rfl

theorem Cfg.sample_platformOk : Cfg.sample.platformOk = true := by decide
theorem Cfg.sample_interleaverOk : Cfg.sample.interleaverOk = true := by decide +kernel
theorem Cfg.sample_mapperOk : Cfg.sample.mapperOk = true := by decide +kernel
theorem Cfg.sample_rsOk : Cfg.sample.rsOk = true := by decide
theorem Cfg.sample_l2Ok : Cfg.sample.l2Ok = true := by decide +kernel

/-- An instance exists: the sample configuration meets every constraint. -/
theorem Cfg.sample_valid : Cfg.sample.valid = true := by
  rw [Cfg.valid, Cfg.sample_platformOk, Cfg.sample_interleaverOk, Cfg.sample_mapperOk, Cfg.sample_rsOk,
    Cfg.sample_l2Ok]
  rfl

/-- The configuration of the instance meets every constraint. -/
theorem Config.cfg_valid : Config.cfg.valid = true := by
  unfold Config.cfg
  split_ifs with h
  · exact h
  · exact Cfg.sample_valid

end Sys2Proof
end

