-- ==== Sys2Proof/Laws/Csr.lean ====
section
/-! SUPPORT. What a write and a read of each CSR does, offset by offset, and the bits of STATUS and IVSTAT. -/

namespace Sys2Proof.Machine

/-! ## Writes -/

@[simp] theorem State.csrWrite_cmd (s : State) (v : Word) : s.csrWrite 0x00 v = s.issue v := rfl
@[simp] theorem State.csrWrite_status (s : State) (v : Word) :
    s.csrWrite 0x04 v = { s with csr := { s.csr with flags := s.csr.flags.clear v } } := rfl
@[simp] theorem State.csrWrite_src (s : State) (v : Word) :
    s.csrWrite 0x10 v = { s with csr := { s.csr with src := v } } := rfl
@[simp] theorem State.csrWrite_dst (s : State) (v : Word) :
    s.csrWrite 0x14 v = { s with csr := { s.csr with dst := v } } := rfl
@[simp] theorem State.csrWrite_len (s : State) (v : Word) :
    s.csrWrite 0x18 v = { s with csr := { s.csr with len := v } } := rfl
@[simp] theorem State.csrWrite_aux (s : State) (v : Word) :
    s.csrWrite 0x1C v = { s with csr := { s.csr with aux := v } } := rfl
@[simp] theorem State.csrWrite_irqen (s : State) (v : Word) :
    s.csrWrite 0x30 v = { s with csr := { s.csr with irqen := v.setWidth 4 } } := rfl
@[simp] theorem State.csrWrite_warnmask (s : State) (v : Word) :
    s.csrWrite 0x34 v = { s with csr := { s.csr with warnmask := s.csr.warnmask &&& ~~~v } } := rfl

theorem State.issue_idle {s : State} (w : Word) (h : s.phase = .idle) : s.issue w = s.accept w := by
  simp [State.issue, h]

theorem State.issue_busy {s : State} (w : Word) (h : s.phase = .busy) : s.issue w = s.overrun := by
  simp [State.issue, h]

/-- A CSR write changes registers, flags, the phase and LAT, and nothing else. -/
theorem State.csrWrite_frame (s : State) (off : Nat) (v : Word) :
    (s.csrWrite off v).cfg = s.cfg ∧ (s.csrWrite off v).iv = s.iv ∧ (s.csrWrite off v).l2 = s.l2 ∧
    (s.csrWrite off v).evq = s.evq ∧ (s.csrWrite off v).mem = s.mem ∧ (s.csrWrite off v).faults = s.faults ∧
    (s.csrWrite off v).draws = s.draws ∧ (s.csrWrite off v).host = s.host := by
  unfold State.csrWrite
  split <;> (try exact ⟨rfl, rfl, rfl, rfl, rfl, rfl, rfl, rfl⟩)
  unfold State.issue
  split <;> exact ⟨rfl, rfl, rfl, rfl, rfl, rfl, rfl, rfl⟩

/-- A CSR write never sets a WARNMASK bit. -/
theorem State.csrWrite_warnmask_le (s : State) (off : Nat) (v : Word) (p : Nat)
    (h : s.csr.warnmask.getLsbD p = false) : (s.csrWrite off v).csr.warnmask.getLsbD p = false := by
  unfold State.csrWrite
  split <;> (try exact h)
  · unfold State.issue; split <;> exact h
  · simp [h]

/-! ## Reads -/

@[simp] theorem State.csrValue_cmd (s : State) : s.csrValue 0x00 = s.csr.cmd := rfl
@[simp] theorem State.csrValue_status (s : State) : s.csrValue 0x04 = s.status := rfl
@[simp] theorem State.csrValue_cause (s : State) : s.csrValue 0x08 = s.csr.cause.setWidth 32 := rfl
@[simp] theorem State.csrValue_info (s : State) : s.csrValue 0x0C = s.csr.info := rfl
@[simp] theorem State.csrValue_src (s : State) : s.csrValue 0x10 = s.csr.src := rfl
@[simp] theorem State.csrValue_dst (s : State) : s.csrValue 0x14 = s.csr.dst := rfl
@[simp] theorem State.csrValue_len (s : State) : s.csrValue 0x18 = s.csr.len := rfl
@[simp] theorem State.csrValue_aux (s : State) : s.csrValue 0x1C = s.csr.aux := rfl
@[simp] theorem State.csrValue_incnt (s : State) : s.csrValue 0x20 = s.csr.incnt := rfl
@[simp] theorem State.csrValue_outcnt (s : State) : s.csrValue 0x24 = s.csr.outcnt := rfl
@[simp] theorem State.csrValue_lfsr (s : State) : s.csrValue 0x28 = s.csr.lfsr.setWidth 32 := rfl
@[simp] theorem State.csrValue_ivstat (s : State) : s.csrValue 0x2C = s.ivstat := rfl
@[simp] theorem State.csrValue_irqen (s : State) : s.csrValue 0x30 = s.csr.irqen.setWidth 32 := rfl
@[simp] theorem State.csrValue_warnmask (s : State) : s.csrValue 0x34 = s.csr.warnmask := rfl
@[simp] theorem State.csrValue_evq (s : State) : s.csrValue 0x38 = s.evqHead := rfl
@[simp] theorem State.csrValue_l2frames (s : State) : s.csrValue 0x3C = s.l2frames := rfl

/-- Every bit of STATUS (R24). -/
theorem State.status_getLsbD (s : State) (i : Nat) : s.status.getLsbD i =
    [s.busy, s.csr.flags.done, s.csr.flags.err, s.csr.flags.warn, s.csr.flags.stall, s.csr.flags.cmdovr,
      s.evpend, s.csr.flags.evovf, s.irq].getD i false := by
  rw [State.status, BitVec.getLsbD_setWidth, BitVec.getLsbD_ofBoolListLE]
  by_cases h : i < 9
  · simp [show i < 32 by omega]
  · simp [List.getElem?_eq_none (l := [s.busy, s.csr.flags.done, s.csr.flags.err, s.csr.flags.warn,
      s.csr.flags.stall, s.csr.flags.cmdovr, s.evpend, s.csr.flags.evovf, s.irq]) (by simpa using h)]

/-- Every bit of IVSTAT (R32). -/
theorem State.ivstat_getLsbD (s : State) (i : Nat) :
    s.ivstat.getLsbD i = (decide (i < 32) && (s.ivAt i).half) := by
  rw [State.ivstat, BitVec.getLsbD_setWidth, BitVec.getLsbD_ofBoolListLE]
  by_cases h : i < s.iv.length <;> simp [State.ivAt, h]

end Sys2Proof.Machine
end

