-- ==== Sys2Proof/Laws/Decode.lean ====
section
/-! SUPPORT. Command words as numbers: the fields of a word, the word of a command, and when a row of the opcode map
selects a word. -/

namespace Sys2Proof

theorem opcField_eq (w : Word) : opcField w = w.toNat % 256 := by
  simp [opcField, BitVec.extractLsb'_toNat]

theorem selField_eq (w : Word) : selField w = w.toNat / 256 % 16 := by
  simp [selField, BitVec.extractLsb'_toNat, Nat.shiftRight_eq_div_pow]

theorem rsvField_toNat (w : Word) : (rsvField w).toNat = w.toNat / 4096 % 16 := by
  simp [rsvField, BitVec.extractLsb'_toNat, Nat.shiftRight_eq_div_pow]

theorem immField_toNat (w : Word) : (immField w).toNat = w.toNat / 65536 := by
  have : w.toNat < 2 ^ 32 := w.isLt
  simp only [immField, BitVec.extractLsb'_toNat, Nat.shiftRight_eq_div_pow]
  omega

/-- The number of a command word. -/
theorem packWord_toNat (opc sel imm : Nat) :
    (packWord opc sel imm).toNat = imm % 65536 * 65536 + sel % 16 * 256 + opc % 256 := by
  simp only [packWord, BitVec.toNat_append, BitVec.toNat_ofNat]
  rw [← Nat.shiftLeft_add_eq_or_of_lt (b := opc % 2 ^ 8) (i := 8) (by omega),
    ← Nat.shiftLeft_add_eq_or_of_lt (b := sel % 2 ^ 4) (i := 4) (by omega)]
  simp only [Nat.shiftLeft_eq, Nat.zero_mod, Nat.or_zero]
  omega

/-- A row whose mask covers OPC and SEL selects a word iff the low 12 bits of the word are its pattern. -/
theorem and_mask12_eq (w p : Word) :
    (w &&& 0x00000FFF == p) = decide (w.toNat % 4096 = p.toNat) := by
  rw [Bool.eq_iff_iff, beq_iff_eq, decide_eq_true_eq, ← BitVec.toNat_inj, BitVec.toNat_and]
  rw [show BitVec.toNat (0x00000FFF : Word) = 2 ^ 12 - 1 from rfl, Nat.and_two_pow_sub_one_eq_mod]

/-- A row whose mask covers OPC alone selects a word iff the low 8 bits of the word are its pattern. -/
theorem and_mask8_eq (w p : Word) :
    (w &&& 0x000000FF == p) = decide (w.toNat % 256 = p.toNat) := by
  rw [Bool.eq_iff_iff, beq_iff_eq, decide_eq_true_eq, ← BitVec.toNat_inj, BitVec.toNat_and]
  rw [show BitVec.toNat (0x000000FF : Word) = 2 ^ 8 - 1 from rfl, Nat.and_two_pow_sub_one_eq_mod]

/-- At most one row selects a word, so the row that selects it is the row that decoding finds. -/
theorem opcodeTable_find (w : Word) (r : OpRow) (hr : r ∈ opcodeTable) (hs : r.selects w = true) :
    opcodeTable.find? (fun q => q.selects w) = some r := by
  have h8 : ∀ n, n % 256 ≠ 33 → w.toNat % 256 = 33 → decide (w.toNat % 4096 = n) = false := by
    intro n hn h; rw [decide_eq_false_iff_not]; omega
  simp only [opcodeTable, List.mem_cons, List.not_mem_nil, or_false] at hr
  rcases hr with rfl | rfl | rfl | rfl | rfl | rfl | rfl | rfl | rfl | rfl | rfl | rfl | rfl | rfl | rfl <;>
    simp only [OpRow.selects, and_mask12_eq, and_mask8_eq, decide_eq_true_eq, opcodeTable, List.find?] at hs ⊢ <;>
    simp at hs <;>
    first
      | (rw [hs]
         have h2 : w.toNat % 256 ≠ 33 := by omega
         simp [h2])
      | simp [hs, h8 0 (by decide) hs, h8 1 (by decide) hs, h8 16 (by decide) hs, h8 17 (by decide) hs,
          h8 18 (by decide) hs, h8 274 (by decide) hs, h8 32 (by decide) hs, h8 288 (by decide) hs]

/-- Two words with the same number are one word. -/
theorem word_eq_of_toNat {v w : Word} (h : v.toNat = w.toNat) : v = w := BitVec.toNat_inj.1 h

end Sys2Proof
end

