-- ==== Sys2Proof/Laws/Memory.lean ====
section
/-! SUPPORT. Laws of BUFMEM: a read after a write, the canonical form, and block reads and writes (20_memory.md R60 to
R64). -/

namespace Sys2Proof.Machine

/-! ## One byte -/

@[simp] theorem Memory.write_powerOn (m : Memory) (a : Nat) (v : Byte) :
    (m.write a v).powerOn = m.powerOn := rfl

theorem find_eraseCell (a b : Nat) (l : List Host.Cell) :
    (eraseCell a l).find? (fun c => c.1 == b) = if b = a then none else l.find? (fun c => c.1 == b) := by
  induction l with
  | nil => simp [eraseCell]
  | cons c l ih =>
    simp only [eraseCell] at ih ⊢
    by_cases hc : c.1 = a
    · by_cases hb : b = a
      · simp_all
      · simp_all [Ne.symm hb]
    · by_cases hb : c.1 = b <;> simp_all

theorem find_insertCell (a b : Nat) (v : Byte) (l : List Host.Cell) (h : ∀ c ∈ l, c.1 ≠ a) :
    (insertCell a v l).find? (fun c => c.1 == b) =
      if b = a then some (a, v) else l.find? (fun c => c.1 == b) := by
  induction l with
  | nil => by_cases hb : b = a <;> simp [insertCell, hb, Ne.symm]
  | cons c l ih =>
    have hc : c.1 ≠ a := h c (by simp)
    have hl : ∀ d ∈ l, d.1 ≠ a := fun d hd => h d (by simp [hd])
    simp only [insertCell]
    by_cases hb : b = a
    · subst hb
      split <;> simp_all
    · have hab : (a == b) = false := by simpa using fun e => hb e.symm
      split
      · simp [hab]
      · simp only [List.find?_cons, ih hl, if_neg hb]

theorem mem_eraseCell {a : Nat} {l : List Host.Cell} {c : Host.Cell} :
    c ∈ eraseCell a l ↔ c ∈ l ∧ c.1 ≠ a := by simp [eraseCell]

theorem mem_insertCell {a : Nat} {v : Byte} {l : List Host.Cell} {c : Host.Cell} :
    c ∈ insertCell a v l ↔ c = (a, v) ∨ c ∈ l := by
  induction l with
  | nil => simp [insertCell]
  | cons d l ih =>
    simp only [insertCell]
    split
    · simp
    · simp [ih]; tauto

/-- A read after a write gives the written byte at that address, and any other address reads as before. -/
theorem Memory.read_write (m : Memory) (a b : Nat) (v : Byte) :
    (m.write a v).read b = if b = a then v else m.read b := by
  have hne : ∀ c ∈ eraseCell a m.cells, c.1 ≠ a := fun c hc => (mem_eraseCell.1 hc).2
  by_cases hv : v = m.powerOn.byteAt a
  · by_cases hb : b = a <;> simp [Memory.read, Memory.write, ← hv, find_eraseCell, hb]
  · by_cases hb : b = a <;>
      simp [Memory.read, Memory.write, hv, find_insertCell _ _ _ _ hne, find_eraseCell, hb]

@[simp] theorem Memory.read_write_same (m : Memory) (a : Nat) (v : Byte) : (m.write a v).read a = v := by
  simp [Memory.read_write]

theorem Memory.read_write_ne (m : Memory) {a b : Nat} (v : Byte) (h : b ≠ a) :
    (m.write a v).read b = m.read b := by simp [Memory.read_write, h]

/-! ## The canonical form -/

theorem risingCells_iff (l : List Host.Cell) :
    risingCells l = true ↔ l.Pairwise (fun c d => c.1 < d.1) := by
  induction l with
  | nil => simp [risingCells]
  | cons c l ih =>
    cases l with
    | nil => simp [risingCells]
    | cons d l =>
      simp only [risingCells, Bool.and_eq_true, decide_eq_true_eq, ih, List.pairwise_cons]
      constructor
      · rintro ⟨hcd, hd, hl⟩
        refine ⟨?_, hd, hl⟩
        intro e he
        rcases List.mem_cons.1 he with rfl | he
        · exact hcd
        · exact lt_trans hcd (hd e he)
      · rintro ⟨hc, hd, hl⟩
        exact ⟨hc d (by simp), hd, hl⟩

theorem pairwise_insertCell (a : Nat) (v : Byte) (l : List Host.Cell)
    (h : l.Pairwise (fun c d => c.1 < d.1)) (hne : ∀ c ∈ l, c.1 ≠ a) :
    (insertCell a v l).Pairwise (fun c d => c.1 < d.1) := by
  induction l with
  | nil => simp [insertCell]
  | cons c l ih =>
    rw [List.pairwise_cons] at h
    have hc := hne c (by simp)
    simp only [insertCell]
    split
    · next hac =>
      refine List.pairwise_cons.2 ⟨?_, List.pairwise_cons.2 h⟩
      intro d hd
      rcases List.mem_cons.1 hd with rfl | hd
      · exact hac
      · exact lt_trans hac (h.1 d hd)
    · next hac =>
      refine List.pairwise_cons.2 ⟨?_, ih h.2 (fun d hd => hne d (by simp [hd]))⟩
      intro d hd
      rcases mem_insertCell.1 hd with rfl | hd
      · exact lt_of_le_of_ne (not_lt.1 hac) hc
      · exact h.1 d hd

/-- Every write keeps the canonical form. -/
theorem Memory.wf_write (m : Memory) (a : Nat) (v : Byte) (h : m.wf = true) : (m.write a v).wf = true := by
  simp only [Memory.wf, Bool.and_eq_true, risingCells_iff, List.all_eq_true, bne_iff_ne] at h ⊢
  obtain ⟨hp, hn⟩ := h
  have hpe : (eraseCell a m.cells).Pairwise (fun c d => c.1 < d.1) := hp.filter _
  have hne : ∀ c ∈ eraseCell a m.cells, c.1 ≠ a := fun c hc => (mem_eraseCell.1 hc).2
  by_cases hv : v = m.powerOn.byteAt a
  · refine ⟨by simpa [Memory.write, ← hv] using hpe, ?_⟩
    intro c hc
    simp only [Memory.write, ← hv, if_true] at hc
    exact hn c (mem_eraseCell.1 hc).1
  · refine ⟨by simpa [Memory.write, hv] using pairwise_insertCell a v _ hpe hne, ?_⟩
    intro c hc
    simp only [Memory.write, hv, if_false] at hc
    rcases mem_insertCell.1 hc with rfl | hc
    · exact hv
    · exact hn c (mem_eraseCell.1 hc).1

/-- A write below `n` keeps all listed cells below `n`. -/
theorem Memory.below_write (m : Memory) (a n : Nat) (v : Byte) (h : m.below n = true) (ha : a < n) :
    (m.write a v).below n = true := by
  simp only [Memory.below, List.all_eq_true, decide_eq_true_eq] at h ⊢
  intro c hc
  simp only [Memory.write] at hc
  split at hc
  · exact h c (mem_eraseCell.1 hc).1
  · rcases mem_insertCell.1 hc with rfl | hc
    · exact ha
    · exact h c (mem_eraseCell.1 hc).1

/-- A canonical memory with no entry in it lists nothing. -/
theorem Memory.wf_empty (p : PowerOn) : (Memory.mk p []).wf = true := rfl

/-! ## Writes one after another -/

@[simp] theorem Memory.writeAll_nil (m : Memory) : m.writeAll [] = m := rfl

@[simp] theorem Memory.writeAll_cons (m : Memory) (w : Nat × Byte) (ws : List (Nat × Byte)) :
    m.writeAll (w :: ws) = (m.write w.1 w.2).writeAll ws := rfl

/-- An address that no write names reads as before. -/
theorem Memory.read_writeAll_of_notMem (m : Memory) (ws : List (Nat × Byte)) (b : Nat)
    (h : b ∉ ws.map Prod.fst) : (m.writeAll ws).read b = m.read b := by
  induction ws generalizing m with
  | nil => rfl
  | cons w ws ih =>
    simp only [List.map_cons, List.mem_cons, not_or] at h
    rw [Memory.writeAll_cons, ih _ h.2, Memory.read_write_ne _ _ h.1]

/-- Where the writes name distinct addresses, each address reads as its write says. -/
theorem Memory.read_writeAll_of_mem (m : Memory) (ws : List (Nat × Byte)) (w : Nat × Byte)
    (hd : (ws.map Prod.fst).Nodup) (hw : w ∈ ws) : (m.writeAll ws).read w.1 = w.2 := by
  induction ws generalizing m with
  | nil => simp at hw
  | cons x ws ih =>
    simp only [List.map_cons, List.nodup_cons] at hd
    rw [Memory.writeAll_cons]
    rcases List.mem_cons.1 hw with rfl | hw
    · rw [Memory.read_writeAll_of_notMem _ _ _ hd.1, Memory.read_write_same]
    · exact ih _ hd.2 hw

theorem Memory.wf_writeAll (m : Memory) (ws : List (Nat × Byte)) (h : m.wf = true) :
    (m.writeAll ws).wf = true := by
  induction ws generalizing m with
  | nil => exact h
  | cons w ws ih => exact ih _ (m.wf_write _ _ h)

theorem Memory.below_writeAll (m : Memory) (ws : List (Nat × Byte)) (n : Nat) (h : m.below n = true)
    (hw : ∀ w ∈ ws, w.1 < n) : (m.writeAll ws).below n = true := by
  induction ws generalizing m with
  | nil => exact h
  | cons w ws ih =>
    exact ih _ (m.below_write _ _ _ h (hw w (by simp))) (fun x hx => hw x (by simp [hx]))

/-! ## Blocks -/

@[simp] theorem Memory.length_readBlock (m : Memory) (a n : Nat) : (m.readBlock a n).length = n := by
  simp [Memory.readBlock]

theorem Memory.getElem_readBlock (m : Memory) (a n i : Nat) (h : i < (m.readBlock a n).length) :
    (m.readBlock a n)[i] = m.read (a + i) := by simp [Memory.readBlock]

theorem Memory.getD_readBlock (m : Memory) (a n i : Nat) (d : Byte) (h : i < n) :
    (m.readBlock a n).getD i d = m.read (a + i) := by
  simp [Memory.readBlock, List.getD, h]

@[simp] theorem Memory.writeBlock_nil (m : Memory) (a : Nat) : m.writeBlock a [] = m := rfl

@[simp] theorem Memory.writeBlock_cons (m : Memory) (a : Nat) (b : Byte) (bs : List Byte) :
    m.writeBlock a (b :: bs) = (m.write a b).writeBlock (a + 1) bs := rfl

/-- A block write leaves every address outside the block as it was. -/
theorem Memory.read_writeBlock_outside (m : Memory) (a : Nat) (bs : List Byte) (b : Nat)
    (h : b < a ∨ a + bs.length ≤ b) : (m.writeBlock a bs).read b = m.read b := by
  induction bs generalizing m a with
  | nil => rfl
  | cons x bs ih =>
    simp only [List.length_cons] at h
    rw [Memory.writeBlock_cons, ih _ _ (by omega), Memory.read_write_ne _ _ (by omega)]

/-- A block write puts element i of the block at address a + i. -/
theorem Memory.read_writeBlock_inside (m : Memory) (a : Nat) (bs : List Byte) (i : Nat) (d : Byte)
    (h : i < bs.length) : (m.writeBlock a bs).read (a + i) = bs.getD i d := by
  induction bs generalizing m a i with
  | nil => simp at h
  | cons x bs ih =>
    rw [Memory.writeBlock_cons]
    cases i with
    | zero => rw [Memory.read_writeBlock_outside _ _ _ _ (by omega)]; simp
    | succ i =>
      have := ih (m.write a x) (a + 1) i (by simpa using h)
      rw [show a + (i + 1) = a + 1 + i by omega, this]
      simp

theorem Memory.wf_writeBlock (m : Memory) (a : Nat) (bs : List Byte) (h : m.wf = true) :
    (m.writeBlock a bs).wf = true := by
  induction bs generalizing m a with
  | nil => exact h
  | cons x bs ih => exact ih _ _ (m.wf_write _ _ h)

theorem Memory.below_writeBlock (m : Memory) (a : Nat) (bs : List Byte) (n : Nat) (h : m.below n = true)
    (hn : a + bs.length ≤ n) : (m.writeBlock a bs).below n = true := by
  induction bs generalizing m a with
  | nil => exact h
  | cons x bs ih =>
    simp only [List.length_cons] at hn
    exact ih _ _ (m.below_write _ _ _ h (by omega)) (by omega)

/-! ## Host values (R65) -/

theorem getD_bytesLE (v n i : Nat) (d : Byte) (h : i < n) : (bytesLE v n).getD i d = BitVec.ofNat 8 (v / 256 ^ i) := by
  simp [bytesLE, List.getD, h]

@[simp] theorem length_bytesLE (v n : Nat) : (bytesLE v n).length = n := by simp [bytesLE]

/-- The little-endian value of the bytes of a number (R65). -/
theorem foldr_bytesLE (v n : Nat) :
    (bytesLE v n).foldr (fun b acc => b.toNat + 256 * acc) 0 = v % 256 ^ n := by
  induction n generalizing v with
  | zero => simp [bytesLE, Nat.mod_one]
  | succ n ih =>
    have h : bytesLE v (n + 1) = BitVec.ofNat 8 v :: bytesLE (v / 256) n := by
      simp [bytesLE, List.range_succ_eq_map, Nat.pow_succ', Nat.div_div_eq_div_mul]
    rw [h, List.foldr_cons, ih, Nat.pow_succ', Nat.mod_mul]
    simp

theorem Memory.readBlock_writeBlock (m : Memory) (a : Nat) (bs : List Byte) :
    (m.writeBlock a bs).readBlock a bs.length = bs := by
  apply List.ext_getElem (by simp)
  intro i h1 h2
  rw [Memory.getElem_readBlock, Memory.read_writeBlock_inside _ _ _ _ 0 h2, List.getD_eq_getElem _ _ h2]

/-- A host value as a sum over its bytes (R65). -/
theorem Memory.readLE_eq_sum (m : Memory) (a n : Nat) :
    m.readLE a n = ((List.range n).map (fun i => (m.read (a + i)).toNat * 256 ^ i)).sum := by
  unfold Memory.readLE Memory.readBlock
  induction n generalizing a with
  | zero => rfl
  | succ n ih =>
    have h := ih (a + 1)
    simp only [List.range_succ_eq_map, List.map_cons, List.map_map, List.foldr_cons, List.sum_cons, Function.comp_def,
      Nat.add_zero, Nat.pow_zero, Nat.mul_one, Nat.succ_eq_add_one, Nat.pow_succ, ← Nat.mul_assoc] at h ⊢
    simp only [Nat.add_assoc, Nat.add_comm 1] at h
    rw [h, ← List.sum_map_mul_left]
    simp only [Nat.mul_comm]

end Sys2Proof.Machine
end

