-- ==== Sys2Proof/Laws/Queues.lean ====
section
/-! SUPPORT. The AAS queues as a map from ports, the program table, the header length of a sub-frame, and the form of
an HDLC frame (44_l2_multiplexer.md R202 to R204). -/

namespace Sys2Proof.Machine

/-! ## AAS queues -/

@[simp] theorem queueOf_nil (q : Port) : queueOf [] q = [] := rfl

theorem queueOf_cons (e : Port × List Byte) (l : List (Port × List Byte)) (q : Port) :
    queueOf (e :: l) q = if e.1 = q then e.2 else queueOf l q := by
  by_cases h : e.1 = q <;> simp [queueOf, h]

/-- Reading a queue after one was replaced. -/
theorem queueOf_setQueue (q r : Port) (bs : List Byte) (l : List (Port × List Byte)) :
    queueOf (setQueue q bs l) r = if r = q then bs else queueOf l r := by
  induction l with
  | nil => rw [setQueue, queueOf_cons]; simp [eq_comm]
  | cons e l ih =>
    rw [setQueue]
    by_cases h1 : e.1 = q
    · rw [if_pos h1, queueOf_cons, queueOf_cons, h1]
      by_cases h : r = q
      · simp [h]
      · simp [h, Ne.symm h]
    · rw [if_neg h1]
      by_cases h2 : q < e.1
      · rw [if_pos h2, queueOf_cons (q, bs)]
        by_cases h : r = q
        · simp [h]
        · simp [h, Ne.symm h]
      · rw [if_neg h2, queueOf_cons, ih, queueOf_cons]
        by_cases h : r = q
        · subst h; simp [h1]
        · simp [h]

/-- The ports after a queue was replaced. -/
theorem mem_ports_setQueue (q r : Port) (bs : List Byte) (l : List (Port × List Byte)) :
    r ∈ (setQueue q bs l).map Prod.fst ↔ r = q ∨ r ∈ l.map Prod.fst := by
  induction l with
  | nil => simp [setQueue]
  | cons e l ih =>
    rw [setQueue]
    split_ifs with h1 h2
    · subst h1; simp
    · simp
    · rw [List.map_cons, List.mem_cons, ih, List.map_cons, List.mem_cons]; tauto

/-- An entry after a queue was replaced is the new one or an old one of another port. -/
theorem mem_setQueue {q : Port} {bs : List Byte} {l : List (Port × List Byte)} {e : Port × List Byte}
    (h : e ∈ setQueue q bs l) : e = (q, bs) ∨ (e ∈ l ∧ (l.Pairwise (fun a b => a.1 < b.1) → e.1 ≠ q)) := by
  induction l with
  | nil => simp [setQueue] at h; exact .inl h
  | cons d l ih =>
    rw [setQueue] at h
    split_ifs at h with h1 h2
    · rcases List.mem_cons.1 h with rfl | h
      · exact .inl rfl
      · refine .inr ⟨by simp [h], fun hp => ?_⟩
        have := (List.pairwise_cons.1 hp).1 e h
        rw [h1] at this
        exact fun he => by rw [he] at this; exact absurd this (BitVec.lt_irrefl q)
    · rcases List.mem_cons.1 h with rfl | h
      · exact .inl rfl
      · refine .inr ⟨h, fun hp => ?_⟩
        intro he
        rcases List.mem_cons.1 h with rfl | h
        · exact h1 he
        · have := (List.pairwise_cons.1 hp).1 e h
          rw [he] at this
          exact absurd (BitVec.lt_trans this h2) (BitVec.lt_irrefl _)
    · rcases List.mem_cons.1 h with rfl | h
      · exact .inr ⟨by simp, fun _ => h1⟩
      · rcases ih h with h | ⟨h3, h4⟩
        · exact .inl h
        · exact .inr ⟨by simp [h3], fun hp => h4 (List.pairwise_cons.1 hp).2⟩

/-- Replacing a queue keeps the order of the ports. -/
theorem pairwise_setQueue (q : Port) (bs : List Byte) (l : List (Port × List Byte))
    (h : l.Pairwise (fun a b => a.1 < b.1)) : (setQueue q bs l).Pairwise (fun a b => a.1 < b.1) := by
  induction l with
  | nil => simp [setQueue]
  | cons e l ih =>
    obtain ⟨h1, h2⟩ := List.pairwise_cons.1 h
    rw [setQueue]
    split_ifs with h3 h4
    · subst h3; exact List.pairwise_cons.2 ⟨h1, h2⟩
    · refine List.pairwise_cons.2 ⟨?_, h⟩
      intro x hx
      rcases List.mem_cons.1 hx with rfl | hx
      · exact h4
      · exact BitVec.lt_trans h4 (h1 x hx)
    · refine List.pairwise_cons.2 ⟨?_, ih h2⟩
      intro x hx
      rcases mem_setQueue hx with rfl | ⟨hx, _⟩
      · rw [BitVec.lt_def] at h4 ⊢
        have : q.toNat ≠ e.1.toNat := fun he => h3 (BitVec.toNat_inj.1 he.symm)
        show e.1.toNat < q.toNat
        omega
      · exact h1 x hx

/-- In ordered queues, the queue of a port is the entry that names it. -/
theorem queueOf_of_mem {l : List (Port × List Byte)} (h : l.Pairwise (fun a b => a.1 < b.1))
    {e : Port × List Byte} (he : e ∈ l) : queueOf l e.1 = e.2 := by
  induction l with
  | nil => simp at he
  | cons d l ih =>
    obtain ⟨h1, h2⟩ := List.pairwise_cons.1 h
    rw [queueOf_cons]
    rcases List.mem_cons.1 he with rfl | he
    · simp
    · rw [if_neg, ih h2 he]
      intro hd
      have := h1 e he
      rw [hd] at this
      exact absurd this (BitVec.lt_irrefl _)

/-- A port with a non-empty queue is a port of PORTS. -/
theorem mem_ports_of_queueOf {l : List (Port × List Byte)} {q : Port} (h : queueOf l q ≠ []) :
    q ∈ l.map Prod.fst := by
  induction l with
  | nil => simp at h
  | cons e l ih =>
    rw [queueOf_cons] at h
    by_cases he : e.1 = q
    · simp [he]
    · rw [if_neg he] at h; simp only [List.map_cons, List.mem_cons]; exact .inr (ih h)

/-- nextport answers a port of PORTS with a non-empty queue (R219). -/
theorem nextPort_mem {l : List (Port × List Byte)} {c : Option Port} {q : Port} (h : nextPort l c = some q) :
    ∃ e ∈ l, e.1 = q ∧ e.2 ≠ [] := by
  have hm : q ∈ busyPorts l := by
    unfold nextPort at h
    split at h
    · exact List.mem_of_head? h
    · split at h
      · next hf => injection h with h; subst h; exact List.mem_of_find?_eq_some hf
      · exact List.mem_of_head? h
  simp only [busyPorts, List.mem_map, List.mem_filter] at hm
  obtain ⟨e, ⟨he, hne⟩, rfl⟩ := hm
  exact ⟨e, he, rfl, by simpa using hne⟩

/-- nextport answers NONE exactly when every queue is empty (R219). -/
theorem nextPort_eq_none {l : List (Port × List Byte)} {c : Option Port} :
    nextPort l c = none ↔ ∀ e ∈ l, e.2 = [] := by
  have hb : busyPorts l = [] ↔ ∀ e ∈ l, e.2 = [] := by
    simp only [busyPorts, List.map_eq_nil_iff, List.filter_eq_nil_iff]
    simp
  rw [← hb]
  unfold nextPort
  split
  · exact List.head?_eq_none_iff
  · split
    · next hf =>
      constructor
      · intro h; cases h
      · intro h; rw [h] at hf; cases hf
    · exact List.head?_eq_none_iff

/-! ## nextport (R219) -/

/-- The busy ports are those with bytes waiting. -/
theorem mem_busyPorts {l : List (Port × List Byte)} (h : l.Pairwise (fun a b => a.1 < b.1)) (q : Port) :
    q ∈ busyPorts l ↔ queueOf l q ≠ [] := by
  constructor
  · intro hq
    simp only [busyPorts, List.mem_map, List.mem_filter] at hq
    obtain ⟨e, ⟨he, hn⟩, rfl⟩ := hq
    rw [queueOf_of_mem h he]; simpa using hn
  · intro hq
    obtain ⟨e, he, rfl⟩ := List.mem_map.1 (mem_ports_of_queueOf hq)
    rw [queueOf_of_mem h he] at hq
    simp only [busyPorts, List.mem_map, List.mem_filter]
    exact ⟨e, ⟨he, by simpa using hq⟩, rfl⟩

/-- They stand in rising order. -/
theorem pairwise_busyPorts {l : List (Port × List Byte)} (h : l.Pairwise (fun a b => a.1 < b.1)) :
    (busyPorts l).Pairwise (· < ·) := by
  rw [busyPorts, List.pairwise_map]
  exact h.filter _

/-- The head of a rising list is its least member. -/
theorem rising_head_le {l : List Port} (h : l.Pairwise (· < ·)) {q : Port} (hq : l.head? = some q) :
    ∀ r ∈ l, q ≤ r := by
  cases l with
  | nil => cases hq
  | cons a l =>
    injection hq with hq; subst hq
    intro r hr
    rcases List.mem_cons.1 hr with rfl | hr
    · exact BitVec.le_refl _
    · exact BitVec.le_of_lt ((List.pairwise_cons.1 h).1 r hr)

/-- What a search of a rising list finds is the least member it could find. -/
theorem rising_find_le {l : List Port} (h : l.Pairwise (· < ·)) {p : Port → Bool} {q : Port} (hq : l.find? p = some q) :
    ∀ r ∈ l, p r = true → q ≤ r := by
  intro r hr hp
  have := rising_head_le (h.filter p) (q := q) (by rw [List.head?_filter]; exact hq)
  exact this r (by simp [hr, hp])

/-! ## Programs -/

theorem State.progAt_setProg (s : State) (p q : Nat) (v : ProgState) (hp : p < s.l2.progs.length) :
    (s.setProg p v).progAt q = if q = p then v else s.progAt q := by
  by_cases h : q = p
  · subst h; simp [State.progAt, State.setProg, List.getD, hp]
  · simp [State.progAt, State.setProg, List.getD, List.getElem?_set_ne (Ne.symm h), h]

theorem State.progAt_mem (s : State) (p : Nat) (hp : p < s.l2.progs.length) : s.progAt p ∈ s.l2.progs := by
  rw [State.progAt, List.getD_eq_getElem _ _ hp]; exact List.getElem_mem hp

/-! ## Headers and frames -/

/-- F as a number (R202). -/
theorem adtsLength_eq (h : List Byte) : adtsLength h =
    (h.getD 3 0).toNat % 4 * 2048 + (h.getD 4 0).toNat * 8 + (h.getD 5 0).toNat / 32 := by
  have gen : ∀ a b c : Byte,
      (((a &&& 3).setWidth 13 <<< 11) ||| (b.setWidth 13 <<< 3) ||| ((c >>> 5).setWidth 13) : BitVec 13).toNat =
        a.toNat % 4 * 2048 + b.toNat * 8 + c.toNat / 32 := by
    intro a b c
    have ha : (a &&& 3).toNat = a.toNat % 4 := by
      rw [BitVec.toNat_and]; exact Nat.and_two_pow_sub_one_eq_mod a.toNat 2
    have hb := b.isLt
    have hc := c.isLt
    have hc' : (c >>> 5).toNat = c.toNat / 32 := by simp [BitVec.toNat_ushiftRight, Nat.shiftRight_eq_div_pow]
    have h1 : ((a &&& 3).setWidth 13 <<< 11 : BitVec 13).toNat = a.toNat % 4 * 2048 := by
      rw [BitVec.toNat_shiftLeft, BitVec.toNat_setWidth, ha, Nat.shiftLeft_eq]; omega
    have h2 : (b.setWidth 13 <<< 3 : BitVec 13).toNat = b.toNat * 8 := by
      rw [BitVec.toNat_shiftLeft, BitVec.toNat_setWidth, Nat.shiftLeft_eq]; omega
    have h3 : ((c >>> 5).setWidth 13 : BitVec 13).toNat = c.toNat / 32 := by
      rw [BitVec.toNat_setWidth, hc']; omega
    rw [BitVec.toNat_or, BitVec.toNat_or, h1, h2, h3]
    have e1 : a.toNat % 4 * 2048 ||| b.toNat * 8 = a.toNat % 4 * 2048 + b.toNat * 8 := by
      have := Nat.shiftLeft_add_eq_or_of_lt (b := b.toNat * 8) (i := 11) (by omega) (a.toNat % 4)
      rw [Nat.shiftLeft_eq] at this; exact this.symm
    rw [e1]
    have := Nat.shiftLeft_add_eq_or_of_lt (b := c.toNat / 32) (i := 3) (by omega) (a.toNat % 4 * 256 + b.toNat)
    rw [Nat.shiftLeft_eq] at this
    rw [show a.toNat % 4 * 2048 + b.toNat * 8 = (a.toNat % 4 * 256 + b.toNat) * 2 ^ 3 by omega]
    exact this.symm
  exact gen _ _ _

/-- A block is one flag-delimited frame iff no index offends (R204). -/
theorem hdlcBad_eq_none (f : List Byte) : hdlcBad f = none ↔ ∀ i, i < f.length → hdlcOffends f i = false := by
  rw [hdlcBad, List.find?_eq_none]
  simp

/-- The lowest offending index. -/
theorem hdlcBad_eq_some (f : List Byte) (k : Nat) (hk : k < f.length) (h : hdlcOffends f k = true)
    (hlt : ∀ j, j < k → hdlcOffends f j = false) : hdlcBad f = some k := by
  rw [hdlcBad, List.find?_range_eq_some]
  exact ⟨h, by simpa using hk, fun j hj => by simpa using hlt j hj⟩

end Sys2Proof.Machine
end

