-- ==== Sys2Proof/Laws/Fds.lean ====
section
/-! SUPPORT. The fixed-data subchannel: what taking a byte can do, the length and the positions of the stream, the
event queue it feeds, and the HDLC frames it keeps whole (44_l2_multiplexer.md R204, R216 to R221). -/

namespace Sys2Proof.Machine

/-! ## Taking one byte (R220) -/

@[simp] theorem FdsState.seek_aasq (z : FdsState) : z.seek.aasq = z.aasq := by
  unfold FdsState.seek; split_ifs <;> (try split) <;> (try split_ifs) <;> rfl

@[simp] theorem FdsState.seek_inPdu (z : FdsState) : z.seek.inPdu = z.inPdu := by
  unfold FdsState.seek; split_ifs <;> (try split) <;> (try split_ifs) <;> rfl

@[simp] theorem FdsState.seek_fdsPos (z : FdsState) : z.seek.fdsPos = z.fdsPos := by
  unfold FdsState.seek; split_ifs <;> (try split) <;> (try split_ifs) <;> rfl

@[simp] theorem FdsState.seek_evq (z : FdsState) : z.seek.evq = z.evq := by
  unfold FdsState.seek; split_ifs <;> (try split) <;> (try split_ifs) <;> rfl

theorem FdsState.seek_inside {z : FdsState} (h : z.inPdu = true) : z.seek = z := by
  simp [FdsState.seek, h]

/-- Where the cursor stands after the search: where it stood, or at the port nextport found. -/
theorem FdsState.seek_curPort (z : FdsState) :
    z.seek.curPort = z.curPort ∨ z.seek.curPort = nextPort z.aasq z.curPort := by
  unfold FdsState.seek
  split_ifs
  · exact .inl rfl
  · split
    · next h => right; rw [h]
    · next c h => split_ifs with he <;> [(right; rw [h]); exact .inl rfl]

/-- What fds_byte can do: answer FDS_IDLE, or take the head of the queue of the port it settled on. -/
theorem fdsByte_cases (c : Cfg) (z : FdsState) :
    (fdsByte c z = (c.fdsIdle, z.seek)) ∨
    (∃ p b bs, z.seek.curPort = some p ∧ queueOf z.aasq p = b :: bs ∧
      fdsByte c z = (b, ({ z.seek with aasq := setQueue p bs z.aasq } : FdsState).afterByte c p b)) := by
  unfold fdsByte
  split
  · exact .inl rfl
  · next p hp =>
    split
    · exact .inl rfl
    · next b bs hq =>
      rw [FdsState.seek_aasq] at hq
      exact .inr ⟨p, b, bs, hp, hq, by rw [FdsState.seek_aasq]⟩

/-- The state after a byte: the stream position stays, and the event queue keeps its capacity. -/
theorem FdsState.afterByte_fdsPos (c : Cfg) (z : FdsState) (p : Port) (b : Byte) :
    (z.afterByte c p b).fdsPos = z.fdsPos := by
  unfold FdsState.afterByte FdsState.closePdu
  split_ifs <;> rfl

theorem FdsState.afterByte_evq (c : Cfg) (z : FdsState) (p : Port) (b : Byte) (h : z.evq.length ≤ c.evqDepth) :
    (z.afterByte c p b).evq.length ≤ c.evqDepth := by
  unfold FdsState.afterByte FdsState.closePdu FdsState.emit pushEvent
  split_ifs <;> first | exact h | (simp; omega)

theorem fdsByte_fdsPos (c : Cfg) (z : FdsState) : (fdsByte c z).2.fdsPos = z.fdsPos := by
  rcases fdsByte_cases c z with h | ⟨p, b, bs, _, _, h⟩ <;> rw [h]
  · exact z.seek_fdsPos
  · simp [FdsState.afterByte_fdsPos]

theorem fdsByte_evq (c : Cfg) (z : FdsState) (h : z.evq.length ≤ c.evqDepth) :
    (fdsByte c z).2.evq.length ≤ c.evqDepth := by
  rcases fdsByte_cases c z with e | ⟨p, b, bs, _, _, e⟩ <;> rw [e]
  · simpa using h
  · exact FdsState.afterByte_evq _ _ _ _ (by simpa using h)

/-- With every queue empty, fds_byte answers FDS_IDLE, and no queue fills (R220). -/
theorem fdsByte_empty (c : Cfg) (z : FdsState) (h : ∀ e ∈ z.aasq, e.2 = []) :
    fdsByte c z = (c.fdsIdle, z.seek) := by
  rcases fdsByte_cases c z with e | ⟨p, b, bs, _, hq, _⟩
  · exact e
  · unfold queueOf at hq
    split at hq
    · next d hd => rw [h d (List.mem_of_find?_eq_some hd)] at hq; cases hq
    · cases hq

/-! ## The stream (R218) -/

@[simp] theorem fdsStream_fdsPos (c : Cfg) (z : FdsState) : (fdsStream c z).2.fdsPos = z.fdsPos + 1 := by
  unfold fdsStream
  simp only
  split_ifs
  · rfl
  · exact fdsByte_fdsPos c _

theorem fdsStream_evq (c : Cfg) (z : FdsState) (h : z.evq.length ≤ c.evqDepth) :
    (fdsStream c z).2.evq.length ≤ c.evqDepth := by
  unfold fdsStream
  simp only
  split_ifs
  · exact h
  · exact fdsByte_evq c _ h

/-- The block boundary marker stands at the first four positions of each period (R218). -/
theorem fdsStream_marker (c : Cfg) (z : FdsState) (h : z.fdsPos % c.bbmPeriod < 4) :
    (fdsStream c z).1 = c.bbmBytes.getD (z.fdsPos % c.bbmPeriod) 0 := by simp [fdsStream, h]

theorem fdsStream_empty (c : Cfg) (z : FdsState) (h : ∀ e ∈ z.aasq, e.2 = []) :
    (fdsStream c z).2.aasq = z.aasq ∧ (4 ≤ z.fdsPos % c.bbmPeriod → (fdsStream c z).1 = c.fdsIdle) := by
  unfold fdsStream
  simp only
  split_ifs with hp
  · exact ⟨rfl, fun h4 => absurd hp (by omega)⟩
  · rw [fdsByte_empty c { z with fdsPos := z.fdsPos + 1 } h]
    exact ⟨FdsState.seek_aasq _, fun _ => rfl⟩

/-- The state after one more byte is that of the stream byte taken from the state before it. -/
theorem fdsTake_succ (c : Cfg) (n : Nat) (z : FdsState) :
    (fdsTake c (n + 1) z).2 = (fdsStream c (fdsTake c n z).2).2 := by
  induction n generalizing z with
  | zero => rfl
  | succ n ih => exact ih (fdsStream c z).2

/-- A property of the working state that each byte of the stream keeps holds after any number of bytes. -/
theorem fdsTake_induction (c : Cfg) (P : FdsState → Prop) (hs : ∀ z, P z → P (fdsStream c z).2) (n : Nat)
    (z : FdsState) (h : P z) : P (fdsTake c n z).2 := by
  induction n generalizing z with
  | zero => exact h
  | succ n ih => exact ih _ (hs z h)

@[simp] theorem length_fdsTake (c : Cfg) (n : Nat) (z : FdsState) : (fdsTake c n z).1.length = n := by
  induction n generalizing z with
  | zero => rfl
  | succ n ih => simp [fdsTake, ih]

@[simp] theorem fdsTake_fdsPos (c : Cfg) (n : Nat) (z : FdsState) :
    (fdsTake c n z).2.fdsPos = z.fdsPos + n := by
  induction n generalizing z with
  | zero => rfl
  | succ n ih => simp only [fdsTake, ih, fdsStream_fdsPos]; omega

/-- Byte `i` of the stream is the byte of the stream state after `i` bytes. -/
theorem getD_fdsTake (c : Cfg) (n i : Nat) (z : FdsState) (h : i < n) :
    (fdsTake c n z).1.getD i 0 = (fdsStream c (fdsTake c i z).2).1 := by
  induction n generalizing z i with
  | zero => omega
  | succ n ih =>
    cases i with
    | zero => rfl
    | succ i => simpa [fdsTake] using ih i (fdsStream c z).2 (by omega)

/-! ## Whole HDLC frames (R204) -/

@[simp] theorem hdlcWhole_nil (x : Bool) : hdlcWhole x [] = !x := by cases x <;> rfl

@[simp] theorem hdlcWhole_cons (x : Bool) (b : Byte) (bs : List Byte) :
    hdlcWhole x (b :: bs) = if b = hdlcFlag then hdlcWhole (!x) bs else x && hdlcWhole x bs := by
  cases x <;> by_cases h : b = hdlcFlag <;> simp [hdlcWhole, h]

/-- Frames after whole frames (R204). -/
theorem hdlcWhole_append (x : Bool) (a b : List Byte) (h : hdlcWhole x a = true) :
    hdlcWhole x (a ++ b) = hdlcWhole false b := by
  induction a generalizing x with
  | nil => cases x <;> simp at h ⊢
  | cons y a ih =>
    rw [List.cons_append, hdlcWhole_cons]
    rw [hdlcWhole_cons] at h
    split_ifs at h ⊢ with hy
    · exact ih _ h
    · rw [Bool.and_eq_true] at h; rw [ih _ h.2, h.1]; rfl

theorem hdlcWhole_inside (m : List Byte) (h : ∀ b ∈ m, b ≠ hdlcFlag) : hdlcWhole true (m ++ [hdlcFlag]) = true := by
  induction m with
  | nil => simp
  | cons b m ih =>
    simp only [List.mem_cons, forall_eq_or_imp] at h
    simp [h.1, ih h.2]

/-- A block that passes the check of AASQ is one whole frame (R204). -/
theorem hdlcWhole_of_hdlcBad {f : List Byte} (hl : 2 ≤ f.length) (h : hdlcBad f = none) :
    hdlcWhole false f = true := by
  rw [hdlcBad_eq_none] at h
  obtain ⟨a, t, rfl⟩ := List.exists_cons_of_ne_nil (l := f) (by rintro rfl; simp at hl)
  have ht : t ≠ [] := by rintro rfl; simp at hl
  obtain ⟨m, z, rfl⟩ : ∃ m z, t = m ++ [z] := ⟨t.dropLast, t.getLast ht, (List.dropLast_append_getLast ht).symm⟩
  have h0 := h 0 (by simp)
  have hz := h (m.length + 1) (by simp)
  have ha : a = hdlcFlag := by simpa [hdlcOffends] using h0
  have hz' : z = hdlcFlag := by simpa [hdlcOffends] using hz
  subst ha hz'
  rw [hdlcWhole_cons, if_pos rfl]
  refine hdlcWhole_inside m (fun b hb => ?_)
  obtain ⟨i, hi, rfl⟩ := List.mem_iff_getElem.1 hb
  have := h (i + 1) (by simp; omega)
  simpa [hdlcOffends, List.getD, show i < m.length + 1 by omega, List.getElem_append, hi, show i ≠ m.length by omega] using this

end Sys2Proof.Machine
end

