-- ==== Sys2Proof/Laws/Interleaver.lean ====
section
/-! SUPPORT. The cells of the interleavers: the map of R144 is a bijection, the cells of a type IV call are distinct
and lie in the buffer, and what setting cells does. -/

namespace Sys2Proof.Machine

/-! ## Lists without repeats -/

theorem distinct_iff_nodup {α : Type} [BEq α] [LawfulBEq α] (l : List α) : distinct l = true ↔ l.Nodup := by
  induction l with
  | nil => simp [distinct]
  | cons a l ih => simp [distinct, ih]

theorem getD_inj_of_distinct {l : List Nat} (hd : distinct l = true) {i j : Nat} (hi : i < l.length)
    (hj : j < l.length) (h : l.getD i 0 = l.getD j 0) : i = j := by
  simp only [List.getD, List.getElem?_eq_getElem hi, List.getElem?_eq_getElem hj, Option.getD_some] at h
  exact (List.Nodup.getElem_inj_iff ((distinct_iff_nodup l).1 hd)).1 h

/-! ## Types I and II (R144) -/

/-- The ki of a row and a column: the inverse of the map of R144. -/
def kiOf (r c : Nat) : Nat :=
  let a := (c + 32 - r) % 4
  let x := 3 * r % 32
  let y := (c + 36 - a) * 23 % 36
  288 * a + (32 * ((36 + x - y) / 4 % 9) + x)

theorem kiOf_left : ∀ k < 1152, kiOf (kiRow k) (kiCol k) = k := by decide +kernel

theorem kiOf_right : ∀ r < 32, ∀ c < 36, kiOf r c < 1152 ∧ kiRow (kiOf r c) = r ∧ kiCol (kiOf r c) = c := by
  decide +kernel

/-- The map of R144 is injective. -/
theorem ki_injective {i j : Nat} (hi : i < 1152) (hj : j < 1152) (hr : kiRow i = kiRow j)
    (hc : kiCol i = kiCol j) : i = j := by
  rw [← kiOf_left i hi, ← kiOf_left j hj, hr, hc]

/-- The map of R144 takes every row and column. -/
theorem ki_surjective {r c : Nat} (hr : r < 32) (hc : c < 36) : ∃ k < 1152, kiRow k = r ∧ kiCol k = c :=
  ⟨kiOf r c, kiOf_right r hr c hc⟩

theorem kiRow_lt (k : Nat) : kiRow k < 32 := Nat.mod_lt _ (by decide)

theorem kiCol_lt (k : Nat) : kiCol k < 36 := Nat.mod_lt _ (by decide)

/-- cell1 written out (R142). -/
theorem cell1_eq (c : Cfg) (i : Nat) : cell1 c i =
    ((i / 20 + partOf c i * 7) % 16 * 32 + kiRow (i / 320), partOf c i * 36 + kiCol (i / 320)) := rfl

/-- cell2 written out (R143). -/
theorem cell2_eq (c : Cfg) (i : Nat) : cell2 c i =
    (i / 200 * 32 + kiRow (i / 20 % 10 + 1142), partOf c i * 36 + kiCol (i / 20 % 10 + 1142)) := rfl

theorem Cfg.vTable_facts {c : Cfg} (h : c.interleaverOk = true) :
    c.vTable.length = 20 ∧ (∀ v ∈ c.vTable, v < 20) ∧ distinct c.vTable = true ∧ c.niv ≤ 8 ∧
    ∀ v ∈ c.iv, v.valid = true := by
  simp only [Cfg.interleaverOk, Bool.and_eq_true, beq_iff_eq, List.all_eq_true, decide_eq_true_eq] at h
  exact ⟨h.1.1.1.1, h.1.1.1.2, h.1.1.2, h.1.2, h.2⟩

theorem partOf_lt {c : Cfg} (h : c.interleaverOk = true) (i : Nat) : partOf c i < 20 := by
  obtain ⟨hl, hb, _⟩ := Cfg.vTable_facts h
  have hi : i % 20 < c.vTable.length := by omega
  simp only [partOf, List.getD, List.getElem?_eq_getElem hi, Option.getD_some]
  exact hb _ (List.getElem_mem hi)

theorem partOf_inj {c : Cfg} (h : c.interleaverOk = true) {i j : Nat} (hp : partOf c i = partOf c j) :
    i % 20 = j % 20 := by
  obtain ⟨hl, _, hd, _⟩ := Cfg.vTable_facts h
  exact getD_inj_of_distinct hd (by omega) (by omega) hp

/-- Matrix cells in range have different offsets. -/
theorem matOffset_inj {x y : Nat × Nat} (hx : x.2 < 720) (hy : y.2 < 720) (h : matOffset x = matOffset y) :
    x = y := by
  simp only [matOffset, matCols] at h
  exact Prod.ext (by omega) (by omega)

theorem matOffset_lt {x : Nat × Nat} (h1 : x.1 < 512) (h2 : x.2 < 720) : matOffset x < matCells := by
  simp only [matOffset, matCols, matCells]; omega

theorem cell1_lt {c : Cfg} (h : c.interleaverOk = true) (i : Nat) : (cell1 c i).1 < 512 ∧ (cell1 c i).2 < 720 := by
  have := partOf_lt h i
  have := kiRow_lt (i / 320)
  have := kiCol_lt (i / 320)
  rw [cell1_eq]; simp only; omega

theorem cell2_lt {c : Cfg} (h : c.interleaverOk = true) (i : Nat) (hi : i < 3200) :
    (cell2 c i).1 < 512 ∧ (cell2 c i).2 < 720 := by
  have := partOf_lt h i
  have := kiRow_lt (i / 20 % 10 + 1142)
  have := kiCol_lt (i / 20 % 10 + 1142)
  rw [cell2_eq]; simp only; omega

/-! ## Setting cells of a type IV buffer -/

@[simp] theorem length_setCells (buf : List Byte) (ws : List Nat) (t : List Byte) :
    (setCells buf ws t).length = buf.length := by
  induction ws generalizing buf t with
  | nil => cases t <;> rfl
  | cons w ws ih => cases t with
    | nil => rfl
    | cons b t => simp [setCells, ih]

/-- A cell that is not set keeps its byte. -/
theorem getD_setCells_of_notMem (buf : List Byte) (ws : List Nat) (t : List Byte) (a : Nat) (h : a ∉ ws) :
    (setCells buf ws t).getD a 0 = buf.getD a 0 := by
  induction ws generalizing buf t with
  | nil => cases t <;> rfl
  | cons w ws ih => cases t with
    | nil => rfl
    | cons b t =>
      simp only [List.mem_cons, not_or] at h
      rw [setCells, ih _ _ h.2]
      simp [List.getD, List.getElem?_set_ne (Ne.symm h.1)]

/-- The i-th of distinct cells of the buffer gets the i-th byte. -/
theorem getD_setCells_of_mem (buf : List Byte) (ws : List Nat) (t : List Byte) (i : Nat) (hd : ws.Nodup)
    (hi : i < ws.length) (ht : i < t.length) (hb : ws.getD i 0 < buf.length) :
    (setCells buf ws t).getD (ws.getD i 0) 0 = t.getD i 0 := by
  induction ws generalizing buf t i with
  | nil => simp at hi
  | cons w ws ih => cases t with
    | nil => simp at ht
    | cons b t =>
      obtain ⟨hw, hd⟩ := List.nodup_cons.1 hd
      cases i with
      | zero =>
        have hb' : w < buf.length := by simpa using hb
        rw [setCells, show (w :: ws).getD 0 0 = w from rfl, getD_setCells_of_notMem _ _ _ _ hw]
        simp [List.getD, hb']
      | succ i =>
        exact ih _ _ i hd (by simpa using hi) (by simpa using ht) (by simpa using hb)

/-! ## The cells of a type IV call (R152, R156) -/

@[simp] theorem IvCfg.length_placeFrom (c : IvCfg) (qs pt : List Nat) : (c.placeFrom qs pt).length = qs.length := by
  induction qs generalizing pt with
  | nil => rfl
  | cons q qs ih => simp [IvCfg.placeFrom, ih]

@[simp] theorem IvCfg.length_writeCells (c : IvCfg) (h : Bool) : (c.writeCells h).length = c.half := by
  simp [IvCfg.writeCells]

@[simp] theorem IvCfg.length_readCells (c : IvCfg) (h : Bool) : (c.readCells h).length = c.half := by
  simp [IvCfg.readCells]

theorem getD_set (pt : List Nat) (q r x : Nat) (hq : q < pt.length) :
    (pt.set q x).getD r 0 = if r = q then x else pt.getD r 0 := by
  by_cases h : r = q
  · subst h; simp [List.getD, hq]
  · simp [List.getD, List.getElem?_set_ne (Ne.symm h), h]

/-- A placed cell lies in the region of its partition, between its cursor and where the cursor ends. -/
theorem IvCfg.mem_placeFrom (c : IvCfg) (qs pt : List Nat) (a : Nat) (hq : ∀ q ∈ qs, q < pt.length)
    (h : a ∈ c.placeFrom qs pt) :
    ∃ q ∈ qs, c.baseOf q + pt.getD q 0 ≤ a ∧ a < c.baseOf q + pt.getD q 0 + qs.count q := by
  induction qs generalizing pt with
  | nil => simp [IvCfg.placeFrom] at h
  | cons q qs ih =>
    simp only [IvCfg.placeFrom, List.mem_cons] at h
    rcases h with rfl | h
    · exact ⟨q, by simp, Nat.le_refl _, by simp⟩
    · obtain ⟨r, hr, h1, h2⟩ := ih _ (fun q' hq' => by simpa using hq q' (by simp [hq'])) h
      rw [getD_set _ _ _ _ (hq q (by simp))] at h1 h2
      refine ⟨r, by simp [hr], ?_⟩
      by_cases he : r = q
      · subst he; simp only [if_true, List.count_cons_self] at h1 h2 ⊢; omega
      · simp only [he, if_false] at h1 h2
        rw [List.count_cons_of_ne (Ne.symm he)]
        exact ⟨h1, h2⟩

/-- The cells of a list of placements are distinct if the regions of the partitions are disjoint. -/
theorem IvCfg.nodup_placeFrom (c : IvCfg) (qs pt : List Nat) (size : Nat) (hq : ∀ q ∈ qs, q < pt.length)
    (hroom : ∀ q ∈ qs, pt.getD q 0 + qs.count q ≤ size)
    (hdis : ∀ q ∈ qs, ∀ r ∈ qs, q ≠ r → c.baseOf q + size ≤ c.baseOf r ∨ c.baseOf r + size ≤ c.baseOf q) :
    (c.placeFrom qs pt).Nodup := by
  induction qs generalizing pt with
  | nil => simp [IvCfg.placeFrom]
  | cons q qs ih =>
    rw [IvCfg.placeFrom, List.nodup_cons]
    have hqs : ∀ q' ∈ qs, q' < (pt.set q (pt.getD q 0 + 1)).length := fun q' hq' => by
      simpa using hq q' (by simp [hq'])
    have hroom' : ∀ r ∈ qs, (pt.set q (pt.getD q 0 + 1)).getD r 0 + qs.count r ≤ size := by
      intro r hr
      have := hroom r (by simp [hr])
      rw [getD_set _ _ _ _ (hq q (by simp))]
      by_cases he : r = q
      · subst he; simp only [if_true, List.count_cons_self] at this ⊢; omega
      · rw [List.count_cons_of_ne (Ne.symm he)] at this
        simpa [he] using this
    refine ⟨fun hm => ?_, ih _ hqs hroom' (fun a ha b hb => hdis a (by simp [ha]) b (by simp [hb]))⟩
    obtain ⟨r, hr, h1, h2⟩ := IvCfg.mem_placeFrom c qs _ _ hqs hm
    have hr' := hroom' r hr
    by_cases he : r = q
    · subst he
      rw [getD_set _ _ _ _ (hq r (by simp))] at h1
      simp at h1
    · have := hroom q (by simp)
      rw [List.count_cons_self] at this
      rcases hdis q (by simp) r (by simp [hr]) (Ne.symm he) with hd | hd <;> omega

/-- The i-th placed cell: the base of its partition, plus where the cursor started, plus the number of earlier placements
of the same partition (R152). -/
theorem IvCfg.getD_placeFrom (c : IvCfg) (qs pt : List Nat) (i : Nat) (hi : i < qs.length) (hq : ∀ q ∈ qs, q < pt.length) :
    (c.placeFrom qs pt).getD i 0 =
      c.baseOf (qs.getD i 0) + pt.getD (qs.getD i 0) 0 + (qs.take i).count (qs.getD i 0) := by
  induction qs generalizing pt i with
  | nil => cases hi
  | cons q qs ih =>
    cases i with
    | zero => simp [IvCfg.placeFrom]
    | succ i =>
      rw [IvCfg.placeFrom, List.getD_cons_succ, List.getD_cons_succ,
        ih _ _ (Nat.lt_of_succ_lt_succ hi) (fun r hr => by simpa using hq r (by simp [hr])),
        getD_set _ _ _ _ (hq q (by simp)), List.take_succ_cons, List.count_cons]
      generalize qs.getD i 0 = r
      by_cases h : r = q
      · subst h; simp only [if_true, beq_self_eq_true]; omega
      · simp [h, Ne.symm h]

/-- What the constraints of R150 and R156 give. -/
theorem IvCfg.valid_facts {c : IvCfg} (h : c.valid = true) :
    (c.j = 2 ∨ c.j = 4) ∧ c.n % (2 * c.j) = 0 ∧ c.part.length = c.half ∧ c.base.length = c.j ∧
    c.read0.length = c.half ∧ c.read1.length = c.half ∧ (∀ q ∈ c.part, q < c.j) ∧
    (∀ q < c.j, c.baseOf q + c.n / c.j ≤ c.n) ∧
    (∀ q < c.j, ∀ r < q, c.baseOf q + c.n / c.j ≤ c.baseOf r ∨ c.baseOf r + c.n / c.j ≤ c.baseOf q) ∧
    (∀ q < c.j, c.part.count q = c.n / (2 * c.j)) ∧
    (∀ a ∈ c.writeCells false, a ∉ c.writeCells true) ∧
    (∀ b, (c.readCells b).Nodup ∧ ∀ a, a ∈ c.readCells b ↔ a ∈ c.writeCells (!b)) := by
  simp only [IvCfg.valid, sameMembers, Bool.and_eq_true, Bool.or_eq_true, beq_iff_eq, List.all_eq_true,
    decide_eq_true_eq, List.mem_range, Bool.not_eq_true', List.contains_eq_mem, distinct_iff_nodup,
    decide_eq_false_iff_not] at h
  obtain ⟨⟨⟨⟨⟨⟨⟨⟨⟨⟨⟨⟨⟨h1, h2⟩, h3⟩, h4⟩, h5⟩, h6⟩, h7⟩, h8⟩, h9⟩, h10⟩, h11⟩, h12⟩, h13⟩, h14⟩ := h
  refine ⟨h1, h2, h3, h4, h5, h6, h7, fun q hq => (h8 q hq).1, fun q hq r hr => (h8 q hq).2 r hr, h9, h10, ?_⟩
  intro b
  cases b with
  | false => exact ⟨h11, fun a => ⟨h12.1 a, h12.2 a⟩⟩
  | true => exact ⟨h13, fun a => ⟨h14.1 a, h14.2 a⟩⟩

theorem IvCfg.map_partOf {c : IvCfg} (h : c.part.length = c.half) : (List.range c.half).map c.partOf = c.part := by
  apply List.ext_getElem (by simp [h])
  intro i h1 h2
  simp [IvCfg.partOf, List.getD, h2]

/-- W(h, i): the base of the partition of i, plus the start of the cursors, plus the number of the partition's inputs
before i (R152). -/
theorem IvCfg.getD_writeCells {c : IvCfg} (hc : c.valid = true) (h : Bool) (i : Nat) (hi : i < c.half) :
    (c.writeCells h).getD i 0 =
      c.baseOf (c.partOf i) + c.cursorStart h + (List.range i).countP (fun m => c.partOf m == c.partOf i) := by
  obtain ⟨_, _, hp, _, _, _, hlt, _⟩ := IvCfg.valid_facts hc
  have hip : i < c.part.length := hp ▸ hi
  have hq : c.partOf i < (List.replicate c.j (c.cursorStart h)).length := by
    rw [List.length_replicate, IvCfg.partOf, List.getD_eq_getElem _ _ hip]
    exact hlt _ (List.getElem_mem _)
  rw [IvCfg.writeCells, IvCfg.map_partOf hp, IvCfg.getD_placeFrom _ _ _ _ hip (by simpa using hlt)]
  have ht : c.part.take i = (List.range i).map c.partOf := by
    refine List.ext_getElem (by simp; omega) fun k h1 h2 => ?_
    rw [List.length_take] at h1
    simp [IvCfg.partOf, List.getD, show k < c.part.length by omega]
  rw [show c.part.getD i 0 = c.partOf i from rfl, ht, List.count_eq_countP, List.countP_map,
    List.getD_eq_getElem _ _ hq, List.getElem_replicate]
  rfl

/-- Where the cursors of a call start and how far they run (R152, R156). -/
theorem IvCfg.cursor_facts {c : IvCfg} (h : c.valid = true) (b : Bool) :
    c.cursorStart b + c.n / (2 * c.j) ≤ c.n / c.j := by
  obtain ⟨hj, hn, _⟩ := IvCfg.valid_facts h
  rcases hj with hj | hj <;> cases b <;> simp only [IvCfg.cursorStart, IvCfg.half, hj] at hn ⊢ <;> simp <;> omega

/-- The cells of a call are distinct cells of the buffer (R156). -/
theorem IvCfg.writeCells_facts {c : IvCfg} (h : c.valid = true) (b : Bool) :
    (c.writeCells b).Nodup ∧ ∀ a ∈ c.writeCells b, a < c.n := by
  obtain ⟨hj, hn, hp, hb, _, _, hlt, hin, hdis, hcnt, _⟩ := IvCfg.valid_facts h
  have hcur := IvCfg.cursor_facts h b
  rw [IvCfg.writeCells, IvCfg.map_partOf hp]
  have hq : ∀ q ∈ c.part, q < (List.replicate c.j (c.cursorStart b)).length := by simpa using hlt
  have hget : ∀ q ∈ c.part, (List.replicate c.j (c.cursorStart b)).getD q 0 = c.cursorStart b := by
    intro q hq; simp [List.getD, hlt q hq]
  constructor
  · apply IvCfg.nodup_placeFrom c _ _ (c.n / c.j) hq
    · intro q hq
      rw [hget q hq, hcnt q (hlt q hq)]
      exact hcur
    · intro q hq r hr hne
      rcases Nat.lt_or_gt_of_ne hne with hl | hl
      · rcases hdis r (hlt r hr) q hl with hd | hd
        · exact .inr hd
        · exact .inl hd
      · exact hdis q (hlt q hq) r hl
  · intro a ha
    obtain ⟨q, hq', h1, h2⟩ := IvCfg.mem_placeFrom c _ _ a hq ha
    rw [hget q hq', hcnt q (hlt q hq')] at h2
    have := hin q (hlt q hq')
    omega

/-- A valid configuration has valid type IV instances. -/
theorem Cfg.ivAt_valid {c : Cfg} (h : c.interleaverOk = true) {k : Nat} (hk : k < c.niv) :
    (c.ivAt k).valid = true := by
  have hk' : k < c.iv.length := hk
  have := (Cfg.vTable_facts h).2.2.2.2 _ (List.getElem_mem hk')
  simpa [Cfg.ivAt, List.getD, hk'] using this

/-- What a valid configuration is made of. -/
theorem Cfg.valid_facts {c : Cfg} (h : c.valid = true) :
    c.platformOk = true ∧ c.interleaverOk = true ∧ c.mapperOk = true ∧ c.rsOk = true ∧ c.l2Ok = true := by
  simp only [Cfg.valid, Bool.and_eq_true] at h
  exact ⟨h.1.1.1.1, h.1.1.1.2, h.1.1.2, h.1.2, h.2⟩

/-- The scattered writes stay inside the matrix (R145, R146). -/
theorem scatter_lt {n : Nat} (base : Nat) (cellOf : Nat → Nat × Nat) (t : List Byte)
    (h : ∀ i, i < t.length → (cellOf i).1 < 512 ∧ (cellOf i).2 < 720) (hb : base + matCells ≤ n) :
    ∀ w ∈ scatter base cellOf t, w.1 < n := by
  intro w hw
  simp only [scatter, List.mem_map, List.mem_range] at hw
  obtain ⟨i, hi, rfl⟩ := hw
  have := matOffset_lt (h i hi).1 (h i hi).2
  show base + matOffset (cellOf i) < n
  omega

end Sys2Proof.Machine
end

