-- ==== Sys2Proof/Laws/Mapper.lean ====
section
/-! SUPPORT. The constraints of the L1 mapper as facts, and the value of every subcarrier (42_l1_symbol_mapper.md R170
to R178). -/

namespace Sys2Proof.Machine

/-- What the constraints of R172 to R177 give. -/
theorem Cfg.mapper_facts {c : Cfg} (h : c.mapperOk = true) :
    1 ≤ c.fftSize ∧ (∀ e ∈ c.refSc, e.sc < c.fftSize ∧ e.scid < 4) ∧
    c.dataSc.length = 360 ∧ (∀ a ∈ c.dataSc, a < c.fftSize) ∧ (c.refSc.map RefEntry.sc).Nodup ∧ c.dataSc.Nodup ∧
    (∀ a ∈ c.dataSc, a ∉ c.refSc.map RefEntry.sc) ∧
    (∀ e ∈ c.secMap, e.sym < 512 ∧ e.sc < c.fftSize ∧ e.off + 1 < c.secBytes ∧
      e.sc ∉ c.refSc.map RefEntry.sc ∧ e.sc ∉ c.dataSc) ∧
    (c.secMap.map (fun e => (e.sym, e.sc))).Nodup := by
  simp only [Cfg.mapperOk, Bool.and_eq_true, beq_iff_eq, List.all_eq_true, decide_eq_true_eq,
    Bool.not_eq_true', List.contains_eq_mem, distinct_iff_nodup, decide_eq_false_iff_not] at h
  obtain ⟨⟨⟨⟨⟨⟨⟨⟨⟨⟨⟨h1, h2⟩, _⟩, _⟩, h5⟩, h6⟩, h7⟩, h8⟩, h9⟩, h10⟩, h11⟩, _⟩ := h
  exact ⟨h1, h2, h5, h6, h7, h8, h9,
    fun e he => ⟨(h10 e he).1.1.1.1, (h10 e he).1.1.1.2, (h10 e he).1.1.2, (h10 e he).1.2, (h10 e he).2⟩, h11⟩

/-- The last element of a list with a given key is the only one, if no key stands twice. -/
theorem find_reverse_of_nodup {α β : Type} [DecidableEq β] (l : List α) (key : α → β) (hd : (l.map key).Nodup)
    (e : α) (he : e ∈ l) : l.reverse.find? (fun x => key x == key e) = some e := by
  have hinj : ∀ x ∈ l, ∀ y ∈ l, key x = key y → x = y := fun x hx y hy h =>
    List.inj_on_of_nodup_map hd hx hy h
  cases hf : l.reverse.find? (fun x => key x == key e) with
  | none => exact absurd (List.find?_eq_none.1 hf e (by simpa using he)) (by simp)
  | some x =>
    have hk : key x = key e := by simpa using List.find?_some hf
    have hx : x ∈ l := by simpa using List.mem_of_find?_eq_some hf
    rw [hinj x hx e he hk]

theorem refSymbol_of_mem {c : Cfg} (h : c.mapperOk = true) (sym : Nat) {e : RefEntry} (he : e ∈ c.refSc) :
    refSymbol c sym e.sc = some (BitVec.ofNat 8 (c.refSymAt e.scid sym)) := by
  rw [refSymbol, find_reverse_of_nodup c.refSc RefEntry.sc (Cfg.mapper_facts h).2.2.2.2.1 e he]; rfl

theorem refSymbol_of_notMem (c : Cfg) (sym sc : Nat) (h : ∀ e ∈ c.refSc, e.sc ≠ sc) : refSymbol c sym sc = none := by
  rw [refSymbol, List.find?_eq_none.2]
  · rfl
  · intro e he; simpa using h e (by simpa using he)

theorem dataSymbol_of_mem {c : Cfg} (h : c.mapperOk = true) (m : Nat → Byte) (sym q k : Nat) (hq : q < 20)
    (hk : k < 18) : dataSymbol c m sym (c.dataScAt q k) =
      some (packSymbol c.symPack (m (sym * 720 + q * 36 + 2 * k)) (m (sym * 720 + q * 36 + 2 * k + 1))) := by
  have hl := (Cfg.mapper_facts h).2.2.1
  have hd := (Cfg.mapper_facts h).2.2.2.2.2.1
  have hi : 18 * q + k < c.dataSc.length := by omega
  have hf : c.dataSc.findIdx? (· == c.dataScAt q k) = some (18 * q + k) := by
    rw [List.findIdx?_eq_some_iff_getElem]
    refine ⟨hi, by simp [Cfg.dataScAt, List.getD, hi], fun j hj => ?_⟩
    have hj' : j < c.dataSc.length := by omega
    simp only [Cfg.dataScAt, List.getD_eq_getElem _ _ hi, beq_iff_eq]
    intro he
    have := (List.Nodup.getElem_inj_iff hd (hi := hj') (hj := hi)).1 he
    omega
  rw [dataSymbol, hf]
  simp only [Option.map_some, show (18 * q + k) / 18 = q by omega, show (18 * q + k) % 18 = k by omega]

theorem dataSymbol_of_notMem (c : Cfg) (m : Nat → Byte) (sym sc : Nat) (h : sc ∉ c.dataSc) :
    dataSymbol c m sym sc = none := by
  rw [dataSymbol, List.findIdx?_eq_none_iff.2]
  · rfl
  · intro x hx; simpa using fun he : x = sc => h (he ▸ hx)

theorem secSymbol_of_mem {c : Cfg} (h : c.mapperOk = true) (a : Nat → Byte) {e : SecEntry} (he : e ∈ c.secMap) :
    secSymbol c a e.sym e.sc = some (packSymbol c.symPack (a e.off) (a (e.off + 1))) := by
  have hf := find_reverse_of_nodup c.secMap (fun e => (e.sym, e.sc)) (Cfg.mapper_facts h).2.2.2.2.2.2.2.2 e he
  have hg : c.secMap.reverse.find? (fun x => x.sym == e.sym && x.sc == e.sc) = some e := by
    rw [← hf]; congr 1; funext x; rw [Bool.eq_iff_iff]; simp
  rw [secSymbol, hg]
  rfl

theorem secSymbol_of_notMem (c : Cfg) (a : Nat → Byte) (sym sc : Nat)
    (h : ∀ e ∈ c.secMap, ¬(e.sym = sym ∧ e.sc = sc)) : secSymbol c a sym sc = none := by
  rw [secSymbol, List.find?_eq_none.2]
  · rfl
  · intro e he; simpa using h e (by simpa using he)

/-- The lowest bad address, and that none is found where every cell read is a bit (R178). -/
theorem l1BadBit_eq_none (s : State) :
    l1BadBit s = none ↔ ∀ a ∈ l1Reads s, isBit (s.mem.read a) = true := by
  rw [l1BadBit, List.min?_eq_none_iff, List.filter_eq_nil_iff]
  simp

theorem mem_l1Reads (s : State) (a : Nat) : a ∈ l1Reads s ↔
    (∃ i, i < matCells ∧ a = s.srcA + i) ∨
      (∃ e ∈ s.cfg.secMap, a = s.auxA + e.off ∨ a = s.auxA + e.off + 1) := by
  simp only [l1Reads, List.mem_append, List.mem_map, List.mem_range, List.mem_flatMap, List.mem_cons,
    List.not_mem_nil, or_false]
  constructor
  · rintro (⟨i, hi, rfl⟩ | h)
    · exact .inl ⟨i, hi, rfl⟩
    · exact .inr h
  · rintro (⟨i, hi, rfl⟩ | h)
    · exact .inl ⟨i, hi, rfl⟩
    · exact .inr h

theorem l1BadBit_eq_some (s : State) (a : Nat) (ha : a ∈ l1Reads s) (hb : isBit (s.mem.read a) = false)
    (hmin : ∀ b ∈ l1Reads s, isBit (s.mem.read b) = false → a ≤ b) : l1BadBit s = some a := by
  rw [l1BadBit, List.min?_eq_some_iff]
  refine ⟨by simp [ha, hb], fun b hb' => ?_⟩
  obtain ⟨h1, h2⟩ := List.mem_filter.1 hb'
  exact hmin b h1 (by simpa using h2)

end Sys2Proof.Machine
end

