-- ==== Sys2Proof/Laws/ReedSolomon.lean ====
section
/-! SUPPORT. GF(2^8) as the model computes it is a commutative ring with XOR as its addition, the remainder of a
polynomial has the value of the polynomial at every root of the generator, and the roots are roots of it
(43_reed_solomon.md R190 to R193). -/

namespace Sys2Proof.Machine

/-! ## Arithmetic (R190) -/

/-- What holds of 0 and of the powers of two, and of a XOR b whenever it holds of a and of b, holds of every
byte. -/
theorem byte_induction {P : Byte → Prop} (h0 : P 0#8) (hx : ∀ a b, P a → P b → P (a ^^^ b))
    (hb : ∀ i, i < 8 → P (1#8 <<< i)) (a : Byte) : P a := by
  have he : ∀ a : Byte, a =
      (List.range 8).foldr (fun i acc => (if a.getLsbD i then 1#8 <<< i else 0) ^^^ acc) 0 := by decide
  rw [he a]
  have : ∀ l : List Nat, (∀ i ∈ l, i < 8) →
      P (l.foldr (fun i acc => (if a.getLsbD i then 1#8 <<< i else 0) ^^^ acc) 0) := by
    intro l hl
    induction l with
    | nil => exact h0
    | cons i l ih =>
      refine hx _ _ ?_ (ih (fun j hj => hl j (by simp [hj])))
      split
      · exact hb i (hl i (by simp))
      · exact h0
  exact this _ (by simp)

theorem gfDouble_xor (a b : Byte) : gfDouble (a ^^^ b) = gfDouble a ^^^ gfDouble b := by
  have h : ∀ a : Byte, gfDouble a = (a <<< 1) ^^^ (if a.getLsbD 7 then 0x1D else 0) := by decide
  rw [h, h, h, BitVec.shiftLeft_xor_distrib, BitVec.getLsbD_xor]
  have e : ∀ p q x y : Byte, (p ^^^ q) ^^^ (x ^^^ y) = (p ^^^ x) ^^^ (q ^^^ y) := by intros; ac_rfl
  cases a.getLsbD 7 <;> cases b.getLsbD 7 <;> simp [← e] <;> ac_rfl

@[simp] theorem gfDouble_zero : gfDouble 0#8 = 0#8 := by decide

theorem gfMulTop_xor_left (a b c : Byte) (n : Nat) :
    gfMulTop (a ^^^ b) c n = gfMulTop a c n ^^^ gfMulTop b c n := by
  induction n with
  | zero => simp [gfMulTop]
  | succ n ih =>
    simp only [gfMulTop, ih, gfDouble_xor]
    split
    · ac_rfl
    · simp

theorem gfMulTop_xor_right (a b c : Byte) (n : Nat) :
    gfMulTop a (b ^^^ c) n = gfMulTop a b n ^^^ gfMulTop a c n := by
  have e : ∀ p q x y : Byte, (p ^^^ q) ^^^ (x ^^^ y) = (p ^^^ x) ^^^ (q ^^^ y) := by intros; ac_rfl
  induction n with
  | zero => simp [gfMulTop]
  | succ n ih =>
    simp only [gfMulTop, ih, gfDouble_xor, BitVec.getLsbD_xor]
    rw [e]
    congr 1
    cases b.getLsbD (7 - n) <;> cases c.getLsbD (7 - n) <;> simp

/-- Distributivity. -/
theorem gfMul_xor_left (a b c : Byte) : gfMul (a ^^^ b) c = gfMul a c ^^^ gfMul b c := gfMulTop_xor_left a b c 8

theorem gfMul_xor_right (a b c : Byte) : gfMul a (b ^^^ c) = gfMul a b ^^^ gfMul a c := gfMulTop_xor_right a b c 8

@[simp] theorem gfMul_zero_left (b : Byte) : gfMul 0#8 b = 0#8 := by
  have := gfMul_xor_left 0#8 0#8 b
  simpa using this

@[simp] theorem gfMul_zero_right (a : Byte) : gfMul a 0#8 = 0#8 := by
  have := gfMul_xor_right a 0#8 0#8
  simpa using this

theorem gfMul_comm (a b : Byte) : gfMul a b = gfMul b a := by
  induction a using byte_induction with
  | h0 => simp
  | hx x y hx hy => rw [gfMul_xor_left, gfMul_xor_right, hx, hy]
  | hb i hi =>
    induction b using byte_induction with
    | h0 => simp
    | hx x y hx hy => rw [gfMul_xor_left, gfMul_xor_right, hx, hy]
    | hb j hj =>
      have : ∀ i < 8, ∀ j < 8, gfMul (1#8 <<< i) (1#8 <<< j) = gfMul (1#8 <<< j) (1#8 <<< i) := by decide +kernel
      exact this i hi j hj

/-- The product with α is one shift, reduced by 0x11d (R190). -/
theorem gfMul_two (a : Byte) : gfMul 2#8 a = gfDouble a := by
  rw [gfMul_comm]
  simp [gfMul, gfMulTop]

theorem gfMul_assoc (a b c : Byte) : gfMul (gfMul a b) c = gfMul a (gfMul b c) := by
  induction a using byte_induction with
  | h0 => simp
  | hx x y hx hy => rw [gfMul_xor_left, gfMul_xor_left, gfMul_xor_left, hx, hy]
  | hb i hi =>
    induction b using byte_induction with
    | h0 => simp
    | hx x y hx hy => rw [gfMul_xor_right, gfMul_xor_left, gfMul_xor_left, gfMul_xor_right, hx, hy]
    | hb j hj =>
      induction c using byte_induction with
      | h0 => simp
      | hx x y hx hy => rw [gfMul_xor_right, gfMul_xor_right, gfMul_xor_right, hx, hy]
      | hb k hk =>
        have : ∀ i < 8, ∀ j < 8, ∀ k < 8, gfMul (gfMul (1#8 <<< i) (1#8 <<< j)) (1#8 <<< k) =
            gfMul (1#8 <<< i) (gfMul (1#8 <<< j) (1#8 <<< k)) := by decide +kernel
        exact this i hi j hj k hk

@[simp] theorem gfMul_one_left (b : Byte) : gfMul 1#8 b = b := by revert b; decide +kernel

@[simp] theorem gfMul_one_right (a : Byte) : gfMul a 1#8 = a := by rw [gfMul_comm, gfMul_one_left]

/-! ## Polynomials -/

@[simp] theorem polyEval_nil (x : Byte) : polyEval [] x = 0 := rfl

@[simp] theorem polyEval_cons (c : Byte) (cs : List Byte) (x : Byte) :
    polyEval (c :: cs) x = c ^^^ gfMul (polyEval cs x) x := rfl

theorem polyEval_replicate (n : Nat) (x : Byte) : polyEval (List.replicate n 0) x = 0 := by
  induction n with
  | zero => rfl
  | succ n ih => rw [List.replicate_succ, polyEval_cons, ih]; simp

/-- The value of a sum of polynomials of the same length. -/
theorem polyEval_zipWith_xor (a b : List Byte) (x : Byte) (h : a.length = b.length) :
    polyEval (List.zipWith (· ^^^ ·) a b) x = polyEval a x ^^^ polyEval b x := by
  induction a generalizing b with
  | nil => cases b with
    | nil => simp
    | cons => simp at h
  | cons p a ih => cases b with
    | nil => simp at h
    | cons q b =>
      simp only [List.zipWith_cons_cons, polyEval_cons, ih b (by simpa using h), gfMul_xor_left]
      ac_rfl

theorem polyEval_map_gfMul (r : Byte) (a : List Byte) (x : Byte) :
    polyEval (a.map (gfMul r)) x = gfMul r (polyEval a x) := by
  induction a with
  | nil => simp
  | cons p a ih => simp only [List.map_cons, polyEval_cons, ih, gfMul_xor_right, gfMul_assoc]

/-- A polynomial of one more coefficient, at the top. -/
theorem polyEval_append_single (a : List Byte) (c x : Byte) :
    polyEval (a ++ [c]) x = polyEval a x ^^^ gfMul c (polyEval (List.replicate a.length 0 ++ [1]) x) := by
  induction a with
  | nil => simp
  | cons p a ih =>
    simp only [List.cons_append, polyEval_cons, ih, List.length_cons, List.replicate_succ, gfMul_xor_left,
      gfMul_assoc, BitVec.xor_assoc, show ∀ y : Byte, 0 ^^^ y = y from fun _ => BitVec.zero_xor]

@[simp] theorem length_mulRoot (g : List Byte) (r : Byte) : (mulRoot g r).length = g.length + 1 := by
  simp [mulRoot]

/-- Multiplying by (x - r) multiplies the value by x XOR r (R191). -/
theorem polyEval_mulRoot (g : List Byte) (r x : Byte) :
    polyEval (mulRoot g r) x = gfMul (polyEval g x) (x ^^^ r) := by
  have hz : ∀ l : List Byte, polyEval (l ++ [0]) x = polyEval l x := by
    intro l; rw [polyEval_append_single]; simp
  rw [mulRoot, polyEval_zipWith_xor _ _ _ (by simp), polyEval_cons, hz, polyEval_map_gfMul, gfMul_xor_right,
    show ∀ y : Byte, 0 ^^^ y = y from fun _ => BitVec.zero_xor, gfMul_comm r]

/-- The generator has degree 8 and leading coefficient 1. -/
theorem rsGen_facts (c : Cfg) : (rsGen c).length = 9 ∧ (rsGen c).getD 8 0 = 1 := by
  have hm : ∀ (g : List Byte) (r : Byte), g.getD (g.length - 1) 0 = 1 → g ≠ [] →
      (mulRoot g r).getD ((mulRoot g r).length - 1) 0 = 1 := by
    intro g r h hne
    obtain ⟨n, hn⟩ : ∃ n, g.length = n + 1 := Nat.exists_eq_succ_of_ne_zero (by simpa using hne)
    have hlt : n < g.length := by omega
    have hg : g[n] = 1 := by simpa [List.getD, hn, hlt] using h
    have hl : (mulRoot g r).length - 1 = n + 1 := by rw [length_mulRoot, hn]; rfl
    have h2 : (g.map (gfMul r) ++ [0])[n + 1]? = some 0 := by
      rw [List.getElem?_append_right (by simp [hn])]; simp [hn]
    rw [hl, mulRoot, List.getD, List.getElem?_zipWith, List.getElem?_cons_succ, h2,
      List.getElem?_eq_getElem hlt, hg]
    decide
  have hf : ∀ (rs g : List Byte), g.getD (g.length - 1) 0 = 1 → g ≠ [] →
      (rs.foldl mulRoot g).length = g.length + rs.length ∧
      (rs.foldl mulRoot g).getD ((rs.foldl mulRoot g).length - 1) 0 = 1 := by
    intro rs
    induction rs with
    | nil => intro g h _; exact ⟨rfl, h⟩
    | cons r rs ih =>
      intro g h hne
      have hne' : mulRoot g r ≠ [] := by
        intro he; have := congrArg List.length he; simp at this
      obtain ⟨h1, h2⟩ := ih (mulRoot g r) (hm g r h hne) hne'
      refine ⟨?_, h2⟩
      rw [List.foldl_cons, h1]; simp; omega
  obtain ⟨h1, h2⟩ := hf (rsRoots c) [1] rfl (by simp)
  have h9 : (rsGen c).length = 9 := by rw [rsGen, h1]; simp [rsRoots]
  refine ⟨h9, ?_⟩
  rw [← rsGen, h9] at h2
  exact h2

/-- The roots of the generator (R191). -/
theorem rsGen_root (c : Cfg) (j : Nat) (hj : j < 8) :
    polyEval (rsGen c) (alphaPow ((c.rsFcr + j) * c.rsPrim)) = 0 := by
  have hkeep : ∀ (rs g : List Byte) (x : Byte), polyEval g x = 0 → polyEval (rs.foldl mulRoot g) x = 0 := by
    intro rs
    induction rs with
    | nil => intro g x h; exact h
    | cons r rs ih => intro g x h; exact ih _ _ (by rw [polyEval_mulRoot, h]; exact gfMul_zero_left _)
  have hmem : ∀ (rs g : List Byte) (x : Byte), x ∈ rs → polyEval (rs.foldl mulRoot g) x = 0 := by
    intro rs
    induction rs with
    | nil => intro g x h; simp at h
    | cons r rs ih =>
      intro g x h
      rcases List.mem_cons.1 h with rfl | h
      · exact hkeep rs _ _ (by rw [polyEval_mulRoot, BitVec.xor_self]; exact gfMul_zero_right _)
      · exact ih _ _ h
  apply hmem
  simp only [rsRoots, List.mem_map, List.mem_range]
  exact ⟨j, hj, rfl⟩

/-! ## Remainders (R193) -/

theorem length_rsStep (g : List Byte) (d : Byte) (rem : List Byte) (hg : g.length = 9) (hr : rem.length = 8) :
    (rsStep g d rem).length = 8 := by
  simp [rsStep, hg, hr]

@[simp] theorem length_rsRem (g : List Byte) (cs : List Byte) (hg : g.length = 9) : (rsRem g cs).length = 8 := by
  induction cs with
  | nil => simp [rsRem]
  | cons c cs ih => exact length_rsStep g c _ hg ih

@[simp] theorem length_rsParity (c : Cfg) (region : List Byte) : (rsParity c region).length = 8 :=
  length_rsRem _ _ (rsGen_facts c).1

/-- At a root of a monic generator of degree 8, a remainder has the value of the polynomial. -/
theorem polyEval_rsRem (g : List Byte) (x : Byte) (hg : g.length = 9) (hm : g.getD 8 0 = 1)
    (hx : polyEval g x = 0) (cs : List Byte) : polyEval (rsRem g cs) x = polyEval cs x := by
  obtain ⟨g0, g1, g2, g3, g4, g5, g6, g7, g8, rfl⟩ :
      ∃ a b c d e f h i j, g = [a, b, c, d, e, f, h, i, j] := by
    match g, hg with
    | [a, b, c, d, e, f, h, i, j], _ => exact ⟨a, b, c, d, e, f, h, i, j, rfl⟩
  have h8 : g8 = 1 := hm
  subst h8
  have htop : polyEval ([g0, g1, g2, g3, g4, g5, g6, g7] ++ [1]) x = 0 := hx
  rw [polyEval_append_single, show ∀ b, gfMul 1 b = b from gfMul_one_left] at htop
  induction cs with
  | nil => exact polyEval_replicate 8 x
  | cons d cs ih =>
    have hl : (rsRem [g0, g1, g2, g3, g4, g5, g6, g7, 1] cs).length = 8 := length_rsRem _ _ rfl
    rw [show rsRem [g0, g1, g2, g3, g4, g5, g6, g7, 1] (d :: cs) =
      rsStep [g0, g1, g2, g3, g4, g5, g6, g7, 1] d (rsRem [g0, g1, g2, g3, g4, g5, g6, g7, 1] cs) from rfl]
    generalize hrem : rsRem [g0, g1, g2, g3, g4, g5, g6, g7, 1] cs = rem at hl ih
    obtain ⟨r0, r1, r2, r3, r4, r5, r6, r7, rfl⟩ : ∃ a b c d e f h i, rem = [a, b, c, d, e, f, h, i] := by
      match rem, hl with
      | [a, b, c, d, e, f, h, i], _ => exact ⟨a, b, c, d, e, f, h, i, rfl⟩
    have hsplit : polyEval ([r0, r1, r2, r3, r4, r5, r6] ++ [r7]) x = polyEval cs x := ih
    rw [polyEval_append_single] at hsplit
    have hgen : polyEval [g0, g1, g2, g3, g4, g5, g6, g7] x = polyEval (List.replicate 8 0 ++ [1]) x := by
      have := congrArg (fun y => y ^^^ polyEval (List.replicate 8 0 ++ [1]) x) htop
      simpa [BitVec.xor_assoc] using this
    have hpow : polyEval (List.replicate 8 0 ++ [1]) x = gfMul (polyEval (List.replicate 7 0 ++ [1]) x) x := by
      rw [List.replicate_succ, List.cons_append, polyEval_cons]; exact BitVec.zero_xor
    have hstep : polyEval (rsStep [g0, g1, g2, g3, g4, g5, g6, g7, 1] d [r0, r1, r2, r3, r4, r5, r6, r7]) x =
        polyEval (d :: [r0, r1, r2, r3, r4, r5, r6]) x ^^^
          polyEval ([g0, g1, g2, g3, g4, g5, g6, g7].map (gfMul r7)) x :=
      polyEval_zipWith_xor (d :: [r0, r1, r2, r3, r4, r5, r6])
        ([g0, g1, g2, g3, g4, g5, g6, g7].map (gfMul r7)) x rfl
    rw [hstep, polyEval_map_gfMul, hgen, hpow, ← gfMul_assoc, polyEval_cons (c := d), polyEval_cons (c := d),
      ← hsplit, gfMul_xor_left, BitVec.xor_assoc]
    rfl

/-- A polynomial of the first 8 coefficients and the rest. -/
theorem polyEval_append_eight (a b : List Byte) (x : Byte) (h : a.length = 8) :
    polyEval (a ++ b) x = polyEval a x ^^^ polyEval (List.replicate 8 0 ++ b) x := by
  have hgen : ∀ a : List Byte,
      polyEval (a ++ b) x = polyEval a x ^^^ polyEval (List.replicate a.length 0 ++ b) x := by
    intro a
    induction a with
    | nil => simp
    | cons p a ih =>
      simp only [List.cons_append, polyEval_cons, ih, List.length_cons, List.replicate_succ, gfMul_xor_left]
      rw [show ∀ y : Byte, 0 ^^^ y = y from fun _ => BitVec.zero_xor]
      ac_rfl
  rw [hgen a, h]

/-- With its remainder in front, a polynomial whose first 8 coefficients are 0 becomes one with the roots of the
generator. -/
theorem polyEval_codeword (c : Cfg) (data : List Byte) (j : Nat) (hj : j < 8) :
    polyEval (rsRem (rsGen c) (List.replicate 8 0 ++ data) ++ data) (alphaPow ((c.rsFcr + j) * c.rsPrim)) = 0 := by
  obtain ⟨h1, h2⟩ := rsGen_facts c
  rw [polyEval_append_eight _ _ _ (length_rsRem _ _ h1), polyEval_rsRem _ _ h1 h2 (rsGen_root c j hj)]
  exact BitVec.xor_self

/-- The data of a region in memory. -/
theorem rsData_readBlock (m : Memory) (a n : Nat) (h : 8 ≤ n) :
    rsData (m.readBlock a n) = List.replicate 8 0 ++ m.readBlock (a + 8) (min n 255 - 8) := by
  rw [rsData]
  congr 1
  apply List.ext_getElem
  · simp; omega
  · intro i h1 h2
    simp [Memory.readBlock]
    congr 1
    omega

/-- The data of a region does not depend on its first 8 bytes (R194). -/
theorem rsData_eq (region : List Byte) (bytes : List Byte) (hb : bytes.length = 8) :
    rsData (bytes ++ region.drop 8) = rsData region := by
  have h1 : (bytes ++ region.drop 8).take 255 = bytes ++ (region.drop 8).take 247 := by
    rw [List.take_append, hb, List.take_of_length_le (by omega)]
  have h2 : (region.take 255).drop 8 = (region.drop 8).take 247 := by
    rw [List.drop_take]
  rw [rsData, rsData, h1, h2, List.drop_append, hb, List.drop_of_length_le (by omega)]
  rfl

theorem rsParity_append (c : Cfg) (region : List Byte) (bytes : List Byte) (hb : bytes.length = 8) :
    rsParity c (bytes ++ region.drop 8) = rsParity c region := by
  rw [rsParity, rsParity, rsData_eq region bytes hb]

theorem Memory.drop_readBlock (m : Memory) (a n k : Nat) : (m.readBlock a n).drop k = m.readBlock (a + k) (n - k) := by
  apply List.ext_getElem (by simp)
  intro i h1 h2
  simp [Memory.readBlock, Nat.add_assoc]

end Sys2Proof.Machine
end

