-- ==== Sys2Proof/Laws/Packing.lean ====
section
/-! SUPPORT. What packing a program can do (44_l2_multiplexer.md R208 to R215): the bounds it keeps, the carryover it
finishes, the split it leaves, and the layout of the region. -/

namespace Sys2Proof.Machine

/-! ## CRC (R205) -/

theorem crcUpd_append (c : Cfg) (x : Byte) (a b : List Byte) : crcUpd c x (a ++ b) = crcUpd c (crcUpd c x a) b := by
  simp [crcUpd, List.foldl_append]

/-- The CRC carried across a split is the CRC of the whole payload (R209, R211). -/
theorem crcUpd_split (c : Cfg) (sf : List Byte) (k : Nat) :
    crcUpd c (crcUpd c c.crcInit (sf.take k)) (sf.drop k) = crcUpd c c.crcInit sf := by
  rw [← crcUpd_append, List.take_append_drop]

/-! ## Locator bytes (R206) -/

@[simp] theorem Cfg.locBytes_zero (c : Cfg) : c.locBytes 0 = 0 := by simp [Cfg.locBytes]

/-! ## Packing -/

/-- What the working copies hold while a program is packed: the locators and the audio fit the region, and every
queued payload fits an empty region. -/
def PackState.within (c : Cfg) (area : Nat) (a : PackState) : Prop := a.aud.length + c.locBytes a.ends.length ≤ area

theorem PackState.addEnd_within (c : Cfg) (area : Nat) (a : PackState) (bytes : List Byte) (crc : Byte)
    (h : a.aud.length + bytes.length + 1 + c.locBytes (a.ends.length + 1) ≤ area) :
    (a.addEnd bytes crc).within c area := by
  simp only [PackState.within, PackState.addEnd, List.length_append, List.length_cons, List.length_nil]
  omega

theorem packStart_within {c : Cfg} {n p : Nat} {v : ProgState} (h : v.budgetOk c n p) :
    (packStart c v).within c (c.area p) := by
  unfold packStart
  split
  · simp [PackState.within]
  · next q hq =>
    have hf := (h.2.2 q hq).2.1
    apply PackState.addEnd_within
    simp only [fitsAlone] at hf
    simp only [List.length_nil, List.length_drop, Nat.zero_add]
    omega

/-- Everything the greedy step can end in: no room is overrun, no sequence number is lost, the audio only grows, and
a split is recorded with its CRC. -/
theorem packGreedy_facts (c : Cfg) (area target : Nat) (queue : List (List Byte)) (a r : PackState)
    (h : packGreedy c area target queue a = some r) (hw : a.within c area) (hp : a.part = none) :
    r.within c area ∧ a.seq ≤ r.seq ∧ r.seq ≤ max a.seq target ∧
    (∃ tail, r.aud = a.aud ++ tail) ∧ (∃ tail, r.ends = a.ends ++ tail) ∧
    (∀ sf ∈ r.queue, sf ∈ queue) ∧ r.queue.length ≤ queue.length ∧
    (∀ q, r.part = some q → q.k ≤ q.sf.length ∧ q.sf ∈ queue ∧ q.crc = crcUpd c c.crcInit (q.sf.take q.k) ∧
      r.seq < target) := by
  induction queue generalizing a with
  | nil =>
    simp only [packGreedy] at h
    split_ifs at h
    injection h with h
    subst h
    refine ⟨hw, Nat.le_refl _, by simp, ⟨[], by simp⟩, ⟨[], by simp⟩, by simp, by simp, ?_⟩
    intro q hq
    simp only at hq
    rw [hp] at hq
    cases hq
  | cons sf rest ih =>
    simp only [packGreedy] at h
    split_ifs at h with h1 h2
    · obtain ⟨b1, b2, b3, ⟨t1, b4⟩, ⟨t2, b5⟩, b6, b7, b8⟩ :=
        ih _ h (PackState.addEnd_within c area a sf _ h2) hp
      refine ⟨b1, ?_, ?_, ⟨sf ++ [crcOf c sf] ++ t1, ?_⟩, ⟨[a.aud.length + sf.length] ++ t2, ?_⟩, fun x hx => by simp [b6 x hx], ?_, ?_⟩
      · exact Nat.le_trans (Nat.le_succ _) b2
      · simp only [PackState.addEnd] at b3; omega
      · rw [b4]; simp [PackState.addEnd]
      · rw [b5]; simp [PackState.addEnd]
      · simp; omega
      · intro q hq
        obtain ⟨c1, c2, c3, c4⟩ := b8 q hq
        exact ⟨c1, by simp [c2], c3, c4⟩
    · injection h with h
      subst h
      unfold packSplit
      by_cases hr : a.room c area = 0
      · rw [if_pos hr]
        refine ⟨hw, Nat.le_refl _, by simp, ⟨[], by simp⟩, ⟨[], by simp⟩, by simp, by simp, ?_⟩
        intro q hq
        simp only at hq
        rw [hp] at hq
        cases hq
      · rw [if_neg hr]
        refine ⟨?_, Nat.le_refl _, by simp, ⟨_, rfl⟩, ⟨[], by simp⟩, fun x hx => by simp at hx ⊢; exact .inr hx,
          by simp, ?_⟩
        · simp only [PackState.within, List.length_append, List.length_take] at hw ⊢
          have : a.room c area = area - a.aud.length - c.locBytes a.ends.length := rfl
          omega
        · intro q hq
          simp only [Option.some.injEq] at hq
          subst hq
          exact ⟨Nat.min_le_right _ _, by simp, rfl, h1⟩
    · injection h with h
      subst h
      refine ⟨hw, Nat.le_refl _, by simp, ⟨[], by simp⟩, ⟨[], by simp⟩, by simp, by simp, ?_⟩
      intro q hq
      simp only at hq
      rw [hp] at hq
      cases hq

theorem packStart_part (c : Cfg) (v : ProgState) : (packStart c v).part = none := by
  unfold packStart
  split <;> rfl

/-- SEQ at the start of packing is at most the target of the frame (R208, R226). -/
theorem packStart_seq {c : Cfg} {n p : Nat} {v : ProgState} (h : v.budgetOk c n p) :
    v.seq ≤ (packStart c v).seq ∧ (packStart c v).seq ≤ n * c.targetNop := by
  unfold packStart
  split
  · exact ⟨Nat.le_refl _, h.2.1⟩
  · next q hq =>
    have := (h.2.2 q hq).2.2.2
    exact ⟨Nat.le_succ _, this⟩

/-- What the packing of a program within its budget can end in. -/
theorem packAudio_facts {c : Cfg} {n p : Nat} {v : ProgState} {a : PackState} (h : v.budgetOk c n p)
    (ha : packAudio c n p v = some a) :
    a.within c (c.area p) ∧ v.seq ≤ a.seq ∧ a.seq ≤ (n + 1) * c.targetNop ∧
    (∃ tail, a.aud = (packStart c v).aud ++ tail) ∧ (∃ tail, a.ends = (packStart c v).ends ++ tail) ∧
    (packStart c v).seq ≤ a.seq ∧ (∀ sf ∈ a.queue, sf ∈ v.audq) ∧ a.queue.length ≤ v.audq.length ∧
    (∀ q, a.part = some q → q.k ≤ q.sf.length ∧ q.sf ∈ v.audq ∧ q.crc = crcUpd c c.crcInit (q.sf.take q.k) ∧
      a.seq < (n + 1) * c.targetNop) := by
  obtain ⟨b1, b2, b3, b4, b5, b6, b7, b8⟩ :=
    packGreedy_facts c _ _ _ _ _ ha (packStart_within h) (packStart_part c v)
  obtain ⟨s1, s2⟩ := packStart_seq h
  have hmul : n * c.targetNop ≤ (n + 1) * c.targetNop := Nat.mul_le_mul_right _ (Nat.le_succ n)
  simp only [frameTarget] at b3 b8
  exact ⟨b1, by omega, by omega, b4, b5, b2, b6, b7, b8⟩

/-- The program after the frame is within the budget of the next one (R226). -/
theorem packAudio_budgetOk {c : Cfg} {n p : Nat} {v : ProgState} {a : PackState} (h : v.budgetOk c n p)
    (ha : packAudio c n p v = some a) (psd : Option (List Byte)) :
    ProgState.budgetOk c (n + 1) p ⟨a.seq, a.part, a.queue, psd⟩ := by
  obtain ⟨_, _, b3, _, _, _, b7, _, b9⟩ := packAudio_facts h ha
  refine ⟨fun sf hsf => h.1 sf (b7 sf hsf), b3, ?_⟩
  intro q hq
  obtain ⟨c1, c2, c3, c4⟩ := b9 q hq
  exact ⟨c1, h.1 _ c2, c3, c4⟩

/-! ## All programs -/

theorem packAll_length {f : FrameFns} {c : Cfg} {n : Nat} {p : Nat} {vs : List ProgState} {rs : List Packed}
    (h : packAll f c n p vs = some rs) : rs.length = vs.length := by
  induction vs generalizing p rs with
  | nil => simp only [packAll, Option.some.injEq] at h; subst h; rfl
  | cons v vs ih =>
    simp only [packAll] at h
    split at h
    · next r rs' h1 h2 => injection h with h; subst h; simp [ih h2]
    · cases h

/-- Packing all programs packs each of them. -/
theorem packAll_getElem {f : FrameFns} {c : Cfg} {n : Nat} {p : Nat} {vs : List ProgState} {rs : List Packed}
    (h : packAll f c n p vs = some rs) (i : Nat) (hi : i < vs.length) (hr : i < rs.length) :
    packProg f c n (p + i) vs[i] = some rs[i] := by
  induction vs generalizing p rs i with
  | nil => simp at hi
  | cons v vs ih =>
    simp only [packAll] at h
    split at h
    · next r rs' h1 h2 =>
      injection h with h
      subst h
      cases i with
      | zero => simpa using h1
      | succ i =>
        have := ih h2 i (by simpa using hi) (by simpa using hr)
        simpa [Nat.add_assoc, Nat.add_comm 1 i] using this
    · cases h

/-- The frame stalls exactly when one of the programs does (R213). -/
theorem packAll_eq_none {f : FrameFns} {c : Cfg} {n : Nat} {p : Nat} {vs : List ProgState} :
    packAll f c n p vs = none ↔ ∃ i, ∃ h : i < vs.length, packProg f c n (p + i) vs[i] = none := by
  induction vs generalizing p with
  | nil => simp [packAll]
  | cons v vs ih =>
    simp only [packAll]
    constructor
    · intro h
      split at h
      · cases h
      · next hx =>
        cases h1 : packProg f c n p v with
        | none => exact ⟨0, by simp, by simpa using h1⟩
        | some r =>
          cases h2 : packAll f c n (p + 1) vs with
          | some rs => exact absurd h2 (hx r rs h1)
          | none =>
            obtain ⟨i, hi, he⟩ := ih.1 h2
            exact ⟨i + 1, by simpa using hi, by simpa [Nat.add_assoc, Nat.add_comm 1 i] using he⟩
    · rintro ⟨i, hi, he⟩
      split
      · next r rs h1 h2 =>
        exfalso
        cases i with
        | zero => simp [h1] at he
        | succ i =>
          have := (ih (p := p + 1)).2 ⟨i, by simpa using hi, by simpa [Nat.add_assoc, Nat.add_comm 1 i] using he⟩
          rw [h2] at this
          cases this
      · rfl

theorem packProg_eq_none (f : FrameFns) (c : Cfg) (n p : Nat) (v : ProgState) :
    packProg f c n p v = none ↔ v.psd = none ∨ packAudio c n p v = none := by
  unfold packProg
  cases v.psd <;> cases packAudio c n p v <;> simp

theorem packProg_eq_some {f : FrameFns} {c : Cfg} {n p : Nat} {v : ProgState} {r : Packed}
    (h : packProg f c n p v = some r) : ∃ psd a, v.psd = some psd ∧ packAudio c n p v = some a ∧
      r = ⟨regionBytes f c n p v.seq a psd, ⟨a.seq, a.part, a.queue, none⟩, overrun c n a,
        v.audq.length - a.queue.length⟩ := by
  unfold packProg at h
  split at h
  · next psd a h1 h2 => injection h with h; exact ⟨psd, a, h1, h2, h.symm⟩
  · cases h

/-! ## The region (R201) -/

@[simp] theorem length_locatorBytes (f : FrameFns) (c : Cfg) (ends : List Nat) :
    (locatorBytes f c ends).length = c.locBytes ends.length := by simp [locatorBytes]

@[simp] theorem length_controlWord (f : FrameFns) (p s0 n fc : Nat) : (controlWord f p s0 n fc).length = 6 := by
  simp [controlWord]

@[simp] theorem length_headerExt (f : FrameFns) (p fc : Nat) : (headerExt f p fc).length = 3 := by simp [headerExt]

theorem length_audioField (c : Cfg) (p : Nat) (a : PackState) (h : a.within c (c.area p)) :
    (audioField c p a).length = c.area p - c.locBytes a.ends.length := by
  simp only [audioField, List.length_append, List.length_replicate, PackState.room]
  simp only [PackState.within] at h
  omega

/-- The parity of a region is the parity of the region with its parity in place (R215). -/
theorem rsParity_regionBytes (f : FrameFns) (c : Cfg) (n p s0 : Nat) (a : PackState) (psd : List Byte) :
    rsParity c (regionBytes f c n p s0 a psd) =
      rsParity c (List.replicate 8 0 ++ regionBody f c n p s0 a psd) := by
  have hl : (rsParity c (List.replicate 8 0 ++ regionBody f c n p s0 a psd)).length = 8 := length_rsParity _ _
  have := rsParity_append c (List.replicate 8 0 ++ regionBody f c n p s0 a psd) _ hl
  rw [List.drop_append] at this
  simpa [regionBytes] using this

theorem Cfg.l2_facts {c : Cfg} (h : c.l2Ok = true) :
    1 ≤ c.nprog ∧ c.nprog ≤ 32 ∧ (∀ b ∈ c.progBytes, 17 + c.psdBytes + c.locBytes 1 + 1 ≤ b) ∧
    (c.dataBytes = 0 ∨ 1 + c.cccWidth + 4 ≤ c.dataBytes) ∧ c.cccMsg ≠ [] ∧ c.bbmBytes.length = 4 ∧
    5 ≤ c.bbmPeriod ∧ 22 ≤ c.hsLen ∧ c.hsLen ≤ 24 ∧ c.hsPos (c.hsLen - 1) < c.frameBits := by
  simp only [Cfg.l2Ok, Bool.and_eq_true, Bool.or_eq_true, beq_iff_eq, List.all_eq_true, decide_eq_true_eq,
    Bool.not_eq_true', List.isEmpty_eq_false_iff] at h
  obtain ⟨⟨⟨⟨⟨⟨⟨⟨⟨⟨h1, h2⟩, _⟩, h4⟩, h5⟩, h6⟩, h7⟩, h8⟩, h9⟩, h10⟩, h11⟩ := h
  exact ⟨h1, h2, h4, h5, h6, h7, h8, h9, h10, h11⟩

theorem Cfg.progBytes_le {c : Cfg} (h : c.l2Ok = true) {p : Nat} (hp : p < c.nprog) :
    17 + c.psdBytes + c.locBytes 1 + 1 ≤ c.progBytesAt p := by
  have hp' : p < c.progBytes.length := hp
  rw [Cfg.progBytesAt, List.getD_eq_getElem _ _ hp']
  exact (Cfg.l2_facts h).2.2.1 _ (List.getElem_mem hp')

/-- A region has the size CFG gives it (R200, R201). -/
theorem length_regionBytes (f : FrameFns) {c : Cfg} (hc : c.l2Ok = true) (n p s0 : Nat) (hp : p < c.nprog)
    (a : PackState) (psd : List Byte) (ha : a.within c (c.area p)) (hpsd : psd.length = c.psdBytes) :
    (regionBytes f c n p s0 a psd).length = c.progBytesAt p := by
  have h1 := Cfg.progBytes_le hc hp
  have h2 : c.area p = c.progBytesAt p - 17 - c.psdBytes := rfl
  have h3 := ha
  simp only [PackState.within] at h3
  simp only [regionBytes, regionBody, List.length_append, length_rsParity, length_controlWord, length_locatorBytes,
    length_headerExt, length_audioField c p a ha, hpsd]
  omega

/-! ## The queue and the warnings -/

theorem packGreedy_queue {c : Cfg} {area target : Nat} {q : List (List Byte)} {a r : PackState}
    (h : packGreedy c area target q a = some r) : r.queue.length ≤ q.length := by
  induction q generalizing a with
  | nil => simp only [packGreedy] at h; split_ifs at h; injection h with h; subst h; exact Nat.le_refl _
  | cons sf q ih =>
    simp only [packGreedy] at h
    split_ifs at h
    · exact Nat.le_succ_of_le (ih h)
    · injection h with h; subst h; unfold packSplit; simp only; split_ifs <;> simp
    · injection h with h; subst h; exact Nat.le_refl _

/-- Packing never lengthens the queue. -/
theorem packAudio_queue {c : Cfg} {n p : Nat} {v : ProgState} {a : PackState} (h : packAudio c n p v = some a) :
    a.queue.length ≤ v.audq.length := packGreedy_queue h

/-- Each bit of the warning mask of a frame (R214). -/
theorem getLsbD_warnBits (p : Nat) (rs : List Packed) (i : Nat) : (warnBits p rs).getLsbD i =
    (decide (i < 32) && decide (p ≤ i) && (rs.map Packed.warn).getD (i - p) false) := by
  induction rs generalizing p with
  | nil => simp [warnBits]
  | cons r rs ih =>
    rw [warnBits, BitVec.getLsbD_or, ih]
    by_cases h1 : i < p
    · simp [show ¬ p ≤ i by omega, show ¬ p + 1 ≤ i by omega]
      split <;> simp [h1]
    · by_cases h2 : i = p
      · subst h2
        simp [show ¬ i + 1 ≤ i by omega]
        split <;> simp_all
      · have : i - p = (i - (p + 1)) + 1 := by omega
        rw [this]
        have h0 : (if r.warn = true then 1#32 <<< p else 0).getLsbD i = false := by
          split
          · simp; intro _ _; omega
          · simp
        rw [h0]
        simp [show p ≤ i by omega, show p + 1 ≤ i by omega]

end Sys2Proof.Machine
end

