-- ==== Sys2Proof/Laws/PerInstr.lean ====
section
/-! SUPPORT. A fact about every command as syntax: the command word it is encoded to has RSV = 0 (30_encoding.md R80,
R83), and its OPC is the one of its row (R85). -/

namespace Sys2Proof.Laws.RsvZero

/-- The command word of the command has RSV = 0, and its OPC stands in the opcode map (R80, R83, R85). -/
def Statement (i : Instr) : Prop :=
  rsvField (encode i) = 0 ∧
    opcField (encode i) ∈ [0x00, 0x01, 0x10, 0x11, 0x12, 0x20, 0x21, 0x30, 0x40, 0x50, 0x51, 0x52, 0x53]

/-- RSV of a packed word is 0, and its OPC is the one packed. -/
theorem packed (opc sel imm : Nat) (h : opc < 256) :
    rsvField (packWord opc sel imm) = 0 ∧ opcField (packWord opc sel imm) = opc := by
  constructor
  · apply BitVec.eq_of_toNat_eq
    simp only [rsvField, BitVec.extractLsb'_toNat, packWord_toNat, Nat.shiftRight_eq_div_pow]
    simp
    omega
  · simp only [opcField, BitVec.extractLsb'_toNat, packWord_toNat, Nat.shiftRight_eq_div_pow]
    omega

theorem nop : Statement .nop :=
  ⟨(packed _ _ _ (by decide)).1, by rw [show opcField (encode .nop) = 0x00 from (packed _ _ _ (by decide)).2]; decide⟩

theorem srst : Statement .srst :=
  ⟨(packed _ _ _ (by decide)).1, by rw [show opcField (encode .srst) = 0x01 from (packed _ _ _ (by decide)).2]; decide⟩

theorem rev8 : Statement .rev8 :=
  ⟨(packed _ _ _ (by decide)).1, by rw [show opcField (encode .rev8) = 0x10 from (packed _ _ _ (by decide)).2]; decide⟩

theorem scr : Statement .scr :=
  ⟨(packed _ _ _ (by decide)).1, by rw [show opcField (encode .scr) = 0x11 from (packed _ _ _ (by decide)).2]; decide⟩

theorem conv25 : Statement .conv25 :=
  ⟨(packed _ _ _ (by decide)).1, by rw [show opcField (encode .conv25) = 0x12 from (packed _ _ _ (by decide)).2]; decide⟩

theorem conv12 : Statement .conv12 :=
  ⟨(packed _ _ _ (by decide)).1, by rw [show opcField (encode .conv12) = 0x12 from (packed _ _ _ (by decide)).2]; decide⟩

theorem ilvp1 : Statement .ilvp1 :=
  ⟨(packed _ _ _ (by decide)).1, by rw [show opcField (encode .ilvp1) = 0x20 from (packed _ _ _ (by decide)).2]; decide⟩

theorem ilvpids : Statement .ilvpids :=
  ⟨(packed _ _ _ (by decide)).1, by rw [show opcField (encode .ilvpids) = 0x20 from (packed _ _ _ (by decide)).2]; decide⟩

theorem ilviv (k : Nat) : Statement (.ilviv k) :=
  ⟨(packed _ _ _ (by decide)).1, by rw [show opcField (encode (.ilviv k)) = 0x21 from (packed _ _ _ (by decide)).2]; decide⟩

theorem l1map : Statement .l1map :=
  ⟨(packed _ _ _ (by decide)).1, by rw [show opcField (encode .l1map) = 0x30 from (packed _ _ _ (by decide)).2]; decide⟩

theorem rsenc : Statement .rsenc :=
  ⟨(packed _ _ _ (by decide)).1, by rw [show opcField (encode .rsenc) = 0x40 from (packed _ _ _ (by decide)).2]; decide⟩

theorem audq (p : Nat) : Statement (.audq p) :=
  ⟨(packed _ _ _ (by decide)).1, by rw [show opcField (encode (.audq p)) = 0x50 from (packed _ _ _ (by decide)).2]; decide⟩

theorem psdset (p : Nat) : Statement (.psdset p) :=
  ⟨(packed _ _ _ (by decide)).1, by rw [show opcField (encode (.psdset p)) = 0x51 from (packed _ _ _ (by decide)).2]; decide⟩

theorem aasq (q : Port) : Statement (.aasq q) :=
  ⟨(packed _ _ _ (by decide)).1, by rw [show opcField (encode (.aasq q)) = 0x52 from (packed _ _ _ (by decide)).2]; decide⟩

theorem l2frame : Statement .l2frame :=
  ⟨(packed _ _ _ (by decide)).1, by rw [show opcField (encode .l2frame) = 0x53 from (packed _ _ _ (by decide)).2]; decide⟩

end Sys2Proof.Laws.RsvZero
end

