-- ==== Sys2Proof/Laws/Spreading.lean ====
section
/-! SUPPORT. Header spreading (44_l2_multiplexer.md R222): where the codeword bits stand, and what the other positions
carry. -/

namespace Sys2Proof.Machine

@[simp] theorem length_spreadFrom (stride n t pos : Nat) (code payload : List Bool) :
    (spreadFrom stride n t pos code payload).length = n := by
  induction n generalizing t pos code payload with
  | zero => rfl
  | succ n ih => simp only [spreadFrom]; split <;> simp [ih]

/-- Codeword bit k stands at position pos + k·stride. -/
theorem getD_spreadFrom_code (stride n t pos : Nat) (code payload : List Bool) (hs : 1 ≤ stride) (ht : t ≤ pos)
    (k : Nat) (hk : k < code.length) (hin : pos + k * stride < t + n) :
    (spreadFrom stride n t pos code payload).getD (pos + k * stride - t) false = code.getD k false := by
  induction n generalizing t pos code payload k with
  | zero => have := Nat.zero_le (k * stride); omega
  | succ n ih =>
    simp only [spreadFrom]
    by_cases htp : t = pos
    · subst htp
      cases code with
      | nil => simp at hk
      | cons b code =>
        rw [if_pos ⟨rfl, by simp⟩]
        cases k with
        | zero => simp
        | succ k =>
          have e : t + (k + 1) * stride - t = (t + stride + k * stride - (t + 1)) + 1 := by
            rw [Nat.succ_mul]; omega
          rw [e, List.getD_cons_succ, List.getD_cons_succ]
          exact ih (t + 1) (t + stride) code payload (by omega) k (by simpa using hk)
            (by rw [Nat.succ_mul] at hin; omega)
    · rw [if_neg (fun h => htp h.1)]
      have e : pos + k * stride - t = (pos + k * stride - (t + 1)) + 1 := by
        have := Nat.zero_le (k * stride); omega
      rw [e, List.getD_cons_succ]
      exact ih (t + 1) pos code payload.tail (by omega) k hk (by omega)

/-- The position x carries no codeword bit. -/
def freePos (stride pos len x : Nat) : Bool := (List.range len).all (fun k => x != pos + k * stride)

theorem freePos_iff (stride pos len x : Nat) :
    freePos stride pos len x = true ↔ ∀ k < len, x ≠ pos + k * stride := by
  simp [freePos]

/-- Taking the first codeword bit off moves the positions on by one stride. -/
theorem freePos_succ (stride pos len x : Nat) :
    freePos stride pos (len + 1) x = (x != pos && freePos stride (pos + stride) len x) := by
  rw [Bool.eq_iff_iff, freePos_iff, Bool.and_eq_true, bne_iff_ne, freePos_iff]
  constructor
  · intro h
    refine ⟨by simpa using h 0 (by omega), fun k hk he => h (k + 1) (by omega) ?_⟩
    rw [he, Nat.succ_mul]; omega
  · rintro ⟨h0, h⟩ k hk
    cases k with
    | zero => simpa using h0
    | succ k =>
      intro he
      refine h k (by omega) ?_
      rw [he, Nat.succ_mul]; omega

/-- The free positions carry the payload bits in order. -/
theorem spreadFrom_payload (stride n t pos : Nat) (code payload : List Bool) (hs : 1 ≤ stride) (ht : t ≤ pos)
    (hin : code ≠ [] → pos + (code.length - 1) * stride < t + n) (hl : payload.length + code.length = n) :
    ((List.range' t n).filter (freePos stride pos code.length)).map
      (fun x => (spreadFrom stride n t pos code payload).getD (x - t) false) = payload := by
  induction n generalizing t pos code payload with
  | zero =>
    have : payload = [] := List.length_eq_zero_iff.1 (by omega)
    subst this; simp
  | succ n ih =>
    have hmap : ∀ (b : Bool) (rest : List Bool) (p : Nat → Bool),
        ((List.range' (t + 1) n).filter p).map (fun x => (b :: rest).getD (x - t) false) =
          ((List.range' (t + 1) n).filter p).map (fun x => rest.getD (x - (t + 1)) false) := by
      intro b rest p
      apply List.map_congr_left
      intro x hx
      have : t + 1 ≤ x := (List.mem_range'_1.1 (List.mem_filter.1 hx).1).1
      rw [show x - t = (x - (t + 1)) + 1 by omega, List.getD_cons_succ]
    rw [List.range'_succ]
    simp only [spreadFrom]
    by_cases htp : t = pos
    · subst htp
      cases code with
      | nil =>
        rw [if_neg (by simp)]
        cases payload with
        | nil => simp at hl
        | cons b payload =>
          rw [List.filter_cons_of_pos (by simp [freePos]), List.map_cons, hmap]
          have h1 : freePos stride t ([] : List Bool).length = freePos stride (t + 1) ([] : List Bool).length := by
            funext x; simp [freePos]
          have := ih (t + 1) (t + 1) [] payload (Nat.le_refl _) (by simp) (by simpa using hl)
          have h2 : spreadFrom stride n (t + 1) t [] payload = spreadFrom stride n (t + 1) (t + 1) [] payload := by
            have : ∀ m s p q (pl : List Bool), spreadFrom stride m s p [] pl = spreadFrom stride m s q [] pl := by
              intro m
              induction m with
              | zero => intros; rfl
              | succ m ihm => intro s p q pl; simp [spreadFrom, ihm (s + 1) p q]
            exact this _ _ _ _ _
          rw [h1]
          simp only [List.tail_cons, List.headD_cons, Nat.sub_self, List.getD_cons_zero, h2]
          rw [this]
      | cons b code =>
        rw [if_pos ⟨rfl, by simp⟩]
        rw [List.filter_cons_of_neg (by rw [List.length_cons, freePos_succ]; simp), hmap]
        have hf : ((List.range' (t + 1) n).filter (freePos stride t (b :: code).length)) =
            ((List.range' (t + 1) n).filter (freePos stride (t + stride) code.length)) := by
          apply List.filter_congr
          intro x hx
          have : t + 1 ≤ x := (List.mem_range'_1.1 hx).1
          rw [List.length_cons, freePos_succ, show (x != t) = true by simp; omega, Bool.true_and]
        rw [hf]
        have hl' : payload.length + code.length = n := by simp at hl; omega
        refine ih (t + 1) (t + stride) code payload (by omega) (fun hne => ?_) hl'
        have := hin (by simp)
        obtain ⟨m, hm⟩ : ∃ m, code.length = m + 1 :=
          Nat.exists_eq_succ_of_ne_zero (by simpa using hne)
        simp only [List.length_cons, hm, Nat.add_sub_cancel, Nat.succ_mul] at this ⊢
        omega
    · rw [if_neg (fun h => htp h.1)]
      have hfree : freePos stride pos code.length t = true := by
        rw [freePos_iff]; intro k _ he
        have := Nat.zero_le (k * stride); omega
      rw [List.filter_cons_of_pos hfree, List.map_cons, hmap]
      cases payload with
      | nil =>
        exfalso
        cases code with
        | nil => simp at hl
        | cons b code =>
          have := hin (by simp)
          simp only [List.length_cons, Nat.add_sub_cancel, List.length_nil, Nat.zero_add] at this hl
          have h2 : code.length ≤ code.length * stride := Nat.le_mul_of_pos_right _ hs
          omega
      | cons b payload =>
        simp only [List.tail_cons, List.headD_cons, Nat.sub_self, List.getD_cons_zero]
        rw [ih (t + 1) pos code payload (by omega) (fun hne => by have := hin hne; omega)
          (by simp at hl; omega)]

@[simp] theorem length_frameBitsOf (o : L2BitOrder) (bytes : List Byte) :
    (frameBitsOf o bytes).length = 8 * bytes.length := by
  induction bytes with
  | nil => rfl
  | cons b bytes ih =>
    rw [frameBitsOf, List.flatMap_cons, List.length_append]
    rw [frameBitsOf] at ih
    rw [ih, List.length_cons, byteBits, List.length_map, List.length_range]
    omega

/-- Payload bit j is a bit of byte j / 8, counted from the top or from the bottom (R223). -/
theorem frameBitsOf_eq (o : L2BitOrder) (bytes : List Byte) : frameBitsOf o bytes =
    (List.range (8 * bytes.length)).map (fun j => (byteBits o (bytes.getD (j / 8) 0)).getD (j % 8) false) := by
  induction bytes with
  | nil => rfl
  | cons b bs ih =>
    rw [frameBitsOf, List.flatMap_cons, ← frameBitsOf, ih, List.length_cons,
      show 8 * (bs.length + 1) = 8 + 8 * bs.length by omega, List.range_add, List.map_append, List.map_map]
    congr 1
    refine List.map_congr_left fun j _ => ?_
    simp only [Function.comp]
    rw [show (8 + j) / 8 = j / 8 + 1 by omega, show (8 + j) % 8 = j % 8 by omega, List.getD_cons_succ]

@[simp] theorem length_headerSpread (c : Cfg) (bytes : List Byte) : (headerSpread c bytes).length = c.frameBits := by
  simp [headerSpread]

end Sys2Proof.Machine
end

