-- ==== Sys2Proof/Laws/Step.lean ====
section
/-! SUPPORT. Everything one step can do: which agent moved, and what it did. -/

namespace Sys2Proof.Machine

/-- The state with the next turn taken off the order of turns. -/
def State.taken (s : State) : State := { s with host := { s.host with turns := s.host.turns.tail } }

theorem State.taken_of_nil {s : State} (h : s.host.turns = []) : s.taken = s := by
  obtain ⟨cfg, csr, phase, lat, iv, l2, evq, mem, faults, draws, ⟨program, pc, responses, turns⟩⟩ := s
  simp only at h
  subst h
  rfl

@[simp] theorem State.taken_cfg (s : State) : s.taken.cfg = s.cfg := rfl
@[simp] theorem State.taken_csr (s : State) : s.taken.csr = s.csr := rfl
@[simp] theorem State.taken_phase (s : State) : s.taken.phase = s.phase := rfl
@[simp] theorem State.taken_lat (s : State) : s.taken.lat = s.lat := rfl
@[simp] theorem State.taken_iv (s : State) : s.taken.iv = s.iv := rfl
@[simp] theorem State.taken_l2 (s : State) : s.taken.l2 = s.l2 := rfl
@[simp] theorem State.taken_evq (s : State) : s.taken.evq = s.evq := rfl
@[simp] theorem State.taken_mem (s : State) : s.taken.mem = s.mem := rfl
@[simp] theorem State.taken_faults (s : State) : s.taken.faults = s.faults := rfl
@[simp] theorem State.taken_draws (s : State) : s.taken.draws = s.draws := rfl

/-- The turn of a BUSY block completes its command. -/
theorem blockTurn_busy {s : State} (h : s.phase = .busy) :
    (∃ i, decode s.lat.w = .cmd i ∧ blockTurn s = exec i s) ∨
    (∃ c, c ∈ [Cause.illegalCmd, Cause.rsvdNonzero] ∧ blockTurn s = .next (s.completeError c s.lat.w)) := by
  cases hd : decode s.lat.w with
  | cmd i => exact .inl ⟨i, rfl, by simp only [blockTurn, h, hd]⟩
  | illegalCmd => exact .inr ⟨.illegalCmd, by simp, by simp only [blockTurn, h, hd]⟩
  | rsvdNonzero => exact .inr ⟨.rsvdNonzero, by simp, by simp only [blockTurn, h, hd]⟩

theorem Width.bytes_pos (wd : Width) : 0 < wd.bytes := by cases wd <;> decide

/-- A hazard, byte by byte: the block is BUSY with a command that uses a byte of the access (R76, R78). -/
theorem State.hazard_iff (s : State) (a n : Nat) (hn : 0 < n) : s.hazard a n ↔ s.phase = .busy ∧
    ∃ i r x, decode s.lat.w = .cmd i ∧ r ∈ inUseRanges s i ∧ a ≤ x ∧ x < a + n ∧ r.1 ≤ x ∧ x < r.1 + r.2 := by
  refine and_congr_right fun _ => ?_
  rw [List.any_eq_true]
  unfold latRanges
  constructor
  · rintro ⟨r, hr, ho⟩
    simp only [overlap, decide_eq_true_eq] at ho
    split at hr
    · next i hd => exact ⟨i, r, max a r.1, hd, hr, by omega⟩
    · cases hr
    · cases hr
  · rintro ⟨i, r, x, hd, hr, h⟩
    rw [hd]
    exact ⟨r, hr, by simp only [overlap, decide_eq_true_eq]; omega⟩

/-- What a line of the host can do. -/
theorem hostLine_cases {s t : State} {line : HostLine} (h : hostLine s line = .next t) :
    (t = s.markCsrAccess.hostNext) ∨ (t = s.markHazard.hostNext) ∨
    (∃ off n, t = ((s.afterCsrRead off).respond (s.csrValue off)).hostAt n) ∨
    (∃ off v, t = (s.csrWrite off v).hostNext) ∨
    (∃ v, t = (s.respond v).hostNext) ∨
    (∃ (a v : Word) (wd : Width), legal s.cfg a.toNat wd.bytes ∧
      t = { s with mem := s.mem.writeBlock a.toNat (bytesLE v.toNat wd.bytes) }.hostNext) := by
  cases line with
  | rd wd off =>
    simp only [hostLine, hostRd] at h
    split_ifs at h
    · injection h with h; exact .inr (.inr (.inl ⟨off.toNat, _, h.symm⟩))
    · injection h with h; exact .inl h.symm
  | wr wd off v =>
    simp only [hostLine, hostWr] at h
    split_ifs at h
    · injection h with h; exact .inr (.inr (.inr (.inl ⟨off.toNat, v, h.symm⟩)))
    · injection h with h; exact .inl h.symm
  | mr wd a =>
    simp only [hostLine, hostMr] at h
    split_ifs at h
    · injection h with h; exact .inr (.inl h.symm)
    · injection h with h; exact .inr (.inr (.inr (.inr (.inl ⟨_, h.symm⟩))))
  | mw wd a v =>
    simp only [hostLine, hostMw] at h
    split_ifs at h with h1 h2
    · injection h with h; exact .inr (.inl h.symm)
    · injection h with h; exact .inr (.inr (.inr (.inr (.inr ⟨a, v, wd, h1, h.symm⟩))))
  | loopUntil off hi lo v label =>
    simp only [hostLine, hostLoop] at h
    split_ifs at h
    · injection h with h; exact .inr (.inr (.inl ⟨off.toNat, _, h.symm⟩))
    · injection h with h; exact .inr (.inr (.inl ⟨off.toNat, _, h.symm⟩))
    · injection h with h; exact .inl h.symm

/-- What a step can do: nothing but take a turn; complete the command of a BUSY block; complete it with a decode
error; or run a line of the host. -/
theorem step_cases {s t : State} (h : step s = .next t) :
    t = s.taken ∨
    (s.phase = .busy ∧ ∃ i, decode s.lat.w = .cmd i ∧ t = s.taken.finish (completionOf i s.taken)) ∨
    (s.phase = .busy ∧ ∃ c, t = s.taken.completeError c s.lat.w) ∨
    (∃ line, hostLine s.taken line = .next t) := by
  have hb : blockTurn s.taken = .next t → t = s.taken ∨
      (s.phase = .busy ∧ ∃ i, decode s.lat.w = .cmd i ∧ t = s.taken.finish (completionOf i s.taken)) ∨
      (s.phase = .busy ∧ ∃ c, t = s.taken.completeError c s.lat.w) := by
    intro hb
    cases hp : s.phase with
    | idle => simp only [blockTurn, State.taken_phase, hp] at hb; injection hb with hb; exact .inl hb.symm
    | busy =>
      rcases blockTurn_busy (s := s.taken) hp with ⟨i, hi, he⟩ | ⟨c, _, he⟩
      · rw [he, exec_next_iff] at hb
        exact .inr (.inl ⟨rfl, i, hi, hb⟩)
      · rw [he] at hb; injection hb with hb
        exact .inr (.inr ⟨rfl, c, hb.symm⟩)
  have hh : hostTurn s.taken = .next t → t = s.taken ∨ ∃ line, hostLine s.taken line = .next t := by
    intro hh
    unfold hostTurn at hh
    split at hh
    · injection hh with hh; exact .inl hh.symm
    · exact .inr ⟨_, hh⟩
  have hs : step s = blockTurn s.taken ∨ step s = hostTurn s.taken := by
    cases ht : s.host.turns with
    | nil =>
      rw [State.taken_of_nil ht]
      cases hp : s.phase with
      | idle => right; simp only [step, ht, hp]
      | busy => left; simp only [step, ht, hp]
    | cons a l => cases a <;> simp [step, ht, State.taken]
  rcases hs with hs | hs
  · rcases hb (hs ▸ h) with h | h | h
    · exact .inl h
    · exact .inr (.inl h)
    · exact .inr (.inr (.inl h))
  · rcases hh (hs ▸ h) with h | h
    · exact .inl h
    · exact .inr (.inr (.inr h))

end Sys2Proof.Machine
end

