-- ==== Sys2Proof/Tests/Slice0.lean ====
section
/-! SUPPORT. Tests of the model on the vectors of 95_test_vectors.md and on words written out from the opcode map,
and for every statement with hypotheses a state and operands that meet them. -/

open Sys2Proof Sys2Proof.Machine

/-! ## States for the tests -/

namespace Sys2Proof.Tests

/-- The sample instance with BUFMEM drawn as zeros and the type IV buffer all 0. -/
def toy : State :=
  { State.resetWith Cfg.sample with
    lat := ⟨0, 0, 0, 0, 0⟩
    iv := [⟨List.replicate 8 0, false⟩]
    mem := ⟨.uniform 0, []⟩ }

/-- A BUSY block with its operands latched: SRC, DST and LEN. -/
def busy (src dst len : Nat) : State :=
  { toy with phase := .busy, lat := ⟨0, toWord src, toWord dst, toWord len, 0⟩ }

/-- The same with bytes placed in BUFMEM from address `a` on. -/
def busyAt (src dst len a : Nat) (bs : List Byte) : State :=
  { busy src dst len with mem := toy.mem.writeBlock a bs }

/-- The state of a command's completion. -/
def run (i : Instr) (s : State) : State :=
  match exec i s with
  | .next t => t
  | .fault _ => s
  | .refused _ => s

/-- The `n` bytes at address `a` after a command. -/
def out (i : Instr) (s : State) (a n : Nat) : List Byte := (run i s).mem.readBlock a n

/-- What a command reports: STATUS, CAUSE and INFO. -/
def report (i : Instr) (s : State) : Word × Byte × Word :=
  ((run i s).status, (run i s).csr.cause, (run i s).csr.info)

/-- The cells of a bit string, cell 0 first, written as a number of `n` binary digits. -/
def cells (n v : Nat) : List Byte := (List.range n).map (fun i => bitCell (Nat.testBit v (n - 1 - i)))

/-! ## WellFormed -/

theorem test_wf_sel_too_wide : (Instr.ilviv 16).wellFormed = false := by decide
theorem test_wf_audq_imm_too_wide : (Instr.audq 65536).wellFormed = false := by decide
theorem test_wf_psdset_imm_too_wide : (Instr.psdset 65536).wellFormed = false := by decide
theorem test_wf_accepts : (Instr.ilviv 15).wellFormed = true ∧ (Instr.audq 65535).wellFormed = true := by decide

/-! ## Decode: words written bit by bit from the OPC, SEL, RSV and IMM columns of R85 -/

theorem test_decode_nop : decode 0b0000000000000000_0000_0000_00000000 = .cmd .nop := by decide
theorem test_decode_srst : decode 0b0000000000000000_0000_0000_00000001 = .cmd .srst := by decide
theorem test_decode_rev8 : decode 0b0000000000000000_0000_0000_00010000 = .cmd .rev8 := by decide
theorem test_decode_scr : decode 0b0000000000000000_0000_0000_00010001 = .cmd .scr := by decide
theorem test_decode_conv25 : decode 0b0000000000000000_0000_0000_00010010 = .cmd .conv25 := by decide
theorem test_decode_conv12 : decode 0b0000000000000000_0000_0001_00010010 = .cmd .conv12 := by decide
theorem test_decode_ilvp1 : decode 0b0000000000000000_0000_0000_00100000 = .cmd .ilvp1 := by decide
theorem test_decode_ilvpids : decode 0b0000000000000000_0000_0001_00100000 = .cmd .ilvpids := by decide
theorem test_decode_ilviv : decode 0b0000000000000000_0000_1010_00100001 = .cmd (.ilviv 10) := by decide
theorem test_decode_l1map : decode 0b0000000000000000_0000_0000_00110000 = .cmd .l1map := by decide
theorem test_decode_rsenc : decode 0b0000000000000000_0000_0000_01000000 = .cmd .rsenc := by decide
theorem test_decode_audq : decode 0b1000000000000001_0000_0000_01010000 = .cmd (.audq 32769) := by decide
theorem test_decode_psdset : decode 0b0000000000000111_0000_0000_01010001 = .cmd (.psdset 7) := by decide
theorem test_decode_aasq : decode 0b0101000100000000_0000_0000_01010010 = .cmd (.aasq 0x5100) := by decide
theorem test_decode_l2frame : decode 0b0000000000000000_0000_0000_01010011 = .cmd .l2frame := by decide

/-- V67 to V68a. -/
theorem test_decode_refused : decode 0x00000013 = .illegalCmd ∧ decode 0x00000212 = .illegalCmd ∧
    decode 0x00000110 = .illegalCmd ∧ decode 0x00001012 = .rsvdNonzero ∧ decode 0x00010012 = .rsvdNonzero := by
  decide

theorem test_table_word : decodeTableWord 32 0x00000F21 = some (.ilviv 15) := by decide

/-! ## Control commands -/

/-- V65. -/
theorem test_nop : run .nop { busy 1 2 3 with csr := { Csr.reset with incnt := 9 } } =
    { busy 1 2 3 with phase := .idle, csr := { Csr.reset with flags := { Flags.none with done := true } } } := rfl

/-- V66. -/
theorem test_srst : (run .srst { busy 0 0 0 with
      csr := { Csr.reset with cause := 0xB, lfsr := 7, irqen := 15, cmd := 1 }
      l2 := { L2State.reset Cfg.sample with progs := [⟨3, none, [[1]], some [2, 3]⟩], frameCnt := 5 } }).csr =
    { Csr.reset with cmd := 1, flags := { Flags.none with done := true } } := by decide

/-! ## REV8 and SCR -/

/-- V2. -/
theorem test_rev8 : out .rev8 (busyAt 0x100 0x200 16 0x100 (cells 16 0b1100101011110000)) 0x200 16 =
    cells 16 0b0101001100001111 := by decide

/-- V5a. -/
theorem test_rev8_overlap : report .rev8 (busy 0x100 0x108 16) = (0x6, 0x06, 0x108) := by decide

/-- V13a. -/
theorem test_scr : let t := run .scr (busyAt 0x100 0x100 16 0x100 (cells 16 0b1100101011110000))
    t.mem.readBlock 0x100 16 = cells 16 0b1010110010101010 ∧ t.csr.lfsr = 0x2D3 := by decide

/-- V13: a byte that is no bit cell has its bit 0 flipped only. -/
theorem test_scr_bytes : out .scr (busyAt 0 0x10 8 0 (List.replicate 8 2)) 0x10 8 = [2, 3, 3, 2, 2, 3, 3, 2] := by
  decide

/-! ## Convolutional encoder -/

/-- V20. -/
theorem test_conv25 : out .conv25 (busyAt 0 0x100 8 0 (cells 8 0b10110011)) 0x100 20 =
    cells 20 0b00010111111100111100 := by decide

/-- V14 and V20f: the two register orders. -/
theorem test_conv25_orders : let u := [true, false, false, false, false, false, false, false]
    (encode7 .msbNewest taps25 u).map bitCell = cells 20 0b11101111110011011100 ∧
    (encode7 .lsbNewest taps25 u).map bitCell = cells 20 0b11110001111110111100 := by decide

/-- V20e: an odd length at rate 1/2. -/
theorem test_conv12 : out .conv12 (busyAt 0 0x100 7 0 (cells 7 0b1000000)) 0x100 14 =
    cells 14 0b11011110011011 := by decide

/-- V25. -/
theorem test_conv12_badbit : report .conv12 (busyAt 0x40 0x100 8 0x40 [1, 0, 1, 2, 0, 0, 5, 0]) =
    (0x6, 0x07, 0x43) := by decide

/-! ## Interleavers -/

/-- V30a, V31b, V31d. -/
theorem test_cell1 : cell1 Cfg.sample 1 = (448, 72) ∧ cell1 Cfg.sample 6399 = (81, 209) ∧
    cell1 Cfg.sample 365439 = (71, 206) := by decide

/-- V32, V32e, V32f. -/
theorem test_cell2 : cell2 Cfg.sample 0 = (18, 361) ∧ cell2 Cfg.sample 200 = (50, 361) ∧
    cell2 Cfg.sample 3199 = (501, 208) := by decide

/-- V33 and V34. -/
theorem test_ilv_stall : report .ilvp1 (busy 0xFFFFFF 0 365439) = (0x12, 0, 0) ∧
    report .ilvpids (busy 0 0 3199) = (0x12, 0, 0) := by decide

/-- V37, call 4. -/
theorem test_ilviv : let t := run (.ilviv 0) { busyAt 0 0x10 4 0 (cells 4 0b1011) with
      iv := [⟨[1, 1, 0, 0, 1, 1, 0, 0], true⟩] }
    t.mem.readBlock 0x10 4 = [1, 1, 1, 1] ∧ t.iv = [⟨[1, 1, 1, 1, 1, 1, 0, 1], false⟩] := by decide

/-- V39. -/
theorem test_ilviv_unconfigured : report (.ilviv 1) (busy 0 0 4) = (0x6, 0x0A, 1) := by decide

/-- R78, and log entry 23 for the instance that does not exist. -/
theorem test_ilviv_ranges : inUseRanges (busy 1 2 9) (.ilviv 0) = [(1, 4), (2, 4)] ∧
    inUseRanges (busy 1 2 9) (.ilviv 1) = [] := by decide

/-! ## L1 mapper -/

/-- V51 and V52, with a reference subcarrier and a blank one (R170 to R174). -/
theorem test_l1_symbol :
    l1Symbol Cfg.sample (fun i => if i = 0 then 1 else 0) (fun _ => 0) 0 1 = 2 ∧
    l1Symbol Cfg.sample (fun i => if i = 5 * 720 + 36 * 3 + 7 then 1 else 0) (fun _ => 0) 5 (18 * 3 + 3 + 1) = 1 ∧
    l1Symbol { Cfg.sample with symPack := .loFirst } (fun i => if i = 0 then 1 else 0) (fun _ => 0) 0 1 = 1 ∧
    l1Symbol Cfg.sample (fun _ => 0) (fun _ => 0) 7 361 = 3 ∧
    l1Symbol Cfg.sample (fun _ => 0) (fun _ => 0) 7 362 = 4 := by decide +kernel

/-- R178: an illegal range. -/
theorem test_l1map_range : report .l1map (busy 0 0 0) = (0x6, 0x05, 0) := by decide

/-! ## Reed-Solomon -/

/-- The generator of the hint (R191). -/
theorem test_rs_generator : rsGen Cfg.sample = [0x25, 0xe0, 0x08, 0xac, 0x47, 0xb2, 0x2c, 0xe3, 0x01] := by
  decide +kernel

/-- V43. -/
theorem test_rsenc : out .rsenc (busyAt 0x20 0 16 0x28 [1, 2, 3, 4, 5, 6, 7, 8]) 0x20 9 =
    [0x84, 0x7c, 0xfa, 0xc4, 0xe3, 0xfc, 0xf7, 0x91, 1] := by decide +kernel

/-! ## L2 multiplexer -/

/-- Sub-frame s1 of section 2.8. -/
def s1 : List Byte := [0xff, 0xf1, 0x50, 0x00, 0x01, 0x80, 0xfc, 1, 2, 3, 4, 5]

/-- V56. -/
theorem test_audq : (run (.audq 0) (busyAt 0x80 0 12 0x80 s1)).progAt 0 = ⟨0, none, [[1, 2, 3, 4, 5]], none⟩ := by
  decide

/-- V56a. -/
theorem test_audq_adts : report (.audq 0) (busyAt 0x80 0 13 0x80 s1) = (0x6, 0x0B, 12) := by decide

/-- V57. -/
theorem test_psdset : (run (.psdset 0) (busyAt 0x80 0 2 0x80 [0xaa, 0xbb])).progAt 0 =
    ⟨0, none, [], some [0xaa, 0xbb]⟩ := by decide

/-- V57b. -/
theorem test_psdset_len : report (.psdset 0) (busy 0x80 0 3) = (0x6, 0x04, 3) := by decide

/-- V58. -/
theorem test_aasq : (run (.aasq 0x5100) (busyAt 0x80 0 4 0x80 [0x7e, 1, 2, 0x7e])).l2.aasq =
    [(0x5100, [0x7e, 1, 2, 0x7e])] := by decide

/-- V58a. -/
theorem test_aasq_hdlc : report (.aasq 0x5100) (busyAt 0x80 0 5 0x80 [0x7e, 1, 0x7e, 2, 0x7e]) =
    (0x6, 0x0C, 0x82) := by decide

/-- CW_FN, HDREXT_FN and LOC_ENC of section 2.8. -/
def toyFns : FrameFns where
  cw p s0 n frameCnt i := BitVec.ofNat 8 ([p, s0, n, frameCnt].getD i 0)
  hdrExt p frameCnt i := BitVec.ofNat 8 ([0xE0, p, frameCnt].getD i 0)
  sync _ := 0
  locEnc _ ends i := BitVec.ofNat 8 (if i % 2 = 0 then ends.getD (i / 2) 0 / 256 else ends.getD (i / 2) 0)

/-- The bytes from `a` up to `b`. -/
def span (a b : Nat) : List Byte := (List.range (b - a)).map (fun i => BitVec.ofNat 8 (a + i))

/-- V60 to V62, frame F1: the split, and the first 86 bits of the frame. -/
theorem test_l2frame : let s := { busy 0 0x200 0 with
      l2 := { L2State.reset Cfg.sample with progs := [⟨0, none, [[1, 2, 3, 4, 5], span 0x10 0x22], some [0xaa, 0xbb]⟩] } }
    let t := s.finish (l2frameWith toyFns s)
    t.l2.progs = [⟨1, some ⟨span 0x10 0x22, 13, 0xec⟩, [], none⟩] ∧ t.csr.incnt = 2 ∧ t.csr.outcnt = 344 ∧
    t.mem.readBlock 0x200 86 =
      cells 86 0b01011001111000101100110100100000000000111111101010111001001010111000000000000001000000 := by
  decide +kernel

/-- V60 and V61, frame F2: carryover, an exact fit, and the region bytes; V64: the bytes of the FDS stream, the
events, and the queues after it. -/
theorem test_l2frame_parts : packProg toyFns Cfg.sample 1 0
      ⟨1, some ⟨span 0x10 0x22, 13, 0xec⟩, [span 0x30 0x34, span 0x40 0x43], some [0xcc, 0xdd]⟩ =
    some ⟨[0x7a, 0x23, 0x42, 0x6b, 0xbb, 0x3a, 0x31, 0x6c, 0x00, 0x01, 0x03, 0x01, 0x00, 0x00,
        0x00, 0x05, 0x00, 0x0a, 0x00, 0x0e, 0xe0, 0x00, 0x01, 0x1d, 0x1e, 0x1f, 0x20, 0x21, 0xef,
        0x30, 0x31, 0x32, 0x33, 0xdd, 0x40, 0x41, 0x42, 0x94, 0xcc, 0xdd],
      ⟨4, none, [], none⟩, false, 2⟩ ∧
    let r := fdsTake Cfg.sample 24 ⟨[(3, [0x7e, 2, 3, 0x7e]), (5, [0x7e, 1, 0x7e])], none, false, 0, [], false⟩
    r.1 = [0xa0, 0xa1, 0xa2, 0xa3, 0x7e, 2, 0xa0, 0xa1, 0xa2, 0xa3, 3, 0x7e, 0xa0, 0xa1, 0xa2, 0xa3, 0x7e, 1,
      0xa0, 0xa1, 0xa2, 0xa3, 0x7e, 0] ∧
    r.2 = ⟨[(3, []), (5, [])], none, false, 24, [3, 5], false⟩ := by decide +kernel

/-! ## Registers -/

/-- R25: writing ones clears, and a write of 0 leaves a flag. -/
theorem test_status_clear : ({ toy with csr := { Csr.reset with flags := ⟨true, true, false, true, false, false⟩ } }.csrWrite
    0x04 0x12).status = 0x4 := by decide

end Sys2Proof.Tests

/-! ## Witnesses: for each statement with hypotheses, a state and operands that meet them -/

namespace Sys2Proof.Tests

/-- A BUSY block that latched word `w`, with the order of turns `l`. -/
def holding (w : Word) (l : List Agent) : State :=
  { busy 0 0 0 with lat := ⟨w, 0, 0, 0, 0⟩, host := { HostState.empty with turns := l } }

theorem exec_run (i : Instr) (s : State) : exec i s = .next (run i s) := by simp [run, exec_eq]

/-- The sample instance with BUFMEM of 2 MiB, for the blocks of a whole frame. -/
def bigCfg : Cfg := { Cfg.sample with bufBytes := 0x200000 }

theorem bigCfg_valid : bigCfg.valid = true := by
  show (bigCfg.platformOk && Cfg.sample.interleaverOk && Cfg.sample.mapperOk && Cfg.sample.rsOk && bigCfg.l2Ok) = true
  rw [Cfg.sample_interleaverOk, Cfg.sample_mapperOk, Cfg.sample_rsOk]
  decide

/-- A BUSY block of that instance. -/
def bigBusy (src dst len aux : Nat) : State :=
  { toy with cfg := bigCfg, phase := .busy, lat := ⟨0, toWord src, toWord dst, toWord len, toWord aux⟩ }

theorem busy_bits (src dst len a : Nat) : isBit ((busy src dst len).mem.read a) = true := rfl

/-- L2 state of the toy instance with one program state. -/
def withProg (s : State) (v : ProgState) : State := { s with l2 := { s.l2 with progs := [v] } }

/-! ### Encoding -/

theorem witness_EncodeThenDecode : (Instr.ilviv 15).wellFormed = true ∧ (Instr.psdset 65535).wellFormed = true := by
  decide

theorem witness_DecodeThenEncode : decode 0x00000F21 = .cmd (.ilviv 15) := by decide

theorem witness_IllegalWords :
    opcField 0xFFFFF013 ∉ [0x00, 0x01, 0x10, 0x11, 0x12, 0x20, 0x21, 0x30, 0x40, 0x50, 0x51, 0x52, 0x53] ∧
    (opcField 0x212 = 0x12 ∧ 2 ≤ selField 0x212) ∧ (opcField 0xF20 = 0x20 ∧ 2 ≤ selField 0xF20) ∧
    (opcField 0x100 ≠ 0x12 ∧ opcField 0x100 ≠ 0x20 ∧ opcField 0x100 ≠ 0x21 ∧ selField 0x100 ≠ 0) ∧
    opcField 0xFFFFFF21 = 0x21 := by decide

/-- The two ways in which it is the turn of a BUSY block: with an empty order of turns, and with the block first. -/
theorem block_turns (w : Word) (l : List Agent) : turnOf .block (holding w []) (holding w []) ∧
    turnOf .block (holding w (.block :: l)) (holding w l) :=
  ⟨.inr ⟨rfl, rfl, fun _ => rfl, fun _ => rfl⟩, .inl ⟨l, rfl, rfl⟩⟩

theorem witness_AcceptedWordDecodesInOrder :
    (∀ w ∈ [0x13#32, 0x1012#32, 0x10012#32, 0xF21#32, 0xFFFF0050#32],
      ((holding w []).phase = .busy ∧ (holding w []).lat.w = w ∧ turnOf .block (holding w []) (holding w [])) ∧
      ((holding w [.block, .host]).phase = .busy ∧ (holding w [.block, .host]).lat.w = w ∧
        turnOf .block (holding w [.block, .host]) (holding w [.host]))) ∧
    (∀ r ∈ opcodeTable, r.selects 0x13 = false) ∧
    (∃ r ∈ opcodeTable, r.selects 0x1012 = true ∧ rsvField 0x1012 ≠ 0) ∧
    (∃ r ∈ opcodeTable, r.selects 0x10012 = true ∧ rsvField 0x10012 = 0 ∧ r.usesImm = false ∧
      immField 0x10012 ≠ 0) ∧
    (∃ r ∈ opcodeTable, r.selects 0xF21 = true ∧ rsvField 0xF21 = 0 ∧ immField 0xF21 = 0) ∧
    (∃ r ∈ opcodeTable, r.selects 0xFFFF0050 = true ∧ rsvField 0xFFFF0050 = 0 ∧ r.usesImm = true) := by
  refine ⟨fun w _ => ⟨⟨rfl, rfl, (block_turns w []).1⟩, rfl, rfl, (block_turns w [.host]).2⟩, by decide, ?_, ?_, ?_, ?_⟩
  · exact ⟨opcodeTable[4], List.getElem_mem _, by decide⟩
  · exact ⟨opcodeTable[4], List.getElem_mem _, by decide⟩
  · exact ⟨opcodeTable[8], List.getElem_mem _, by decide⟩
  · exact ⟨opcodeTable[11], List.getElem_mem _, by decide⟩

/-! ### Steps -/

/-- An IDLE block with the host's program `p` and the order of turns `l`. -/
def hosting (p : List HostLine) (l : List Agent) : State := { toy with host := ⟨p, 0, [], l⟩ }

/-- The two ways in which it is the turn of the host beside an IDLE block. -/
theorem host_turns (p : List HostLine) (l : List Agent) : turnOf .host (hosting p []) (hosting p []) ∧
    turnOf .host (hosting p (.host :: l)) (hosting p l) :=
  ⟨.inr ⟨rfl, rfl, nofun, nofun⟩, .inl ⟨l, rfl, rfl⟩⟩

/-- The turn of a BUSY block with a command, of an IDLE block, and of a host with a line and with none; each where the
order of turns names the agent, and the first and the last also where it is empty. -/
theorem witness_StepRunsDecodedCommand :
    (turnOf .block (holding 0x10 []) (holding 0x10 []) ∧
      turnOf .block (holding 0x10 [.block, .host]) (holding 0x10 [.host]) ∧
      (holding 0x10 []).phase = .busy ∧ decode (holding 0x10 []).lat.w = .cmd .rev8) ∧
    (turnOf .block (hosting [] [.block]) (hosting [] []) ∧ (hosting [] [.block]).phase = .idle) ∧
    (∀ p ∈ [[], [HostLine.rd .word 0]], turnOf .host (hosting p []) (hosting p []) ∧
      turnOf .host (hosting p [.host]) (hosting p [])) ∧
    (hosting [.rd .word 0] []).host.program[(hosting [.rd .word 0] []).host.pc]? = some (.rd .word 0) ∧
    (hosting [] []).host.program.length ≤ (hosting [] []).host.pc :=
  ⟨⟨(block_turns _ []).1, (block_turns _ _).2, rfl, by decide⟩, ⟨.inl ⟨[], rfl, rfl⟩, rfl⟩,
    fun p _ => host_turns p [], rfl, Nat.le_refl _⟩

theorem witness_PlacedWordRuns : Instr.l2frame.wellFormed = true := by decide

theorem witness_BusyBlockCompletes : (holding 0x13 []).phase = .busy ∧ turnOf .block (holding 0x13 []) (holding 0x13 []) ∧
    (holding 0x13 [.block]).phase = .busy ∧ turnOf .block (holding 0x13 [.block]) (holding 0x13 []) :=
  ⟨rfl, (block_turns _ []).1, rfl, (block_turns _ _).2⟩

theorem witness_StepKeepsCfgAndMarks : ∃ t, step (holding 0x0 []) = .next t := ⟨_, rfl⟩

/-! ### Registers and the host -/

theorem witness_CommandAcceptance : toy.phase = .idle ∧ (busy 0 0 0).phase = .busy := by decide

theorem witness_EventQueueRead : ({ toy with evq := [3, 5] } : State).evq = 3 :: [5] ∧ toy.evq = [] := by decide

/-- At the capacity and one below it. -/
theorem witness_EventEmission :
    (⟨[], none, false, 0, [1, 2, 3], false⟩ : FdsState).evq.length < Cfg.sample.evqDepth ∧
    Cfg.sample.evqDepth ≤ (⟨[], none, false, 0, [1, 2, 3, 4], false⟩ : FdsState).evq.length := by decide

theorem witness_CsrReadsAndWrites : (0x3C : Nat) ∈ [0x08, 0x0C, 0x20, 0x24, 0x28, 0x2C, 0x38, 0x3C] ∧
    (0x40 : Nat) ≤ 0x40 ∧ (0x3C : Nat) ≠ 0x38 ∧ (31 : Nat) < 32 ∧ (8 : Nat) ≤ 8 := by decide

/-- An aligned word access, a half-word one, and a poll of an offset that is no multiple of 4. -/
theorem witness_HostCsrAccess : (Width.word = .word ∧ (0x3C : BitVec 8).toNat % 4 = 0) ∧
    ((Width.half ≠ .word ∨ (0x04 : BitVec 8).toNat % 4 ≠ 0) ∧
      (HostLine.wr .half 0x04 7 = .rd .half 0x04 ∨ HostLine.wr .half 0x04 7 = .wr .half 0x04 7)) ∧
    (0x3E : BitVec 8).toNat % 4 ≠ 0 ∧ HostLine.loopUntil 0x3E 0 0 0 5 = .loopUntil 0x3E 0 0 0 5 := by decide

/-- A host at the line that reads the word at `a`, beside a block that is running REV8 of 8 cells from 0 to 0x10. -/
def reading (a : Nat) : State :=
  { busy 0 0x10 8 with
    lat := ⟨0x10, 0, 0x10, 8, 0⟩
    host := ⟨[.mr .word (toWord a)], 0, [], [.host]⟩ }

/-- The same after the host's turn was taken. -/
def readingNext (a : Nat) : State := { reading a with host := ⟨[.mr .word (toWord a)], 0, [], []⟩ }

theorem reading_turn (a : Nat) : turnOf .host (reading a) (readingNext a) := .inl ⟨[], rfl, rfl⟩

/-- Beyond BUFMEM by one byte, of a BUSY block and of an IDLE one with no order of turns; and touching the last byte of
the output. -/
theorem witness_HostHazard :
    (turnOf .host (reading 0xFFD) (readingNext 0xFFD) ∧
      (reading 0xFFD).host.program[(reading 0xFFD).host.pc]? = some (.mr .word 0xFFD) ∧
      (reading 0xFFD).cfg.bufBytes < (0xFFD : Word).toNat + Width.word.bytes) ∧
    (turnOf .host (hosting [.mw .word 0xFFD 1] []) (hosting [.mw .word 0xFFD 1] []) ∧
      (hosting [.mw .word 0xFFD 1] []).host.program[(hosting [.mw .word 0xFFD 1] []).host.pc]? =
        some (.mw .word 0xFFD 1) ∧
      (hosting [.mw .word 0xFFD 1] []).cfg.bufBytes < (0xFFD : Word).toNat + Width.word.bytes) ∧
    (turnOf .host (reading 0x17) (readingNext 0x17) ∧
      (reading 0x17).host.program[(reading 0x17).host.pc]? = some (.mr .word 0x17) ∧
      (0x17 : Word).toNat + Width.word.bytes ≤ (reading 0x17).cfg.bufBytes ∧ (reading 0x17).phase = .busy ∧
      ∃ i r x, decode (reading 0x17).lat.w = .cmd i ∧ r ∈ inUseRanges (reading 0x17) i ∧ (0x17 : Word).toNat ≤ x ∧
        x < (0x17 : Word).toNat + Width.word.bytes ∧ r.1 ≤ x ∧ x < r.1 + r.2) := by
  refine ⟨⟨reading_turn _, by decide, by decide⟩,
    ⟨(host_turns _ []).1, by decide, by decide⟩,
    reading_turn _, by decide, by decide, by decide, .rev8, (0x10, 8), 0x17, ?_⟩
  decide

/-- The last instance of type IV and the first that does not exist. -/
theorem witness_HostHazard_ranges : 0 < (reading 0).cfg.niv ∧ (reading 0).cfg.niv ≤ 1 ∧
    Instr.srst ∈ [Instr.nop, .srst] ∧ Instr.scr ∈ [Instr.rev8, .scr] := by decide

/-- The last word of BUFMEM while IDLE; and, while BUSY, the words just below and just above the output. -/
theorem witness_HostMemoryLittleEndian :
    (toy.phase = .idle ∧ legal toy.cfg (0xFFC : Word).toNat Width.word.bytes) ∧
    ∀ a ∈ [0xC#32, 0x18#32], (reading 0).phase = .busy ∧ legal (reading 0).cfg a.toNat Width.word.bytes ∧
      ∀ i, decode (reading 0).lat.w = .cmd i → ∀ r ∈ inUseRanges (reading 0) i, ∀ x,
        a.toNat ≤ x → x < a.toNat + Width.word.bytes → ¬(r.1 ≤ x ∧ x < r.1 + r.2) := by
  refine ⟨by decide, fun a ha => ⟨rfl, ?_, fun i hi r hr x h1 h2 => ?_⟩⟩
  · simp only [List.mem_cons, List.not_mem_nil, or_false] at ha
    rcases ha with rfl | rfl <;> decide
  · have hd : decode (reading 0).lat.w = .cmd .rev8 := by decide
    obtain rfl : i = .rev8 := Decoded.cmd.inj (hi.symm.trans hd)
    have hr : r ∈ [((0 : Nat), 8), (0x10, 8)] := hr
    have h2 : x < a.toNat + 4 := h2
    simp only [List.mem_cons, List.not_mem_nil, or_false] at ha hr
    rcases ha with rfl | rfl <;> rcases hr with rfl | rfl <;>
      simp only [BitVec.reduceToNat] at h1 h2 ⊢ <;> omega

/-! ### Rules over all commands -/

theorem witness_CommandFootprint : ∃ t, exec (.ilviv 0) (busy 0 0x10 4) = .next t := ⟨_, exec_run _ _⟩

theorem witness_OnlyListedCauses : (busy 0 0 12).csr.flags.err = false ∧
    exec .rev8 (busy 0 0 12) = .next (errorState (busy 0 0 12) .badLen 12) ∧ Instr.rev8 ≠ .srst := by
  refine ⟨rfl, ?_, by decide⟩
  rw [exec_eq]
  rfl

/-! ### Invariants -/

/-- A BUSY block whose queues, cursor, split and events all hold something. -/
def laden : State :=
  { busy 0 0x200 0 with
    lat := ⟨0x53, 0, 0x200, 0, 0⟩
    mem := ⟨.uniform 0, [(0x300, 1)]⟩
    evq := [7]
    csr := { Csr.reset with warnmask := 1 }
    l2 := ⟨[⟨1, some ⟨[1, 2, 3], 2, crcUpd Cfg.sample 0 [1, 2]⟩, [[4, 5], [6]], some [8, 9]⟩], 1,
      [(3, [2, 0x7e]), (5, [0x7e, 1, 0x7e])], some 3, true, 5, 0⟩ }

theorem laden_steps : ∃ t, step laden = .next t := ⟨_, rfl⟩

theorem witness_MemoryInvariant : laden.cfg.valid = true ∧ laden.memOk ∧ ∃ t, step laden = .next t :=
  ⟨Cfg.sample_valid, ⟨by decide, by decide⟩, laden_steps⟩

theorem laden_shapeOk : laden.shapeOk := by
  refine ⟨by decide, by decide, by decide, by decide, by decide, by decide, fun p hp => ?_⟩
  have hp : 1 ≤ p := hp
  show (1#32).getLsbD p = false
  rw [BitVec.getLsbD_one]
  simp; omega

theorem witness_ShapeInvariant : laden.cfg.valid = true ∧ laden.shapeOk ∧ ∃ t, step laden = .next t :=
  ⟨Cfg.sample_valid, laden_shapeOk, laden_steps⟩

theorem laden_budgetOk : laden.budgetOk := by
  intro p hp
  have hp : p < 1 := hp
  obtain rfl : p = 0 := by omega
  refine ⟨by unfold fitsAlone; decide, by decide, ?_⟩
  intro q hq
  obtain rfl : _ = q := Option.some.inj hq
  exact ⟨by decide, by unfold fitsAlone; decide, by decide, by decide⟩

theorem witness_BudgetInvariant : laden.shapeOk ∧ laden.budgetOk ∧ ∃ t, step laden = .next t :=
  ⟨laden_shapeOk, laden_budgetOk, laden_steps⟩

theorem witness_AasInvariant : laden.aasOk ∧ ∃ t, step laden = .next t := by
  refine ⟨⟨by decide, by decide, by decide, ?_, by decide⟩, laden_steps⟩
  intro q hq
  obtain rfl : _ = q := Option.some.inj hq
  decide

/-! ### Bit reversal, scrambler, encoder -/

/-- Disjoint ranges that touch, and one range over the other. -/
theorem witness_Rev8ReversesGroups :
    ((busy 0 8 8).lenN % 8 = 0 ∧ legal (busy 0 8 8).cfg (busy 0 8 8).srcA (busy 0 8 8).lenN ∧
      legal (busy 0 8 8).cfg (busy 0 8 8).dstA (busy 0 8 8).lenN ∧
      ¬overlap (busy 0 8 8).srcA (busy 0 8 8).lenN (busy 0 8 8).dstA (busy 0 8 8).lenN) ∧
    ((busy 0xFF8 0xFF8 8).lenN % 8 = 0 ∧
      legal (busy 0xFF8 0xFF8 8).cfg (busy 0xFF8 0xFF8 8).srcA (busy 0xFF8 0xFF8 8).lenN ∧
      legal (busy 0xFF8 0xFF8 8).cfg (busy 0xFF8 0xFF8 8).dstA (busy 0xFF8 0xFF8 8).lenN ∧
      (busy 0xFF8 0xFF8 8).lat.dst = (busy 0xFF8 0xFF8 8).lat.src) := by decide

theorem witness_ScrScrambles :
    legal (busy 0 7 7).cfg (busy 0 7 7).srcA (busy 0 7 7).lenN ∧
      legal (busy 0 7 7).cfg (busy 0 7 7).dstA (busy 0 7 7).lenN ∧
      ¬overlap (busy 0 7 7).srcA (busy 0 7 7).lenN (busy 0 7 7).dstA (busy 0 7 7).lenN := by decide

theorem witness_Conv25Encodes :
    6 ≤ (busy 0 6 6).lenN ∧ (busy 0 6 6).lenN % 2 = 0 ∧ legal (busy 0 6 6).cfg (busy 0 6 6).srcA (busy 0 6 6).lenN ∧
      legal (busy 0 6 6).cfg (busy 0 6 6).dstA (5 * (busy 0 6 6).lenN / 2) ∧
      ¬overlap (busy 0 6 6).srcA (busy 0 6 6).lenN (busy 0 6 6).dstA (5 * (busy 0 6 6).lenN / 2) ∧
      ∀ i, i < (busy 0 6 6).lenN → isBit ((busy 0 6 6).mem.read ((busy 0 6 6).srcA + i)) = true :=
  ⟨by decide, by decide, by decide, by decide, by decide, fun _ _ => busy_bits _ _ _ _⟩

theorem witness_Conv12Encodes :
    6 ≤ (busy 0 7 7).lenN ∧ legal (busy 0 7 7).cfg (busy 0 7 7).srcA (busy 0 7 7).lenN ∧
      legal (busy 0 7 7).cfg (busy 0 7 7).dstA (2 * (busy 0 7 7).lenN) ∧
      ¬overlap (busy 0 7 7).srcA (busy 0 7 7).lenN (busy 0 7 7).dstA (2 * (busy 0 7 7).lenN) ∧
      ∀ i, i < (busy 0 7 7).lenN → isBit ((busy 0 7 7).mem.read ((busy 0 7 7).srcA + i)) = true :=
  ⟨by decide, by decide, by decide, by decide, fun _ _ => busy_bits _ _ _ _⟩

/-- REV8 and SCR: each check failing with the ones before it passing. -/
theorem witness_BitBlockErrors_rev8_scr :
    (busy 0 0 12).lenN % 8 ≠ 0 ∧
    (∀ s, s = busy 0xFF9 0 8 → s.lenN % 8 = 0 ∧ ¬legal s.cfg s.srcA s.lenN) ∧
    (∀ s, s = busy 0 0xFF9 8 → s.lenN % 8 = 0 ∧ legal s.cfg s.srcA s.lenN ∧ ¬legal s.cfg s.dstA s.lenN) ∧
    (∀ s, s = busy 0 7 8 → s.lenN % 8 = 0 ∧ legal s.cfg s.srcA s.lenN ∧ legal s.cfg s.dstA s.lenN ∧
      s.lat.dst ≠ s.lat.src ∧ overlap s.srcA s.lenN s.dstA s.lenN) := by
  refine ⟨by decide, ?_, ?_, ?_⟩ <;> (rintro s rfl; decide)

/-- CONV25 and CONV12: too short, odd, out of range, overlapping, and a first bad cell at index 3. -/
theorem witness_BitBlockErrors_conv :
    (busy 0 0 5).lenN < 6 ∧ (busy 0 0 7).lenN % 2 ≠ 0 ∧
    (∀ s, s = busy 0xFFB 0 6 → s.lenN % 2 = 0 ∧ 6 ≤ s.lenN ∧ ¬legal s.cfg s.srcA s.lenN) ∧
    (∀ s, s = busy 0 0xFF2 6 → legal s.cfg s.srcA s.lenN ∧ ¬legal s.cfg s.dstA (5 * s.lenN / 2)) ∧
    (∀ s, s = busy 0 5 6 → legal s.cfg s.srcA s.lenN ∧ legal s.cfg s.dstA (5 * s.lenN / 2) ∧
      overlap s.srcA s.lenN s.dstA (5 * s.lenN / 2)) ∧
    (∀ s, s = busyAt 0 0x10 8 0 [1, 0, 1, 2, 0, 0, 5, 0] →
      legal s.cfg s.srcA s.lenN ∧ legal s.cfg s.dstA (2 * s.lenN) ∧
      ¬overlap s.srcA s.lenN s.dstA (2 * s.lenN) ∧ isBit (s.mem.read (s.srcA + 3)) = false ∧
      ∀ j, j < 3 → isBit (s.mem.read (s.srcA + j)) = true) := by
  refine ⟨by decide, by decide, ?_, ?_, ?_, ?_⟩ <;> (rintro s rfl; decide)

/-- A second SCR of the first one's output. -/
theorem witness_ScrTwiceRestores : ∃ s t u : State,
    legal s.cfg s.srcA s.lenN ∧ legal s.cfg s.dstA s.lenN ∧ ¬overlap s.srcA s.lenN s.dstA s.lenN ∧
    exec .scr s = .next t ∧ u.mem = t.mem ∧ u.cfg = t.cfg ∧ u.lat.src = s.lat.dst ∧ u.lat.len = s.lat.len ∧
    legal u.cfg u.dstA u.lenN ∧ u.lat.dst = u.lat.src :=
  ⟨busy 0 8 8, run .scr (busy 0 8 8), { busy 8 8 8 with mem := (run .scr (busy 0 8 8)).mem },
    by decide, by decide, by decide, exec_run _ _, rfl, rfl, by decide, by decide, by decide, by decide⟩

theorem witness_EncoderRegister : 6 ≤ [true, false, false, true, true, false].length ∧
    4 < [true, false, false, true, true, false].length ∧ 4 + 1 < [true, false, false, true, true, false].length := by
  decide

theorem witness_EncoderIsLinear : [true, false].length = [true, true].length := rfl

/-! ### Interleavers -/

theorem witness_Ilvp1Scatters :
    (bigBusy 0 365440 365440 0).cfg.valid = true ∧ 365440 ≤ (bigBusy 0 365440 365440 0).lenN ∧
      legal (bigBusy 0 365440 365440 0).cfg (bigBusy 0 365440 365440 0).srcA 365440 ∧
      legal (bigBusy 0 365440 365440 0).cfg (bigBusy 0 365440 365440 0).dstA 368640 ∧
      ¬overlap (bigBusy 0 365440 365440 0).srcA 365440 (bigBusy 0 365440 365440 0).dstA 368640 :=
  ⟨bigCfg_valid, by decide, by decide, by decide, by decide⟩

theorem witness_IlvpidsScatters :
    (bigBusy 0 3200 3200 0).cfg.valid = true ∧ 3200 ≤ (bigBusy 0 3200 3200 0).lenN ∧
      legal (bigBusy 0 3200 3200 0).cfg (bigBusy 0 3200 3200 0).srcA 3200 ∧
      legal (bigBusy 0 3200 3200 0).cfg (bigBusy 0 3200 3200 0).dstA 368640 ∧
      ¬overlap (bigBusy 0 3200 3200 0).srcA 3200 (bigBusy 0 3200 3200 0).dstA 368640 :=
  ⟨bigCfg_valid, by decide, by decide, by decide, by decide⟩

theorem witness_PassesFillMatrix : Cfg.sample.interleaverOk = true := Cfg.sample_interleaverOk

/-- The toy instance has the sizes CFG gives it. -/
theorem toy_shapeOk : toy.shapeOk := by
  refine ⟨by decide, by decide, by decide, by decide, by decide, by decide, fun p _ => ?_⟩
  exact BitVec.getLsbD_zero

theorem witness_IlvivDelays : (busy 0 4 4).cfg.valid = true ∧ (busy 0 4 4).shapeOk ∧ 0 < (busy 0 4 4).cfg.niv ∧
    ((busy 0 4 4).cfg.ivAt 0).half ≤ (busy 0 4 4).lenN ∧
    legal (busy 0 4 4).cfg (busy 0 4 4).srcA ((busy 0 4 4).cfg.ivAt 0).half ∧
    legal (busy 0 4 4).cfg (busy 0 4 4).dstA ((busy 0 4 4).cfg.ivAt 0).half ∧
    ¬overlap (busy 0 4 4).srcA ((busy 0 4 4).cfg.ivAt 0).half (busy 0 4 4).dstA ((busy 0 4 4).cfg.ivAt 0).half :=
  ⟨Cfg.sample_valid, toy_shapeOk, by decide, by decide, by decide, by decide, by decide⟩

/-- Two calls in turn. -/
theorem witness_IlvivLag : Cfg.sample.valid = true ∧ 0 < Cfg.sample.niv ∧ ∃ s t u v : State,
    s.cfg = Cfg.sample ∧ s.shapeOk ∧ (s.ivAt 0).half = false ∧
    (Cfg.sample.ivAt 0).half ≤ s.lenN ∧ legal Cfg.sample s.srcA (Cfg.sample.ivAt 0).half ∧
    legal Cfg.sample s.dstA (Cfg.sample.ivAt 0).half ∧
    ¬overlap s.srcA (Cfg.sample.ivAt 0).half s.dstA (Cfg.sample.ivAt 0).half ∧
    exec (.ilviv 0) s = .next t ∧ u.cfg = Cfg.sample ∧ u.ivAt 0 = t.ivAt 0 ∧
    (Cfg.sample.ivAt 0).half ≤ u.lenN ∧ legal Cfg.sample u.srcA (Cfg.sample.ivAt 0).half ∧
    legal Cfg.sample u.dstA (Cfg.sample.ivAt 0).half ∧
    ¬overlap u.srcA (Cfg.sample.ivAt 0).half u.dstA (Cfg.sample.ivAt 0).half ∧ exec (.ilviv 0) u = .next v :=
  ⟨Cfg.sample_valid, by decide, busy 0 4 4, run (.ilviv 0) (busy 0 4 4), run (.ilviv 0) (busy 0 4 4), _,
    rfl, toy_shapeOk, rfl, by decide, by decide, by decide, by decide, exec_run _ _, rfl, rfl,
    by decide, by decide, by decide, by decide, exec_run _ _⟩

/-- ILVIV without an instance, and the four checks of each command. -/
theorem witness_InterleaverStops :
    (busy 0 0 0).cfg.niv ≤ 1 ∧
    (∀ s, s = bigBusy 0 0 365439 0 → s.lenN < 365440) ∧
    (∀ s, s = bigBusy 0x1A6C81 0 365440 0 → 365440 ≤ s.lenN ∧ ¬legal s.cfg s.srcA 365440) ∧
    (∀ s, s = bigBusy 0 0x1A6001 365440 0 → legal s.cfg s.srcA 365440 ∧ ¬legal s.cfg s.dstA 368640) ∧
    (∀ s, s = bigBusy 0 365439 365440 0 → legal s.cfg s.srcA 365440 ∧ legal s.cfg s.dstA 368640 ∧
      overlap s.srcA 365440 s.dstA 368640) ∧
    (∀ s, s = bigBusy 0 3199 3200 0 → 3200 ≤ s.lenN ∧ legal s.cfg s.srcA 3200 ∧ legal s.cfg s.dstA 368640 ∧
      overlap s.srcA 3200 s.dstA 368640) ∧
    (∀ s, s = busy 0 0 3 → 0 < s.cfg.niv ∧ s.lenN < (s.cfg.ivAt 0).half) ∧
    (∀ s, s = busy 0xFFD 0 4 → 0 < s.cfg.niv ∧ (s.cfg.ivAt 0).half ≤ s.lenN ∧ ¬legal s.cfg s.srcA (s.cfg.ivAt 0).half) ∧
    (∀ s, s = busy 0 3 4 → 0 < s.cfg.niv ∧ legal s.cfg s.srcA (s.cfg.ivAt 0).half ∧
      legal s.cfg s.dstA (s.cfg.ivAt 0).half ∧
      overlap s.srcA (s.cfg.ivAt 0).half s.dstA (s.cfg.ivAt 0).half) := by
  refine ⟨by decide, ?_, ?_, ?_, ?_, ?_, ?_, ?_, ?_⟩ <;> (rintro s rfl; decide)

/-! ### L1 mapper -/

/-- The instance of 2 MiB with one secondary entry. -/
def secCfg : Cfg := { bigCfg with psm := .psm2, secBytes := 2, secMap := [⟨3, 362, 0⟩] }

theorem secCfg_valid : secCfg.valid = true := by
  show (bigCfg.platformOk && Cfg.sample.interleaverOk && secCfg.mapperOk && Cfg.sample.rsOk && bigCfg.l2Ok) = true
  rw [Cfg.sample_interleaverOk, Cfg.sample_rsOk]
  decide +kernel

/-- A frame that starts where the matrix ends, and a secondary region that ends at the top of BUFMEM. -/
theorem witness_L1mapAssemblesFrame : ∃ s : State, s.cfg.valid = true ∧ legal s.cfg s.srcA 368640 ∧
    legal s.cfg s.dstA (512 * s.cfg.fftSize) ∧ legal s.cfg s.auxA s.cfg.secBytes ∧
    ¬overlap s.dstA (512 * s.cfg.fftSize) s.srcA 368640 ∧
    ¬overlap s.dstA (512 * s.cfg.fftSize) s.auxA s.cfg.secBytes ∧
    (∀ i, i < 368640 → isBit (s.mem.read (s.srcA + i)) = true) ∧ s.cfg.secMap ≠ [] ∧
    (∀ e ∈ s.cfg.secMap, isBit (s.mem.read (s.auxA + e.off)) = true ∧
      isBit (s.mem.read (s.auxA + e.off + 1)) = true) :=
  ⟨{ bigBusy 0 368640 0 0x1FFFFE with cfg := secCfg }, secCfg_valid, by decide, by decide, by decide, by decide, by decide,
    fun _ _ => rfl, by decide, fun _ _ => ⟨rfl, rfl⟩⟩

/-- The range checks of L1MAP, each failing with the ones before it passing. -/
theorem witness_L1mapErrors_ranges :
    (∀ s, s = bigBusy 0x1A6001 0 0 0 → ¬legal s.cfg s.srcA 368640) ∧
    (∀ s, s = bigBusy 0 0x1D2801 0 0 → legal s.cfg s.srcA 368640 ∧ ¬legal s.cfg s.dstA (512 * s.cfg.fftSize)) ∧
    (∀ s, s = bigBusy 0 368640 0 0x200001 → legal s.cfg s.srcA 368640 ∧ legal s.cfg s.dstA (512 * s.cfg.fftSize) ∧
      ¬legal s.cfg s.auxA s.cfg.secBytes) ∧
    (∀ s, s = bigBusy 0 368639 0 0 → legal s.cfg s.srcA 368640 ∧ legal s.cfg s.dstA (512 * s.cfg.fftSize) ∧
      legal s.cfg s.auxA s.cfg.secBytes ∧ overlap s.dstA (512 * s.cfg.fftSize) s.srcA 368640) := by
  refine ⟨?_, ?_, ?_, ?_⟩ <;> (rintro s rfl; decide)

/-- V54: bad cells at offsets 7 and 100; the lower one is named. -/
theorem witness_L1mapErrors_badBit : ∃ (s : State) (a : Nat), legal s.cfg s.srcA 368640 ∧
    legal s.cfg s.dstA (512 * s.cfg.fftSize) ∧ legal s.cfg s.auxA s.cfg.secBytes ∧
    ¬overlap s.dstA (512 * s.cfg.fftSize) s.srcA 368640 ∧
    ¬overlap s.dstA (512 * s.cfg.fftSize) s.auxA s.cfg.secBytes ∧
    isBit (s.mem.read a) = false ∧ (∃ i, i < 368640 ∧ a = s.srcA + i) ∧
    (∀ i, i < 368640 → isBit (s.mem.read (s.srcA + i)) = false → a ≤ s.srcA + i) ∧
    (∀ e ∈ s.cfg.secMap, (isBit (s.mem.read (s.auxA + e.off)) = false → a ≤ s.auxA + e.off) ∧
      (isBit (s.mem.read (s.auxA + e.off + 1)) = false → a ≤ s.auxA + e.off + 1)) := by
  refine ⟨{ bigBusy 0 368640 0 0 with mem := (toy.mem.write 100 2).write 7 9 }, 7, by decide, by decide, by decide,
    by decide, by decide, by decide, ⟨7, by decide, by decide⟩, fun i _ h => ?_, fun e he => by cases he⟩
  by_contra hlt
  have hi : i < 7 := by
    have h0 : (0 : Nat) + i = i := Nat.zero_add i
    have : ¬ 7 ≤ 0 + i := hlt
    omega
  have hr : ((toy.mem.write 100 2).write 7 9).read (0 + i) = 0 := by
    rw [Memory.read_write_ne _ _ (by omega), Memory.read_write_ne _ _ (by omega)]
    rfl
  have h' : isBit (((toy.mem.write 100 2).write 7 9).read (0 + i)) = false := h
  rw [hr] at h'
  exact absurd h' (by decide)

/-! ### Reed-Solomon -/

theorem witness_RsencWritesParity :
    (busy 0 0 7).lenN < 8 ∧
    (8 ≤ (busy 0xFF9 0 8).lenN ∧ ¬legal (busy 0xFF9 0 8).cfg (busy 0xFF9 0 8).srcA (busy 0xFF9 0 8).lenN) ∧
    (8 ≤ (busy 0xFF8 0 8).lenN ∧ legal (busy 0xFF8 0 8).cfg (busy 0xFF8 0 8).srcA (busy 0xFF8 0 8).lenN) := by
  decide

theorem witness_RsencMakesCodeword : 8 ≤ (busy 0 0 300).lenN ∧
    legal (busy 0 0 300).cfg (busy 0 0 300).srcA (busy 0 0 300).lenN ∧ ∃ t, exec .rsenc (busy 0 0 300) = .next t :=
  ⟨by decide, by decide, _, exec_run _ _⟩

/-! ### L2 input commands -/

/-- The longest payload that fits the toy region: 18 bytes. -/
theorem witness_AudqQueuesPayload : ∃ s : State, s.shapeOk ∧ 0 < s.cfg.nprog ∧ 7 ≤ s.lenN ∧
    s.lenN - 7 + 1 + s.cfg.locBytes 1 ≤ s.cfg.area 0 ∧ legal s.cfg s.srcA s.lenN ∧
    (s.mem.read (s.srcA + 3)).toNat % 4 * 2048 + (s.mem.read (s.srcA + 4)).toNat * 8 +
      (s.mem.read (s.srcA + 5)).toNat / 32 = s.lenN ∧
    (s.progAt 0).audq.length < s.cfg.audqDepth :=
  ⟨busyAt 0 0 25 0 [0xff, 0xf1, 0x50, 0x00, 0x03, 0x20, 0xfc], toy_shapeOk, by decide, by decide, by decide, by decide,
    by decide, by decide⟩

theorem witness_PsdsetFillsSlot : ∃ s : State, s.shapeOk ∧ 0 < s.cfg.nprog ∧ s.lenN = s.cfg.psdBytes ∧
    legal s.cfg s.srcA s.cfg.psdBytes ∧ (s.progAt 0).psd = none :=
  ⟨busy 0xFFE 0 2, toy_shapeOk, by decide, by decide, by decide, by decide⟩

theorem witness_AasqQueuesFrame : ∃ s : State, 2 ≤ s.lenN ∧ legal s.cfg s.srcA s.lenN ∧ s.mem.read s.srcA = 0x7e ∧
    s.mem.read (s.srcA + (s.lenN - 1)) = 0x7e ∧
    (∀ i, 0 < i → i < s.lenN - 1 → s.mem.read (s.srcA + i) ≠ 0x7e) ∧
    (queueOf s.l2.aasq 3).length + s.lenN ≤ s.cfg.aasQbytes := by
  refine ⟨busyAt 0 0 3 0 [0x7e, 1, 0x7e], by decide, by decide, by decide, by decide, ?_, by decide⟩
  intro i h0 h1
  have h1 : i < 2 := h1
  obtain rfl : i = 1 := by omega
  decide

/-- AUDQ: no such program, too short, too long, out of range, a wrong length field, and a full queue. -/
theorem witness_L2InputErrors_audq :
    (busy 0 0 0).cfg.nprog ≤ 1 ∧ 0 < (busy 0 0 6).cfg.nprog ∧ (busy 0 0 6).lenN < 7 ∧
    (∀ s, s = busy 0 0 26 → s.cfg.area 0 < s.lenN - 7 + 1 + s.cfg.locBytes 1) ∧
    (∀ s, s = busy 0xFFA 0 7 → 7 ≤ s.lenN ∧ s.lenN - 7 + 1 + s.cfg.locBytes 1 ≤ s.cfg.area 0 ∧
      ¬legal s.cfg s.srcA s.lenN) ∧
    (∀ s, s = busy 0 0 7 → legal s.cfg s.srcA s.lenN ∧
      (s.mem.read (s.srcA + 3)).toNat % 4 * 2048 + (s.mem.read (s.srcA + 4)).toNat * 8 +
        (s.mem.read (s.srcA + 5)).toNat / 32 ≠ s.lenN) ∧
    (∀ s, s = withProg (busyAt 0 0 7 5 [0xE0]) ⟨0, none, [[], [], [], []], none⟩ →
      legal s.cfg s.srcA s.lenN ∧
      (s.mem.read (s.srcA + 3)).toNat % 4 * 2048 + (s.mem.read (s.srcA + 4)).toNat * 8 +
        (s.mem.read (s.srcA + 5)).toNat / 32 = s.lenN ∧
      (s.progAt 0).audq.length = s.cfg.audqDepth) := by
  refine ⟨by decide, by decide, by decide, ?_, ?_, ?_, ?_⟩ <;> (rintro s rfl; decide)

/-- PSDSET: a wrong length, out of range, and a full slot. -/
theorem witness_L2InputErrors_psdset :
    (busy 0 0 3).lenN ≠ (busy 0 0 3).cfg.psdBytes ∧
    (∀ s, s = busy 0xFFF 0 2 → s.lenN = s.cfg.psdBytes ∧ ¬legal s.cfg s.srcA s.cfg.psdBytes) ∧
    (∀ s, s = withProg (busy 0 0 2) ⟨0, none, [], some [1, 2]⟩ →
      s.lenN = s.cfg.psdBytes ∧ legal s.cfg s.srcA s.cfg.psdBytes ∧ (s.progAt 0).psd ≠ none) := by
  refine ⟨by decide, ?_, ?_⟩ <;> (rintro s rfl; decide)

/-- AASQ: too short, out of range, a flag inside, no flag at the end, and no room by one byte. -/
theorem witness_L2InputErrors_aasq :
    (busy 0 0 1).lenN < 2 ∧
    (∀ s, s = busy 0xFFF 0 2 → 2 ≤ s.lenN ∧ ¬legal s.cfg s.srcA s.lenN) ∧
    (∀ s, s = busyAt 0 0 3 0 [0x7e, 0x7e, 0x7e] → legal s.cfg s.srcA s.lenN ∧ 1 < s.lenN - 1 ∧
      s.mem.read (s.srcA + 1) = 0x7e ∧ s.mem.read (s.srcA + 0) = 0x7e) ∧
    (∀ s, s = busyAt 0 0 2 0 [0x7e, 1] → s.mem.read (s.srcA + (s.lenN - 1)) ≠ 0x7e ∧
      s.mem.read (s.srcA + 0) = 0x7e) ∧
    (∀ s, s = { busyAt 0 0 2 0 [0x7e, 0x7e] with
        l2 := { (L2State.reset Cfg.sample) with aasq := [(3, List.replicate 63 0x7e)] } } →
      s.mem.read s.srcA = 0x7e ∧ s.mem.read (s.srcA + (s.lenN - 1)) = 0x7e ∧
      s.cfg.aasQbytes < (queueOf s.l2.aasq 3).length + s.lenN) := by
  refine ⟨by decide, ?_, ?_, ?_, ?_⟩ <;> (rintro s rfl; decide)

/-! ### L2 frame -/

/-- A program that packs its target of two sub-frames. -/
def ready : ProgState := ⟨0, none, [[1, 2, 3, 4, 5], [6]], some [0xaa, 0xbb]⟩

theorem ready_packs : packAudio Cfg.sample 0 0 ready =
    some ⟨[1, 2, 3, 4, 5, 0x2a, 6] ++ [crcOf Cfg.sample [6]], [5, 7], 2, none, []⟩ := by decide

/-- A frame at the top of BUFMEM. -/
def framing (dst : Nat) (v : ProgState) : State := withProg (busy 0 dst 0) v

theorem framing_shapeOk (dst : Nat) (v : ProgState) (h1 : v.audq.length ≤ 4) (h2 : ∀ b ∈ v.psd, b.length = 2) :
    (framing dst v).shapeOk := by
  refine ⟨rfl, toy_shapeOk.2.1, rfl, fun w hw => ?_, Nat.zero_le _, Nat.one_pos, fun p _ => BitVec.getLsbD_zero⟩
  obtain rfl : w = v := List.mem_singleton.1 hw
  exact ⟨h1, h2⟩

theorem witness_L2frameBuildsFrame : ∃ s : State, s.shapeOk ∧ legal s.cfg s.dstA s.cfg.frameBits ∧
    ∃ (psd : Nat → List Byte) (a : Nat → PackState), ∀ p, p < s.cfg.nprog → (s.progAt p).psd = some (psd p) ∧
      packAudio s.cfg s.l2.frameCnt p (s.progAt p) = some (a p) := by
  refine ⟨framing 0xEA8 ready, framing_shapeOk _ _ (by decide) (by simp [ready]), by decide,
    fun _ => [0xaa, 0xbb], fun _ => ⟨[1, 2, 3, 4, 5, 0x2a, 6] ++ [crcOf Cfg.sample [6]], [5, 7], 2, none, []⟩,
    fun p hp => ?_⟩
  have hp : p < 1 := hp
  obtain rfl : p = 0 := by omega
  exact ⟨rfl, ready_packs⟩

/-- No PSD block; too few sub-frames; and an output one byte too high. -/
theorem witness_L2frameStops :
    ((framing 0 ⟨0, none, [], none⟩).shapeOk ∧ 0 < Cfg.sample.nprog ∧
      ((framing 0 ⟨0, none, [], none⟩).progAt 0).psd = none) ∧
    ((framing 0 ⟨0, none, [[1]], some [1, 2]⟩).shapeOk ∧
      packAudio Cfg.sample 0 0 ⟨0, none, [[1]], some [1, 2]⟩ = none) ∧
    ((framing 0xEA9 ready).shapeOk ∧ (∀ p, p < (framing 0xEA9 ready).cfg.nprog →
        ((framing 0xEA9 ready).progAt p).psd ≠ none ∧
        packAudio (framing 0xEA9 ready).cfg (framing 0xEA9 ready).l2.frameCnt p ((framing 0xEA9 ready).progAt p) ≠ none) ∧
      ¬legal (framing 0xEA9 ready).cfg (framing 0xEA9 ready).dstA (framing 0xEA9 ready).cfg.frameBits) := by
  refine ⟨⟨framing_shapeOk _ _ (by decide) (by simp), by decide, rfl⟩,
    ⟨framing_shapeOk _ _ (by decide) (by simp), by decide⟩,
    framing_shapeOk _ _ (by decide) (by simp [ready]), fun p hp => ?_, by decide⟩
  have hp : p < 1 := hp
  obtain rfl : p = 0 := by omega
  have : packAudio Cfg.sample 0 0 ready ≠ none := by rw [ready_packs]; simp
  exact ⟨by decide, this⟩

theorem ready_budgetOk : ready.budgetOk Cfg.sample 0 0 :=
  ⟨by unfold fitsAlone; decide, by decide, fun q hq => by cases hq⟩

theorem witness_RegionLayout : Cfg.sample.valid = true ∧ 0 < Cfg.sample.nprog ∧ ready.budgetOk Cfg.sample 0 0 ∧
    [0xaa#8, 0xbb#8].length = Cfg.sample.psdBytes ∧ ∃ a, packAudio Cfg.sample 0 0 ready = some a :=
  ⟨Cfg.sample_valid, by decide, ready_budgetOk, rfl, _, ready_packs⟩

/-- A program that carries a split sub-frame over. -/
def split : ProgState := ⟨1, some ⟨[1, 2, 3], 2, crcUpd Cfg.sample 0 [1, 2]⟩, [[4, 5], [6]], some [8, 9]⟩

/-- Both starts; the queue empty below the target, and the target reached; in an area of 21 bytes, a head of 18 that fits
to the byte, one of 19 that is split, and no byte left; and a program within its budget that packs. -/
theorem witness_PackingFinishesCarryover :
    (ready.part = none ∧ ∃ q, split.part = some q) ∧
    (∀ a : PackState, a = ⟨[], [], 0, none, []⟩ → a.seq < 2 ∧
      (∀ sf, sf = span 0 18 → a.aud.length + sf.length + 1 + Cfg.sample.locBytes (a.ends.length + 1) = 21) ∧
      (∀ sf, sf = span 0 19 → 21 < a.aud.length + sf.length + 1 + Cfg.sample.locBytes (a.ends.length + 1)) ∧
      0 < 21 - a.aud.length - Cfg.sample.locBytes a.ends.length) ∧
    (∀ a : PackState, a = ⟨span 0 19, [18], 1, none, []⟩ → a.seq < 2 ∧
      21 < a.aud.length + [(7 : Byte)].length + 1 + Cfg.sample.locBytes (a.ends.length + 1) ∧
      21 - a.aud.length - Cfg.sample.locBytes a.ends.length = 0) ∧
    2 ≤ (⟨[], [], 2, none, []⟩ : PackState).seq ∧
    split.budgetOk Cfg.sample 1 0 ∧ ∃ a, packAudio Cfg.sample 1 0 split = some a := by
  refine ⟨⟨rfl, _, rfl⟩, ?_, ?_, by decide, laden_budgetOk 0 (by decide), _, rfl⟩
  · rintro a rfl
    refine ⟨by decide, ?_, ?_, by decide⟩ <;> (rintro sf rfl; decide)
  · rintro a rfl; decide

/-- A data region of 12 bytes with a CCC slice of 2. -/
def dataCfg : Cfg := { Cfg.sample with dataBytes := 12, cccWidth := 2, cccMsg := [1, 2, 3] }

/-- Without a data region; and with one, at stream positions with and without a marker. -/
theorem witness_DataRegionLayout : (Cfg.sample.l2Ok = true ∧ Cfg.sample.dataBytes = 0) ∧
    (dataCfg.l2Ok = true ∧ 0 < dataCfg.dataBytes ∧ 1 < dataCfg.cccWidth ∧
      8 < dataCfg.dataBytes - 1 - dataCfg.cccWidth ∧ (0 + 3) % dataCfg.bbmPeriod < 4 ∧
      4 ≤ (0 + 5) % dataCfg.bbmPeriod ∧ ∀ e ∈ [((3 : Port), ([] : List Byte))], e.2 = []) :=
  ⟨⟨Cfg.sample_l2Ok, rfl⟩, by decide⟩

/-- The queues of V64, and each case of the drain: inside a PDU; outside one with the current queue not empty,
empty, and with no cursor; and nothing to send. -/
theorem witness_FdsDrain :
    [((3 : Port), [0x7e#8, 2, 0x7e]), (5, [0x7e, 1, 0x7e])].Pairwise (fun a b => a.1 < b.1) ∧
    nextPort [(3, [0x7e#8]), (5, [0x7e])] (some 3) = some 5 ∧ nextPort [(3, [0x7e#8]), (5, [0x7e])] (some 5) = some 3 ∧
    (∀ z : FdsState, z = ⟨[(3, [0x7e])], some 3, true, 0, [], false⟩ →
      z.inPdu = true ∧ z.curPort = some 3 ∧ queueOf z.aasq 3 = 0x7e :: []) ∧
    (∀ z : FdsState, z = ⟨[(3, [0x7e, 0x7e])], some 3, false, 0, [], false⟩ →
      z.inPdu = false ∧ z.curPort = some 3 ∧ queueOf z.aasq 3 = 0x7e :: [0x7e]) ∧
    (∀ z : FdsState, z = ⟨[(3, []), (5, [0x7e])], some 3, false, 0, [], false⟩ →
      z.inPdu = false ∧ queueOf z.aasq 3 = [] ∧ nextPort z.aasq z.curPort = some 5 ∧ queueOf z.aasq 5 = 0x7e :: []) ∧
    (∀ z : FdsState, z = ⟨[(5, [0x7e])], none, false, 0, [], false⟩ →
      z.inPdu = false ∧ z.curPort = none ∧ nextPort z.aasq z.curPort = some 5 ∧ queueOf z.aasq 5 = 0x7e :: []) ∧
    (∀ z : FdsState, z = ⟨[(3, [])], some 3, false, 0, [], false⟩ →
      z.inPdu = false ∧ nextPort z.aasq z.curPort = none) := by
  refine ⟨by decide, by decide, by decide, ?_, ?_, ?_, ?_, ?_⟩ <;> (rintro z rfl; decide)

theorem witness_HeaderSpreading : Cfg.sample.l2Ok = true ∧
    (List.replicate 40 (0 : Byte)).length = Cfg.sample.payloadBytes ∧ 23 < Cfg.sample.hsLen :=
  ⟨Cfg.sample_l2Ok, by decide, by decide⟩

end Sys2Proof.Tests
end

section
/-! PROOFS of the scope family (00_scope.md): the frame of every step, the convolutional encoder, and the state after
reset. -/

namespace Sys2Proof.Machine

/-! ## CFG and FAULTS along a step (R7, R41) -/

/-- CFG is the same in `t`, and the marks of `s` still stand in it. -/
def State.KeepsCfgAndMarks (s t : State) : Prop :=
  t.cfg = s.cfg ∧
  (s.faults.hostHazard = true → t.faults.hostHazard = true) ∧
  (s.faults.csrAccess = true → t.faults.csrAccess = true)

theorem State.keepsCfgAndMarks_of_eq {s t : State} (hc : t.cfg = s.cfg) (hf : t.faults = s.faults) :
    s.KeepsCfgAndMarks t :=
  ⟨hc, fun h => by rw [hf, h], fun h => by rw [hf, h]⟩

theorem State.markHazard_keepsCfgAndMarks (s : State) : s.KeepsCfgAndMarks s.markHazard :=
  ⟨rfl, fun _ => rfl, id⟩

theorem State.markCsrAccess_keepsCfgAndMarks (s : State) : s.KeepsCfgAndMarks s.markCsrAccess :=
  ⟨rfl, id, fun _ => rfl⟩

@[simp] theorem State.afterCsrRead_cfg (s : State) (off : Nat) : (s.afterCsrRead off).cfg = s.cfg := by
  unfold State.afterCsrRead; split <;> rfl

@[simp] theorem State.afterCsrRead_faults (s : State) (off : Nat) : (s.afterCsrRead off).faults = s.faults := by
  unfold State.afterCsrRead; split <;> rfl

/-- Completing a command changes neither CFG nor FAULTS. -/
theorem finish_completionOf_cfg_faults (i : Instr) (s : State) :
    (s.finish (completionOf i s)).cfg = s.cfg ∧ (s.finish (completionOf i s)).faults = s.faults := by
  cases h : completionOf i s with
  | error c info => exact ⟨rfl, rfl⟩
  | stall => exact ⟨rfl, rfl⟩
  | ok n m t =>
    obtain ⟨hcfg, -, hfaults, -⟩ := completionOf_ok_frame h
    exact ⟨hcfg, hfaults⟩

/-- A host access may add a mark, and never removes one. -/
theorem hostLine_keepsCfgAndMarks {s t : State} {line : HostLine} (h : hostLine s line = .next t) :
    s.KeepsCfgAndMarks t := by
  rcases hostLine_cases h with rfl | rfl | ⟨off, n, rfl⟩ | ⟨off, v, rfl⟩ | ⟨v, rfl⟩ | ⟨a, v, wd, -, rfl⟩
  · exact s.markCsrAccess_keepsCfgAndMarks
  · exact s.markHazard_keepsCfgAndMarks
  · exact State.keepsCfgAndMarks_of_eq (by simp) (by simp)
  · obtain ⟨hcfg, -, -, -, -, hfaults, -⟩ := s.csrWrite_frame off v
    exact State.keepsCfgAndMarks_of_eq hcfg hfaults
  · exact State.keepsCfgAndMarks_of_eq rfl rfl
  · exact State.keepsCfgAndMarks_of_eq rfl rfl

/-- Settles O10: only a host access touches FAULTS, by adding a mark, and nothing touches CFG. -/
theorem stepKeepsCfgAndMarks : Obligations.StepKeepsCfgAndMarks := by
  intro s t h
  change s.taken.KeepsCfgAndMarks t
  rcases step_cases h with rfl | ⟨-, i, -, rfl⟩ | ⟨-, c, rfl⟩ | ⟨line, hl⟩
  · exact State.keepsCfgAndMarks_of_eq rfl rfl
  · obtain ⟨hcfg, hfaults⟩ := finish_completionOf_cfg_faults i s.taken
    exact State.keepsCfgAndMarks_of_eq hcfg hfaults
  · exact State.keepsCfgAndMarks_of_eq rfl rfl
  · exact hostLine_keepsCfgAndMarks hl

/-! ## The convolutional encoder (R107, R108, R111, R112) -/

/-- A running exclusive or is the parity of the number of true terms. -/
theorem foldl_xor_eq_countP (f : Nat → Bool) (l : List Nat) (b : Bool) :
    l.foldl (fun p j => p ^^ f j) b = (b ^^ decide (l.countP f % 2 = 1)) := by
  induction l generalizing b with
  | nil => simp
  | cons x l ih =>
    rw [List.foldl_cons, ih, List.countP_cons]
    cases f x with
    | false => simp
    | true =>
      have hflip : decide ((l.countP f + 1) % 2 = 1) = !decide (l.countP f % 2 = 1) := by
        rw [← decide_not, decide_eq_decide]; omega
      simp [hflip]

/-- The parity the encoder computes is the parity of R13, counted. -/
theorem parity7_eq_oddOnes (v : BitVec 7) : parity7 v = oddOnes v := by
  rw [parity7, foldl_xor_eq_countP, Bool.false_xor, oddOnes]

@[simp] theorem length_inputBits (s : State) : (inputBits s).length = s.lenN := by simp [inputBits]

/-- A block of bit cells passes the search for a byte that is none. -/
theorem firstNonBit_readBlock_eq_none {m : Memory} {a n : Nat} (h : ∀ i, i < n → isBit (m.read (a + i)) = true) :
    firstNonBit (m.readBlock a n) = none := by
  rw [firstNonBit_eq_none]
  intro i hi
  rw [Memory.length_readBlock] at hi
  rw [Memory.getD_readBlock _ _ _ _ _ hi, h i hi]

/-- An encoder on legal disjoint ranges and bit cells completes with the encoded block written (R110). -/
theorem convolve_eq_ok {s : State} {outLen : Nat} (taps : Nat → List (BitVec 7)) (hsrc : legal s.cfg s.srcA s.lenN)
    (hdst : legal s.cfg s.dstA outLen) (hdisj : ¬overlap s.srcA s.lenN s.dstA outLen)
    (hbits : ∀ i, i < s.lenN → isBit (s.mem.read (s.srcA + i)) = true) :
    convolve s outLen taps = .ok s.lenN outLen { s with
      mem := s.mem.writeBlock s.dstA ((encode7 s.cfg.convRegOrder taps (inputBits s)).map bitCell) } := by
  simp only [convolve, hsrc, hdst, hdisj, firstNonBit_readBlock_eq_none hbits, not_true, if_false]
  rfl

/-- Bit `k` of a block of cells stands at its place, and a byte outside the block is as before. -/
theorem read_writeBlock_bitCells (m : Memory) (a n : Nat) (l : List Bool) (hl : l.length = n) :
    (∀ k, k < n → (m.writeBlock a (l.map bitCell)).read (a + k) = bitCell (l.getD k false)) ∧
    (∀ b, b < a ∨ a + n ≤ b → (m.writeBlock a (l.map bitCell)).read b = m.read b) := by
  subst hl
  constructor
  · intro k hk
    rw [Memory.read_writeBlock_inside _ _ _ _ (bitCell false) (by simpa using hk), List.getD_map]
  · intro b hb
    exact Memory.read_writeBlock_outside _ _ _ _ (by simpa using hb)

/-- What an encoder command does on legal disjoint ranges and bit cells: it writes the encoded block, cell by cell, and
changes nothing else but the completion. -/
theorem exec_encoder {i : Instr} {s : State} {n : Nat} {taps : Nat → List (BitVec 7)}
    (hi : completionOf i s = convolve s n taps)
    (hn : (encode7 s.cfg.convRegOrder taps (inputBits s)).length = n) (hsrc : legal s.cfg s.srcA s.lenN)
    (hdst : legal s.cfg s.dstA n) (hdisj : ¬overlap s.srcA s.lenN s.dstA n)
    (hbits : ∀ i, i < s.lenN → isBit (s.mem.read (s.srcA + i)) = true) :
    ∃ t, exec i s = .next t ∧
      t = { s with phase := .idle, csr := doneCsr s.csr s.lenN n, mem := t.mem } ∧
      (∀ k, k < n → t.mem.read (s.dstA + k) =
        bitCell ((encode7 s.cfg.convRegOrder taps (inputBits s)).getD k false)) ∧
      (∀ a, a < s.dstA ∨ s.dstA + n ≤ a → t.mem.read a = s.mem.read a) := by
  have hexec := exec_eq i s
  rw [hi, convolve_eq_ok taps hsrc hdst hdisj hbits] at hexec
  exact ⟨_, hexec, rfl, read_writeBlock_bitCells s.mem s.dstA n _ hn⟩

/-- Settles O33: the cells of the encoded block, position by position, from `getD_encode25`. -/
theorem conv25Encodes : Obligations.Conv25Encodes := by
  intro s hlen heven hsrc hdst hdisj hbits
  have hcompl : completionOf .conv25 s = convolve s (5 * s.lenN / 2) taps25 := if_neg (by omega)
  have hout : (encode7 s.cfg.convRegOrder taps25 (inputBits s)).length = 5 * s.lenN / 2 := by
    rw [length_encode25 _ _ (by simpa using heven), length_inputBits]
  obtain ⟨t, hexec, ht, hin, hframe⟩ := exec_encoder hcompl hout hsrc hdst hdisj hbits
  refine ⟨t, hexec, ht, fun i j hi hj => ?_, fun a ha => hframe a (by omega)⟩
  have hplace : 5 * (i / 2) + 3 * (i % 2) + j < 5 * s.lenN / 2 := by split_ifs at hj <;> omega
  rw [hin _ hplace, getD_encode25 _ _ _ _ (by simpa using hi) hj, parity7_eq_oddOnes]
  rfl

/-- Settles O34: the cells of the encoded block, position by position, from `getD_encode12`. -/
theorem conv12Encodes : Obligations.Conv12Encodes := by
  intro s hlen hsrc hdst hdisj hbits
  have hcompl : completionOf .conv12 s = convolve s (2 * s.lenN) taps12 := if_neg (by omega)
  have hout : (encode7 s.cfg.convRegOrder taps12 (inputBits s)).length = 2 * s.lenN := by
    rw [length_encode12, length_inputBits]
  obtain ⟨t, hexec, ht, hin, hframe⟩ := exec_encoder hcompl hout hsrc hdst hdisj hbits
  refine ⟨t, hexec, ht, fun i j hi hj => ?_, hframe⟩
  rw [hin _ (by omega), getD_encode12 _ _ _ _ (by simpa using hi) hj, parity7_eq_oddOnes]
  rfl

/-! ## The state after reset (R43, R300, R310), for any CFG -/

theorem resetWith_memOk (c : Cfg) : (State.resetWith c).memOk := ⟨rfl, rfl⟩

/-- After reset every program holds what R39 gives it. -/
theorem mem_progs_reset {c : Cfg} {v : ProgState} (h : v ∈ (L2State.reset c).progs) : v = ProgState.reset :=
  List.eq_of_mem_replicate h

/-- The tables have their sizes after reset; CCCPOS = 0 is a position because a valid CCC message is not empty. -/
theorem resetWith_shapeOk {c : Cfg} (hc : c.valid = true) : (State.resetWith c).shapeOk := by
  obtain ⟨hlen, hbuf⟩ := ivReset_facts c 0
  have hl2 : c.l2Ok = true := (Bool.and_eq_true_iff.1 hc).2
  obtain ⟨-, -, -, -, hccc, -⟩ := Cfg.l2_facts hl2
  refine ⟨hlen, fun k hk => (hbuf k hk).1, List.length_replicate, fun v hv => ?_, Nat.zero_le _,
    List.length_pos_iff.2 hccc, fun p _ => BitVec.getLsbD_zero⟩
  rw [mem_progs_reset hv]
  exact ⟨Nat.zero_le _, fun b hb => by cases hb⟩

/-- A program that holds nothing is within its budget after any number of frames. -/
theorem ProgState.reset_budgetOk (c : Cfg) (frameCnt p : Nat) : ProgState.reset.budgetOk c frameCnt p :=
  ⟨fun sf hsf => (by cases hsf), Nat.zero_le _, fun q hq => (by cases hq)⟩

theorem resetWith_budgetOk (c : Cfg) : (State.resetWith c).budgetOk := by
  intro p _
  have hp : (State.resetWith c).progAt p = ProgState.reset := reset_progAt c p
  rw [hp]
  exact ProgState.reset_budgetOk _ _ _

/-- After reset there is no AAS port and no cursor. -/
theorem resetWith_aasOk (c : Cfg) : (State.resetWith c).aasOk :=
  ⟨.nil, fun e he => (by cases he), fun e he => (by cases he), fun q hq => (by cases hq), fun h => (by cases h)⟩

theorem half_of_mem_ivReset {c : Cfg} {d : Nat} {v : IvState} (h : v ∈ ivReset c d) : v.half = false := by
  obtain ⟨k, -, rfl⟩ := List.mem_map.1 h
  rfl

/-- After reset every STATUS bit reads 0: no flag, no event, no interrupt (R24, R301). -/
theorem resetWith_status (c : Cfg) : (State.resetWith c).status = 0 := by
  change (BitVec.ofBoolListLE (List.replicate 9 false)).setWidth 32 = 0
  decide

theorem resetWith_cleanEntry (c : Cfg) : (State.resetWith c).cleanEntry := by
  refine ⟨rfl, rfl, resetWith_status c, rfl, fun v hv => ?_, fun e he => (by cases he), rfl, rfl, rfl,
    fun v hv => half_of_mem_ivReset hv⟩
  rw [mem_progs_reset hv]
  exact ⟨rfl, rfl, rfl, rfl⟩

/-- Settles O27: `Config.cfg` is valid, and reset with a valid one meets each invariant. -/
theorem resetMeetsInvariants : Obligations.ResetMeetsInvariants :=
  ⟨Config.cfg_valid, resetWith_memOk _, resetWith_shapeOk Config.cfg_valid, resetWith_budgetOk _, resetWith_aasOk _,
    resetWith_cleanEntry _⟩

end Sys2Proof.Machine
end

section
/-! PROOFS of the state family (10_state.md): what every step keeps of the tables, the programs and the AAS queues,
what every command may change, and the registers. -/

namespace Sys2Proof.Machine

/-! ## What a step can do to the tables, the queues and the masks -/

/-- The step from `s` to `t` leaves CFG, the type IV instances and the L2 state, and adds no event and no WARNMASK bit. -/
structure State.Quiet (s t : State) : Prop where
  cfg : t.cfg = s.cfg
  iv : t.iv = s.iv
  l2 : t.l2 = s.l2
  evq : t.evq.length ≤ s.evq.length
  warnmask : ∀ p, s.csr.warnmask.getLsbD p = false → t.csr.warnmask.getLsbD p = false

/-- A state that differs in none of these at all. -/
theorem State.Quiet.of_eq {s t : State} (hcfg : t.cfg = s.cfg) (hiv : t.iv = s.iv) (hl2 : t.l2 = s.l2)
    (hevq : t.evq = s.evq) (hmask : t.csr.warnmask = s.csr.warnmask) : s.Quiet t :=
  ⟨hcfg, hiv, hl2, by rw [hevq], fun p hp => by rw [hmask, hp]⟩

theorem State.afterCsrRead_quiet (s : State) (off : Nat) : s.Quiet (s.afterCsrRead off) := by
  unfold State.afterCsrRead
  split
  · exact ⟨rfl, rfl, rfl, by simp, fun _ => id⟩
  · exact .of_eq rfl rfl rfl rfl rfl

theorem State.csrWrite_quiet (s : State) (off : Nat) (v : Word) : s.Quiet (s.csrWrite off v) := by
  obtain ⟨hcfg, hiv, hl2, hevq, -⟩ := s.csrWrite_frame off v
  exact ⟨hcfg, hiv, hl2, by rw [hevq], s.csrWrite_warnmask_le off v⟩

/-- A host access is quiet: it may take the head event or clear WARNMASK bits, and touches nothing else of these. -/
theorem hostLine_quiet {s t : State} {line : HostLine} (h : hostLine s line = .next t) : s.Quiet t := by
  rcases hostLine_cases h with rfl | rfl | ⟨off, n, rfl⟩ | ⟨off, v, rfl⟩ | ⟨v, rfl⟩ | ⟨a, v, wd, -, rfl⟩
  · exact .of_eq rfl rfl rfl rfl rfl
  · exact .of_eq rfl rfl rfl rfl rfl
  · obtain ⟨hcfg, hiv, hl2, hevq, hmask⟩ := s.afterCsrRead_quiet off
    exact ⟨hcfg, hiv, hl2, hevq, hmask⟩
  · obtain ⟨hcfg, hiv, hl2, hevq, hmask⟩ := s.csrWrite_quiet off v
    exact ⟨hcfg, hiv, hl2, hevq, hmask⟩
  · exact .of_eq rfl rfl rfl rfl rfl
  · exact .of_eq rfl rfl rfl rfl rfl

/-- A step is quiet, or it completes a command successfully, and then it is quiet from the state with the command's
effects. -/
theorem step_quiet_or_ok {s t : State} (h : step s = .next t) :
    s.Quiet t ∨ ∃ i n m v, completionOf i s.taken = .ok n m v ∧ v.Quiet t := by
  rcases step_cases h with rfl | ⟨-, i, -, rfl⟩ | ⟨-, c, rfl⟩ | ⟨line, hl⟩
  · exact .inl (.of_eq rfl rfl rfl rfl rfl)
  · cases hc : completionOf i s.taken with
    | error c info => exact .inl (.of_eq rfl rfl rfl rfl rfl)
    | stall => exact .inl (.of_eq rfl rfl rfl rfl rfl)
    | ok n m v => exact .inr ⟨i, n, m, v, hc, .of_eq rfl rfl rfl rfl rfl⟩
  · exact .inl (.of_eq rfl rfl rfl rfl rfl)
  · obtain ⟨hcfg, hiv, hl2, hevq, hmask⟩ := hostLine_quiet hl
    exact .inl ⟨hcfg, hiv, hl2, hevq, hmask⟩

/-! ## Sizes (R31, R35, R38, R39, R217) -/

/-- The bounds on what waits for one program (R39). -/
def ProgState.sizeOk (c : Cfg) (v : ProgState) : Prop :=
  v.audq.length ≤ c.audqDepth ∧ ∀ b ∈ v.psd, b.length = c.psdBytes

theorem State.shapeOk.of_quiet {s t : State} (h : s.shapeOk) (hq : s.Quiet t) : t.shapeOk := by
  obtain ⟨hiv, hbuf, hprogs, hsize, hevq, hccc, hmask⟩ := h
  obtain ⟨qcfg, qiv, ql2, qevq, qmask⟩ := hq
  simp only [State.shapeOk, State.ivAt, qcfg, qiv, ql2]
  exact ⟨hiv, hbuf, hprogs, hsize, qevq.trans hevq, hccc, fun p hp => qmask p (hmask p hp)⟩

/-- SRST gives every table its size anew. -/
theorem softReset_shapeOk {s : State} (hc : s.cfg.valid = true) : s.softReset.shapeOk := by
  obtain ⟨hiv, hbuf⟩ := ivReset_facts s.cfg s.draws
  obtain ⟨-, -, hprogs, hsize, hevq, hccc, hmask⟩ := resetWith_shapeOk hc
  exact ⟨hiv, fun k hk => (hbuf k hk).1, hprogs, hsize, hevq, hccc, hmask⟩

/-- A program whose queue and slot are in bounds may stand in the table. -/
theorem State.shapeOk.setProg {s : State} (h : s.shapeOk) (p : Nat) {v : ProgState} (hv : v.sizeOk s.cfg) :
    (s.setProg p v).shapeOk := by
  obtain ⟨hiv, hbuf, hprogs, hsize, hevq, hccc, hmask⟩ := h
  refine ⟨hiv, hbuf, by simpa using hprogs, fun w hw => ?_, hevq, hccc, hmask⟩
  rcases List.mem_or_eq_of_mem_set hw with hold | rfl
  · exact hsize w hold
  · exact hv

/-- The programs of the table are in bounds. -/
theorem State.shapeOk.progAt {s : State} (h : s.shapeOk) {p : Nat} (hp : p < s.cfg.nprog) :
    p < s.l2.progs.length ∧ (s.progAt p).sizeOk s.cfg := by
  obtain ⟨-, -, hprogs, hsize, -⟩ := h
  have hlen : p < s.l2.progs.length := by rw [hprogs]; exact hp
  exact ⟨hlen, hsize _ (s.progAt_mem p hlen)⟩

theorem audq_shapeOk {s t : State} {p n m : Nat} (hs : s.shapeOk) (h : audq p s = .ok n m t) : t.shapeOk := by
  obtain ⟨⟨hp, -, -, -, -, hroom⟩, -, -, rfl⟩ := audq_ok h
  obtain ⟨hdepth, hpsd⟩ := (hs.progAt hp).2
  refine hs.setProg p ⟨?_, hpsd⟩
  rw [List.length_append, List.length_singleton]
  omega

theorem psdset_shapeOk {s t : State} {p n m : Nat} (hs : s.shapeOk) (h : psdset p s = .ok n m t) : t.shapeOk := by
  obtain ⟨⟨hp, -⟩, -, -, rfl⟩ := psdset_ok h
  obtain ⟨hdepth, -⟩ := (hs.progAt hp).2
  refine hs.setProg p ⟨hdepth, fun b hb => ?_⟩
  obtain rfl := Option.mem_some_iff.1 hb
  exact Memory.length_readBlock _ _ _

/-- The instances after one was replaced. -/
theorem State.ivAt_of_set_self {s t : State} {k : Nat} {v : IvState} (h : t.iv = s.iv.set k v)
    (hk : k < s.iv.length) : t.ivAt k = v := by
  simp [State.ivAt, h, List.getD, hk]

theorem State.ivAt_of_set_ne {s t : State} {k j : Nat} {v : IvState} (h : t.iv = s.iv.set k v) (hj : j ≠ k) :
    t.ivAt j = s.ivAt j := by
  simp [State.ivAt, h, List.getD, List.getElem?_set_ne (Ne.symm hj)]

theorem ilviv_shapeOk {s t : State} {k n m : Nat} (hs : s.shapeOk) (h : ilviv k s = .ok n m t) : t.shapeOk := by
  obtain ⟨⟨hk, -⟩, -, -, rfl⟩ := ilviv_ok h
  obtain ⟨hiv, hbuf, hrest⟩ := hs
  refine ⟨by simpa using hiv, fun j hj => ?_, hrest⟩
  by_cases hjk : j = k
  · subst hjk
    rw [State.ivAt_of_set_self (s := s) rfl (by rw [hiv]; exact hk), ← hbuf j hj]
    exact length_setCells _ _ _
  · rw [State.ivAt_of_set_ne (s := s) rfl hjk]
    exact hbuf j hj

/-- The data region keeps the event queue within its depth (R31). -/
theorem dataRegion_evq (f : FrameFns) (c : Cfg) (n pos : Nat) (z : FdsState) (h : z.evq.length ≤ c.evqDepth) :
    (dataRegion f c n pos z).2.evq.length ≤ c.evqDepth := by
  unfold dataRegion
  split
  · exact h
  · exact fdsTake_induction c (fun y => y.evq.length ≤ c.evqDepth) (fun y hy => fdsStream_evq c y hy) _ z h

/-- CCCPOS stays a position of the message (R217). -/
theorem nextCccPos_lt {c : Cfg} {pos : Nat} (h : pos < c.cccMsg.length) : nextCccPos c pos < c.cccMsg.length := by
  unfold nextCccPos
  split
  · exact h
  · exact Nat.mod_lt _ (by omega)

/-- A program after a frame: its queue is no longer than before, and its slot is empty. -/
theorem packAll_sizeOk {f : FrameFns} {c : Cfg} {n p : Nat} {vs : List ProgState} {rs : List Packed}
    (h : packAll f c n p vs = some rs) (hvs : ∀ v ∈ vs, v.sizeOk c) :
    ∀ v ∈ rs.map Packed.prog, v.sizeOk c := by
  intro v hv
  obtain ⟨r, hr, rfl⟩ := List.mem_map.1 hv
  obtain ⟨i, hi, rfl⟩ := List.mem_iff_getElem.1 hr
  have hi' : i < vs.length := by rw [← packAll_length h]; exact hi
  obtain ⟨psd, a, -, ha, hri⟩ := packProg_eq_some (packAll_getElem h i hi' hi)
  rw [hri]
  refine ⟨?_, fun b hb => by cases hb⟩
  exact (packAudio_queue ha).trans (hvs _ (List.getElem_mem hi')).1

/-- A frame of `n` programs warns for no program from number `n` up. -/
theorem warnBits_eq_false (rs : List Packed) {p : Nat} (hp : rs.length ≤ p) : (warnBits 0 rs).getLsbD p = false := by
  rw [getLsbD_warnBits, Nat.sub_zero, List.getD_eq_default _ _ (by simpa using hp), Bool.and_false]

theorem l2frame_shapeOk {f : FrameFns} {s t : State} {n m : Nat} (hs : s.shapeOk)
    (h : l2frameWith f s = .ok n m t) : t.shapeOk := by
  obtain ⟨rs, hrs, -, -, -, rfl⟩ := l2frame_ok h
  obtain ⟨hiv, hbuf, hprogs, hsize, hevq, hccc, hmask⟩ := hs
  have hlen : rs.length = s.cfg.nprog := (packAll_length hrs).trans hprogs
  refine ⟨hiv, hbuf, by simpa [l2Commit] using hlen, packAll_sizeOk hrs hsize, dataRegion_evq _ _ _ _ _ hevq,
    nextCccPos_lt hccc, fun p hp => ?_⟩
  change (s.csr.warnmask ||| warnBits 0 rs).getLsbD p = false
  have hwarn : (warnBits 0 rs).getLsbD p = false := warnBits_eq_false rs (hlen.trans_le hp)
  rw [BitVec.getLsbD_or, hmask p hp, hwarn, Bool.or_self]

/-- A command that writes to none of the tables, queues and masks is quiet. -/
theorem completionOf_ok_quiet {i : Instr} {s t : State} {n m : Nat} (h : completionOf i s = .ok n m t)
    (hsrst : i ≠ .srst) (hframe : i ≠ .l2frame) (hilviv : ∀ k, i ≠ .ilviv k) (haudq : ∀ p, i ≠ .audq p)
    (hpsdset : ∀ p, i ≠ .psdset p) (haasq : ∀ q, i ≠ .aasq q) : s.Quiet t := by
  obtain ⟨hcfg, -, -, -, -, hev, -, hiv, -, -, hl2⟩ := completionOf_ok_frame h
  obtain ⟨hevq, hmask, -⟩ := hev hsrst hframe
  exact .of_eq hcfg (hiv hsrst hilviv) (hl2 hsrst hframe haudq hpsdset haasq) hevq hmask

theorem completionOf_ok_shapeOk {i : Instr} {s t : State} {n m : Nat} (hc : s.cfg.valid = true) (hs : s.shapeOk)
    (h : completionOf i s = .ok n m t) : t.shapeOk := by
  cases i with
  | srst => injection h with _ _ h; subst h; exact softReset_shapeOk hc
  | ilviv k => exact ilviv_shapeOk hs h
  | audq p => exact audq_shapeOk hs h
  | psdset p => exact psdset_shapeOk hs h
  | aasq q => obtain ⟨-, -, -, rfl⟩ := aasq_ok h; exact hs
  | l2frame => exact l2frame_shapeOk hs h
  | nop | rev8 | scr | conv25 | conv12 | ilvp1 | ilvpids | l1map | rsenc =>
    exact hs.of_quiet (completionOf_ok_quiet h (by simp) (by simp) (by simp) (by simp) (by simp) (by simp))

/-- Settles O24: a quiet step adds to no table, and each command that writes to one checks its room first. -/
theorem shapeInvariant : Obligations.ShapeInvariant := by
  intro s t hc hs h
  rcases step_quiet_or_ok h with hq | ⟨i, n, m, v, hok, hq⟩
  · exact hs.of_quiet hq
  · exact (completionOf_ok_shapeOk (s := s.taken) hc hs hok).of_quiet hq

/-! ## Budgets (R39, R202, R209, R211, R226) -/

/-- The budgets speak of CFG and the L2 state alone. -/
theorem State.budgetOk.congr {s t : State} (h : s.budgetOk) (hcfg : t.cfg = s.cfg) (hl2 : t.l2 = s.l2) :
    t.budgetOk := by
  simpa only [State.budgetOk, State.progAt, hcfg, hl2] using h

/-- A program within its budget may stand in the table. -/
theorem State.budgetOk.setProg {s : State} (h : s.budgetOk) {p : Nat} (hp : p < s.l2.progs.length) {v : ProgState}
    (hv : v.budgetOk s.cfg s.l2.frameCnt p) : (s.setProg p v).budgetOk := by
  intro q hq
  rw [s.progAt_setProg p q v hp]
  split
  · next hqp => subst hqp; exact hv
  · exact h q hq

theorem audq_budgetOk {s t : State} {p n m : Nat} (hs : s.shapeOk) (hb : s.budgetOk)
    (h : audq p s = .ok n m t) : t.budgetOk := by
  obtain ⟨⟨hp, -, hfit, -⟩, -, -, rfl⟩ := audq_ok h
  obtain ⟨hqueue, hseq, hpart⟩ := hb p hp
  refine hb.setProg (hs.progAt hp).1 ⟨fun sf hsf => ?_, hseq, hpart⟩
  rcases List.mem_append.1 hsf with hold | hnew
  · exact hqueue sf hold
  · obtain rfl := List.mem_singleton.1 hnew
    simpa [fitsAlone] using hfit

theorem psdset_budgetOk {s t : State} {p n m : Nat} (hs : s.shapeOk) (hb : s.budgetOk)
    (h : psdset p s = .ok n m t) : t.budgetOk := by
  obtain ⟨⟨hp, -⟩, -, -, rfl⟩ := psdset_ok h
  obtain ⟨hqueue, hseq, hpart⟩ := hb p hp
  exact hb.setProg (hs.progAt hp).1 ⟨hqueue, hseq, hpart⟩

/-- Where every program packs, program `p` leaves the frame as its own packing says. -/
theorem packAll_progAt {f : FrameFns} {c : Cfg} {n : Nat} {vs : List ProgState} {rs : List Packed}
    (h : packAll f c n 0 vs = some rs) {p : Nat} (hp : p < vs.length) :
    ∃ a, packAudio c n p (vs.getD p ProgState.reset) = some a ∧
      (rs.map Packed.prog).getD p ProgState.reset = ⟨a.seq, a.part, a.queue, none⟩ := by
  have hr : p < rs.length := by rw [packAll_length h]; exact hp
  obtain ⟨psd, a, -, ha, hri⟩ := packProg_eq_some (packAll_getElem h p hp hr)
  rw [Nat.zero_add] at ha
  refine ⟨a, ?_, ?_⟩
  · rwa [List.getD_eq_getElem _ _ hp]
  · rw [List.getD_eq_getElem _ _ (by simpa using hr), List.getElem_map, hri]

theorem l2frame_budgetOk {f : FrameFns} {s t : State} {n m : Nat} (hs : s.shapeOk) (hb : s.budgetOk)
    (h : l2frameWith f s = .ok n m t) : t.budgetOk := by
  obtain ⟨rs, hrs, -, -, -, rfl⟩ := l2frame_ok h
  intro p hp
  obtain ⟨a, ha, hprog⟩ := packAll_progAt hrs (hs.progAt hp).1
  change ((rs.map Packed.prog).getD p ProgState.reset).budgetOk s.cfg (s.l2.frameCnt + 1) p
  rw [hprog]
  exact packAudio_budgetOk (hb p hp) ha none

theorem completionOf_ok_budgetOk {i : Instr} {s t : State} {n m : Nat} (hs : s.shapeOk) (hb : s.budgetOk)
    (h : completionOf i s = .ok n m t) : t.budgetOk := by
  obtain ⟨hcfg, hl2 | hl2 | ⟨p, rfl⟩ | ⟨p, rfl⟩ | ⟨q, rfl⟩ | rfl⟩ := completionOf_ok_l2 h
  · exact hb.congr hcfg hl2
  · exact (resetWith_budgetOk s.cfg).congr hcfg hl2
  · exact audq_budgetOk hs hb h
  · exact psdset_budgetOk hs hb h
  · obtain ⟨-, -, -, rfl⟩ := aasq_ok h
    exact hb
  · exact l2frame_budgetOk hs hb h

/-- Settles O25: AUDQ checks that a payload fits, and packing splits within its payload and stops at the target. -/
theorem budgetInvariant : Obligations.BudgetInvariant := by
  intro s t hs hb h
  rcases step_quiet_or_ok h with hq | ⟨i, n, m, v, hok, hq⟩
  · exact hb.congr hq.cfg hq.l2
  · exact (completionOf_ok_budgetOk (s := s.taken) hs hb hok).congr hq.cfg hq.l2

/-! ## The AAS queues (R40, R204, R219, R220) -/

/-- The working state of the stream stands inside a PDU of port `q`. -/
def FdsState.inside (z : FdsState) (q : Port) : Bool := z.inPdu && z.curPort == some q

/-- `State.aasOk` of the working state of the stream. -/
def FdsState.aasOk (c : Cfg) (z : FdsState) : Prop :=
  z.aasq.Pairwise (fun a b => a.1 < b.1) ∧
  (∀ e ∈ z.aasq, e.2.length ≤ c.aasQbytes) ∧
  (∀ e ∈ z.aasq, hdlcWhole (z.inside e.1) e.2 = true) ∧
  (∀ q ∈ z.curPort, q ∈ z.aasq.map Prod.fst) ∧
  (z.inPdu = true → z.curPort ≠ none)

theorem State.aasOk_iff_fds (s : State) : s.aasOk ↔ s.fds.aasOk s.cfg := Iff.rfl

theorem State.aasOk.congr {s t : State} (h : s.aasOk) (hcfg : t.cfg = s.cfg) (hl2 : t.l2 = s.l2) : t.aasOk := by
  simpa only [State.aasOk, hcfg, hl2] using h

/-- Replacing a queue by one that is in order keeps all in order; `x` is whether a PDU of the port is open. -/
theorem FdsState.aasOk.replaceQueue {c : Cfg} {z : FdsState} (h : z.aasOk c) {q : Port} {bs : List Byte}
    (hlen : bs.length ≤ c.aasQbytes) (hwhole : hdlcWhole (z.inside q) bs = true) :
    ({ z with aasq := setQueue q bs z.aasq } : FdsState).aasOk c := by
  obtain ⟨hrise, hcap, hframes, hcur, hopen⟩ := h
  refine ⟨pairwise_setQueue q bs _ hrise, fun e he => ?_, fun e he => ?_, fun r hr => ?_, hopen⟩
  · rcases mem_setQueue he with rfl | ⟨hold, -⟩
    · exact hlen
    · exact hcap e hold
  · rcases mem_setQueue he with rfl | ⟨hold, -⟩
    · exact hwhole
    · exact hframes e hold
  · exact (mem_ports_setQueue q r bs _).2 (.inr (hcur r hr))

/-- The queue of a port is in order, whether the port is in PORTS or not. -/
theorem FdsState.aasOk.queue_whole {c : Cfg} {z : FdsState} (h : z.aasOk c) (q : Port) :
    hdlcWhole (z.inside q) (queueOf z.aasq q) = true := by
  obtain ⟨hrise, -, hframes, hcur, -⟩ := h
  by_cases hq : q ∈ z.aasq.map Prod.fst
  · obtain ⟨e, he, rfl⟩ := List.mem_map.1 hq
    rw [queueOf_of_mem hrise he]
    exact hframes e he
  · have hempty : queueOf z.aasq q = [] := by
      by_contra hne
      exact hq (mem_ports_of_queueOf hne)
    have hout : z.inside q = false := by
      by_contra hin
      have hcq : z.curPort = some q := by simp_all [FdsState.inside]
      exact hq (hcur q hcq)
    rw [hempty, hout]
    rfl

/-- Taking bytes off the queue of the cursor's port: what is left is in order, for `x` whether a PDU is then open. -/
theorem FdsState.aasOk.drain {c : Cfg} {z : FdsState} (h : z.aasOk c) {p : Port} {b : Byte} {bs : List Byte} {x : Bool}
    (hcur : z.curPort = some p) (hq : queueOf z.aasq p = b :: bs) (hx : hdlcWhole x bs = true) :
    ({ z with aasq := setQueue p bs z.aasq, inPdu := x } : FdsState).aasOk c := by
  obtain ⟨hrise, hcap, hframes, hports, -⟩ := h
  refine ⟨pairwise_setQueue p bs _ hrise, fun e he => ?_, fun e he => ?_, fun r hr => ?_, fun _ => by simp [hcur]⟩
  · rcases mem_setQueue he with rfl | ⟨hold, -⟩
    · obtain ⟨d, hd, rfl⟩ := List.mem_map.1 (hports p hcur)
      have := hcap d hd
      rw [← queueOf_of_mem hrise hd, hq] at this
      exact (Nat.le_succ _).trans this
    · exact hcap e hold
  · rcases mem_setQueue he with rfl | ⟨hold, hne⟩
    · simpa [FdsState.inside, hcur] using hx
    · have hother : (p == e.1) = false := by simpa using Ne.symm (hne hrise)
      simpa [FdsState.inside, hcur, hother] using hframes e hold
  · exact (mem_ports_setQueue p r bs _).2 (.inr (hports r hr))

/-- Outside a PDU the cursor may move to where nextport points (R219). -/
theorem FdsState.aasOk.moveCursor {c : Cfg} {z : FdsState} (h : z.aasOk c) (hin : z.inPdu = false) (o : Option Port) :
    ({ z with curPort := nextPort z.aasq o } : FdsState).aasOk c := by
  obtain ⟨hrise, hcap, hframes, -, -⟩ := h
  refine ⟨hrise, hcap, ?_, fun q hq => ?_, fun hopen => ?_⟩
  · simpa [FdsState.inside, hin] using hframes
  · obtain ⟨e, he, rfl, -⟩ := nextPort_mem hq
    exact List.mem_map_of_mem he
  · simp [hin] at hopen

theorem FdsState.aasOk.seek {c : Cfg} {z : FdsState} (h : z.aasOk c) : z.seek.aasOk c := by
  unfold FdsState.seek
  split
  · exact h
  · next hin =>
    have hin : z.inPdu = false := by simpa using hin
    split
    · exact h.moveCursor hin none
    · next p _ =>
      split
      · exact h.moveCursor hin (some p)
      · exact h

/-- The flag that ends a PDU: the event it may emit touches no queue, and the cursor moves on (R220, R221). -/
theorem FdsState.aasOk.closePdu {c : Cfg} {z : FdsState} (h : ({ z with inPdu := false } : FdsState).aasOk c)
    (p : Port) : (z.closePdu c p).aasOk c := by
  have hmoved := h.moveCursor rfl (some p)
  unfold FdsState.closePdu
  split <;> exact hmoved

/-- fds_byte keeps the queues in order: the flag that it takes opens or closes the PDU of its port, and it takes any
other byte inside one. -/
theorem fdsByte_aasOk {c : Cfg} {z : FdsState} (h : z.aasOk c) : (fdsByte c z).2.aasOk c := by
  rcases fdsByte_cases c z with e | ⟨p, b, bs, hcur, hq, e⟩ <;> rw [e]
  · exact h.seek
  · rw [← FdsState.seek_aasq] at hq ⊢
    have hs := h.seek
    generalize z.seek = y at hcur hq hs ⊢
    have hwhole := hs.queue_whole p
    have hinside : y.inside p = y.inPdu := by simp [FdsState.inside, hcur]
    rw [hinside, hq, hdlcWhole_cons] at hwhole
    unfold FdsState.afterByte
    by_cases hb : b = hdlcFlag
    · rw [if_pos hb] at hwhole ⊢
      have hdrain := hs.drain hcur hq hwhole
      cases hin : y.inPdu with
      | true => rw [hin] at hdrain; exact hdrain.closePdu (z := { y with aasq := setQueue p bs y.aasq }) p
      | false => rw [hin] at hdrain; exact hdrain
    · rw [if_neg hb, Bool.and_eq_true] at hwhole
      rw [if_neg hb]
      exact hs.drain hcur hq hwhole.2

theorem fdsStream_aasOk {c : Cfg} {z : FdsState} (h : z.aasOk c) : (fdsStream c z).2.aasOk c := by
  unfold fdsStream
  simp only
  split
  · exact h
  · exact fdsByte_aasOk h

theorem dataRegion_aasOk {f : FrameFns} {c : Cfg} {n pos : Nat} {z : FdsState} (h : z.aasOk c) :
    (dataRegion f c n pos z).2.aasOk c := by
  unfold dataRegion
  split
  · exact h
  · exact fdsTake_induction c (FdsState.aasOk c) (fun _ => fdsStream_aasOk) _ z h

/-- AASQ appends one whole frame, and only within the capacity of the queue. -/
theorem aasq_aasOk {s t : State} {q : Port} {n m : Nat} (hs : s.aasOk) (h : aasq q s = .ok n m t) : t.aasOk := by
  obtain ⟨⟨hlen, -, hframe, hcap⟩, -, -, rfl⟩ := aasq_ok h
  rw [State.aasOk_iff_fds] at hs
  have hwhole : hdlcWhole false (s.mem.readBlock s.srcA s.lenN) = true :=
    hdlcWhole_of_hdlcBad (by simpa using hlen) hframe
  refine hs.replaceQueue (by simpa using hcap) ?_
  exact (hdlcWhole_append _ _ _ (hs.queue_whole q)).trans hwhole

theorem completionOf_ok_aasOk {i : Instr} {s t : State} {n m : Nat} (hs : s.aasOk)
    (h : completionOf i s = .ok n m t) : t.aasOk := by
  obtain ⟨hcfg, hl2 | hl2 | ⟨p, rfl⟩ | ⟨p, rfl⟩ | ⟨q, rfl⟩ | rfl⟩ := completionOf_ok_l2 h
  · exact hs.congr hcfg hl2
  · exact (resetWith_aasOk s.cfg).congr hcfg hl2
  · obtain ⟨-, -, -, rfl⟩ := audq_ok h
    exact hs
  · obtain ⟨-, -, -, rfl⟩ := psdset_ok h
    exact hs
  · exact aasq_aasOk hs h
  · obtain ⟨rs, -, -, -, -, rfl⟩ := l2frame_ok h
    exact dataRegion_aasOk hs

/-- Settles O26: AASQ appends whole frames, and the stream drains them byte by byte with the cursor on their port. -/
theorem aasInvariant : Obligations.AasInvariant := by
  intro s t hs h
  rcases step_quiet_or_ok h with hq | ⟨i, n, m, v, hok, hq⟩
  · exact hs.congr hq.cfg hq.l2
  · exact (completionOf_ok_aasOk (s := s.taken) hs hok).congr hq.cfg hq.l2

/-! ## Taking a command (R23, R42, R73, R86) -/

/-- Decoding a word that a row of the opcode map selects, with RSV = 0 and an immediate only where the row has one. -/
theorem decode_of_row {w : Word} {r : OpRow} (hr : r ∈ opcodeTable) (hsel : r.selects w = true)
    (hrsv : rsvField w = 0) (himm : r.usesImm = true ∨ immField w = 0) :
    decode w = .cmd (r.build (selField w) (immField w)) := by
  have hunused : (!r.usesImm && immField w != 0) = false := by
    rcases himm with h | h <;> simp [h]
  simp only [decode, opcodeTable_find w r hr hsel, hrsv, ne_eq, not_true, if_false, hunused, Bool.false_eq_true]

/-- The fields of a packed word (R80 to R84). -/
theorem packWord_fields (opc sel imm : Nat) (hopc : opc < 256) (hsel : sel < 16) :
    rsvField (packWord opc sel imm) = 0 ∧ selField (packWord opc sel imm) = sel ∧
      immField (packWord opc sel imm) = BitVec.ofNat 16 imm := by
  refine ⟨(Laws.RsvZero.packed opc sel imm hopc).1, ?_, ?_⟩
  · rw [selField_eq, packWord_toNat]
    omega
  · apply BitVec.eq_of_toNat_eq
    rw [immField_toNat, packWord_toNat, BitVec.toNat_ofNat]
    omega

/-- Decoding a packed word whose OPC and SEL a row selects. -/
theorem decode_packWord {opc sel imm : Nat} {r : OpRow} (hr : r ∈ opcodeTable) (hopc : opc < 256) (hsel : sel < 16)
    (hrow : r.selects (packWord opc sel imm) = true) (himm : r.usesImm = true ∨ imm = 0) :
    decode (packWord opc sel imm) = .cmd (r.build sel (BitVec.ofNat 16 imm)) := by
  obtain ⟨hrsv, hselField, himmField⟩ := packWord_fields opc sel imm hopc hsel
  rw [decode_of_row hr hrow hrsv (himm.imp_right fun h => by rw [himmField, h]; rfl), hselField, himmField]

/-- The rows with an immediate take every IMM. -/
theorem decode_packWord_imm {opc imm : Nat} {r : OpRow} (hr : r ∈ opcodeTable) (hopc : opc < 256)
    (hmask : r.mask = 0x00000FFF) (hpat : r.pattern = BitVec.ofNat 32 opc) (himm : r.usesImm = true) :
    decode (packWord opc 0 imm) = .cmd (r.build 0 (BitVec.ofNat 16 imm)) := by
  refine decode_packWord hr hopc (by decide) ?_ (.inl himm)
  rw [OpRow.selects, hmask, hpat, and_mask12_eq, decide_eq_true_eq, packWord_toNat, BitVec.toNat_ofNat]
  omega

/-- Decoding the word of a well-formed command gives the command back (R80, R85, R86). -/
theorem decode_encode {i : Instr} (h : i.wellFormed = true) : decode (encode i) = .cmd i := by
  cases i with
  | ilviv k =>
    have hk : k < 16 := by simpa [Instr.wellFormed] using h
    have hrow : (packWord 0x21 k 0 &&& 0x000000FF == 0x00000021) = true := by
      rw [and_mask8_eq, decide_eq_true_eq, packWord_toNat]
      change _ = 0x21
      omega
    exact decode_packWord (r := ⟨"ILVIV", 0x00000021, 0x000000FF, false, fun sel _ => .ilviv sel⟩)
      (by simp [opcodeTable]) (by decide) hk hrow (.inr rfl)
  | audq p =>
    have hp : p < 65536 := by simpa [Instr.wellFormed] using h
    have hdec := decode_packWord_imm (opc := 0x50) (imm := p)
      (r := ⟨"AUDQ", 0x00000050, 0x00000FFF, true, fun _ imm => .audq imm.toNat⟩)
      (by simp [opcodeTable]) (by decide) rfl rfl rfl
    simpa [encode, Nat.mod_eq_of_lt hp] using hdec
  | psdset p =>
    have hp : p < 65536 := by simpa [Instr.wellFormed] using h
    have hdec := decode_packWord_imm (opc := 0x51) (imm := p)
      (r := ⟨"PSDSET", 0x00000051, 0x00000FFF, true, fun _ imm => .psdset imm.toNat⟩)
      (by simp [opcodeTable]) (by decide) rfl rfl rfl
    simpa [encode, Nat.mod_eq_of_lt hp] using hdec
  | aasq q =>
    have hdec := decode_packWord_imm (opc := 0x52) (imm := q.toNat)
      (r := ⟨"AASQ", 0x00000052, 0x00000FFF, true, fun _ imm => .aasq imm⟩)
      (by simp [opcodeTable]) (by decide) rfl rfl rfl
    simpa [encode] using hdec
  | nop | srst | rev8 | scr | conv25 | conv12 | ilvp1 | ilvpids | l1map | rsenc | l2frame => decide

/-- Settles O8: the placed word is in LAT, the turn placed with it is the block's, and the word decodes to its command. -/
theorem placedWordRuns : Obligations.PlacedWordRuns := by
  intro s i hi
  have hw : toWord ((encode i).toNat % 2 ^ 32) = encode i := by
    rw [Nat.mod_eq_of_lt (encode i).isLt, toWord, BitVec.ofNat_toNat, BitVec.setWidth_eq]
  change blockTurn (s.accept (toWord ((encode i).toNat % 2 ^ 32))) = exec i (s.accept (encode i))
  rw [hw]
  simp only [blockTurn, State.accept_phase, State.accept_lat, decode_encode hi]

/-- In the turn of a BUSY block the step is the block's move; `u` is the state with the turn taken. -/
theorem step_of_turnOf_block {s u : State} (hb : s.phase = .busy) (h : turnOf .block s u) :
    step s = blockTurn u ∧ u.phase = .busy := by
  rcases h with ⟨rest, hturns, rfl⟩ | ⟨hturns, rfl, -⟩
  · exact ⟨by simp only [step, hturns], hb⟩
  · exact ⟨by simp only [step, hturns, hb], hb⟩

/-- Every completion leaves the phase IDLE and DONE set (R42). -/
theorem finish_idle_done (s : State) (c : Completion) :
    (s.finish c).phase = .idle ∧ (s.finish c).csr.flags.done = true := by
  cases c <;> exact ⟨rfl, rfl⟩

/-- Settles O9: a BUSY block completes its command, or a decode error. -/
theorem busyBlockCompletes : Obligations.BusyBlockCompletes := by
  intro s u hb hturn
  obtain ⟨hstep, hbu⟩ := step_of_turnOf_block hb hturn
  rw [hstep]
  rcases blockTurn_busy hbu with ⟨i, -, he⟩ | ⟨c, -, he⟩
  · exact ⟨_, he.trans (exec_eq i u), finish_idle_done u _⟩
  · exact ⟨_, he, rfl, rfl⟩

/-! ## Completions (R271, R272, R274, R276) -/

/-- The completion is one that the rules allow command `i`: an error of a listed cause, a stall only where the command
may stall. -/
def Completion.allowed (i : Instr) : Completion → Prop
  | .error c _ => c ∈ raisedBy i
  | .stall => mayStall i = true
  | .ok _ _ _ => True

theorem Completion.allowed_ite {i : Instr} {P : Prop} [Decidable P] {a b : Completion} (ha : a.allowed i)
    (hb : b.allowed i) : (if P then a else b).allowed i := by
  split <;> assumption

theorem convolve_allowed {i : Instr} (hi : i = .conv25 ∨ i = .conv12) (s : State) (n : Nat)
    (taps : Nat → List (BitVec 7)) : (convolve s n taps).allowed i := by
  unfold convolve
  rcases hi with rfl | rfl <;> (repeat' split) <;> simp [Completion.allowed, raisedBy]

/-- Every command completes as the table of causes and the list of stalls allow. -/
theorem completionOf_allowed (i : Instr) (s : State) : (completionOf i s).allowed i := by
  cases i with
  | nop | srst => trivial
  | conv25 => exact Completion.allowed_ite (by simp [Completion.allowed, raisedBy]) (convolve_allowed (.inl rfl) _ _ _)
  | conv12 => exact Completion.allowed_ite (by simp [Completion.allowed, raisedBy]) (convolve_allowed (.inr rfl) _ _ _)
  | rev8 | scr | ilvp1 | ilvpids | ilviv k | l1map | rsenc | audq p | psdset p | aasq q | l2frame =>
    simp only [completionOf, rev8, scr, ilvPass, ilviv, l1map, rsenc, audq, psdset, aasq, l2frameWith]
    repeat' split
    all_goals simp [Completion.allowed, raisedBy, mayStall]

/-- Settles O20: `completionOf_allowed` says which stops a command has, and `completionOf_ok_frame` what its success
leaves alone. -/
theorem completionKinds : Obligations.CompletionKinds := by
  intro i s
  refine ⟨_, exec_eq i s, ?_⟩
  have hallowed := completionOf_allowed i s
  cases h : completionOf i s with
  | error c info => exact .inl ⟨c, info, rfl⟩
  | stall => rw [h] at hallowed; exact .inr (.inl ⟨rfl, hallowed⟩)
  | ok n m t =>
    refine .inr (.inr ⟨rfl, rfl, or_iff_not_imp_left.2 fun hsrst => ?_⟩)
    obtain ⟨-, -, -, -, hregs, hflags, -⟩ := completionOf_ok_frame h
    obtain ⟨-, -, -, -, -, -, -, hcause, hinfo, herr, hstall, hcmdovr⟩ := hregs hsrst
    refine ⟨herr, hstall, hcmdovr, hcause, hinfo, or_iff_not_imp_left.2 fun hframe => ?_⟩
    obtain ⟨-, -, hall⟩ := hflags hsrst hframe
    simp [hall]

/-- Settles O21: an error and a stall write the completion fields alone, and a success leaves alone what
`completionOf_ok_frame` says. -/
theorem commandFootprint : Obligations.CommandFootprint := by
  intro i s t h
  rw [exec_next_iff] at h
  subst h
  cases h : completionOf i s with
  | error c info => simp [State.ivAt]
  | stall => simp [State.ivAt]
  | ok n m t =>
    obtain ⟨hcfg, hhost, hfaults, hcmd, hregs, hev, hlfsr, hiv, hivAt, hmem, hl2⟩ := completionOf_ok_frame h
    refine ⟨⟨hcfg, hhost, hfaults, hcmd⟩, fun hsrst => ?_, hlfsr, hiv, fun k hk j hj => ?_, hmem, hl2,
      fun hsrst hframe => ?_⟩
    · obtain ⟨hsrc, hdst, hlen, haux, hirqen, hlat, hdraws, -⟩ := hregs hsrst
      exact ⟨hsrc, hdst, hlen, haux, hirqen, hlat, hdraws⟩
    · obtain ⟨v, hv⟩ := hivAt k hk
      exact State.ivAt_of_set_ne (s := s) (t := t) hv hj
    · obtain ⟨hevq, hmask, -⟩ := hev hsrst hframe
      exact ⟨hevq, hmask⟩

/-- No two causes have one code (R271). -/
theorem Cause.code_injective : Function.Injective Cause.code := by
  intro c d h
  cases c <;> cases d <;> simp_all [Cause.code]

/-- A successful command leaves ERR as it was, and SRST clears it. -/
theorem completionOf_ok_err {i : Instr} {s t : State} {n m : Nat} (h : completionOf i s = .ok n m t)
    (hs : s.csr.flags.err = false) : t.csr.flags.err = false := by
  by_cases hi : i = .srst
  · subst hi
    injection h with _ _ h
    subst h
    rfl
  · obtain ⟨-, -, -, -, hregs, -⟩ := completionOf_ok_frame h
    obtain ⟨-, -, -, -, -, -, -, -, -, herr, -⟩ := hregs hi
    rw [herr, hs]

/-- From ERR 0, the error state of a cause is reached by an error of that cause alone. -/
theorem completionOf_of_errorState {i : Instr} {s : State} {c : Cause} {info : Word} (hs : s.csr.flags.err = false)
    (h : exec i s = .next (errorState s c info)) : ∃ info', completionOf i s = .error c info' := by
  rw [exec_next_iff] at h
  cases hc : completionOf i s with
  | error d info' =>
    rw [hc] at h
    have hcode : c.code = d.code := congrArg (fun t : State => t.csr.cause) h
    exact ⟨info', by rw [Cause.code_injective hcode]⟩
  | stall =>
    rw [hc] at h
    have herr : true = s.csr.flags.err := congrArg (fun t : State => t.csr.flags.err) h
    rw [hs] at herr
    cases herr
  | ok n m t =>
    rw [hc] at h
    have herr : true = t.csr.flags.err := congrArg (fun t : State => t.csr.flags.err) h
    rw [completionOf_ok_err hc hs] at herr
    cases herr

/-- The completion fields are written the same with ERR set. -/
theorem finish_withErr (s : State) (c : Completion) : s.withErr.finish c.withErr = (s.finish c).withErr := by
  cases c <;> rfl

/-- Settles O22: from ERR 0 the error state shows its cause, which `completionOf_allowed` finds in the table; and no
command reads ERR. -/
theorem onlyListedCauses : Obligations.OnlyListedCauses := by
  refine ⟨by decide, fun i s hs => ⟨fun c info h => ?_, fun hi t h => ?_⟩⟩
  · obtain ⟨info', hc⟩ := completionOf_of_errorState hs h
    have hallowed := completionOf_allowed i s
    rwa [hc] at hallowed
  · rw [exec_next_iff] at h
    change exec i s.withErr = .next t.withErr
    rw [exec_next_iff, completionOf_withErr i s hi, finish_withErr, h]

/-! ## The input commands of the L2 multiplexer (R39, R40, R202, R203, R204) -/

/-- Replacing the state of a program leaves the size of the table and the other programs. -/
theorem setProg_facts {s : State} (hs : s.shapeOk) {p : Nat} (hp : p < s.cfg.nprog) (v : ProgState) :
    (s.setProg p v).l2.progs.length = s.l2.progs.length ∧
    (∀ q, q ≠ p → (s.setProg p v).progAt q = s.progAt q) ∧ (s.setProg p v).progAt p = v := by
  have hlen := (hs.progAt hp).1
  refine ⟨by simp, fun q hq => ?_, ?_⟩
  · rw [s.progAt_setProg p q v hlen, if_neg hq]
  · rw [s.progAt_setProg p p v hlen, if_pos rfl]

/-- The 13-bit field of a header in memory (R202). -/
theorem adtsLength_readBlock (m : Memory) (a n : Nat) (hn : 7 ≤ n) : adtsLength (m.readBlock a n) =
    (m.read (a + 3)).toNat % 4 * 2048 + (m.read (a + 4)).toNat * 8 + (m.read (a + 5)).toNat / 32 := by
  rw [adtsLength_eq, Memory.getD_readBlock _ _ _ _ _ (by omega), Memory.getD_readBlock _ _ _ _ _ (by omega),
    Memory.getD_readBlock _ _ _ _ _ (by omega)]

/-- The payload after the 7-byte header. -/
theorem drop_readBlock_header (m : Memory) (a n : Nat) :
    (m.readBlock a n).drop 7 = (List.range (n - 7)).map (fun i => m.read (a + (7 + i))) := by
  rw [Memory.drop_readBlock, Memory.readBlock]
  simp only [Nat.add_assoc]

/-- AUDQ where every check passes. -/
theorem audq_eq_ok {s : State} {p : Nat} (hp : p < s.cfg.nprog) (h7 : 7 ≤ s.lenN)
    (hfit : s.lenN - 7 + 1 + s.cfg.locBytes 1 ≤ s.cfg.area p) (hsrc : legal s.cfg s.srcA s.lenN)
    (hhdr : adtsLength (s.mem.readBlock s.srcA s.lenN) = s.lenN)
    (hroom : (s.progAt p).audq.length < s.cfg.audqDepth) :
    audq p s = .ok s.lenN 0 (s.setProg p { s.progAt p with
      audq := (s.progAt p).audq ++ [(s.mem.readBlock s.srcA s.lenN).drop 7] }) := by
  have hlen : ¬(s.lenN < 7 ∨ s.cfg.area p < s.lenN - 7 + 1 + s.cfg.locBytes 1) := by omega
  simp only [audq, Nat.not_le.2 hp, hlen, hsrc, hhdr, hroom.ne, not_true, ne_eq, if_false]

/-- Settles O50: with the checks passed, the program's queue gains the payload. -/
theorem audqQueuesPayload : Obligations.AudqQueuesPayload := by
  intro s p hs hp h7 hfit hsrc hhdr hroom
  rw [← adtsLength_readBlock _ _ _ h7] at hhdr
  have hexec := exec_eq (.audq p) s
  rw [completionOf, audq_eq_ok hp h7 hfit hsrc hhdr hroom, drop_readBlock_header] at hexec
  exact ⟨_, hexec, rfl, setProg_facts hs hp _⟩

/-- PSDSET where every check passes. -/
theorem psdset_eq_ok {s : State} {p : Nat} (hp : p < s.cfg.nprog) (hlen : s.lenN = s.cfg.psdBytes)
    (hsrc : legal s.cfg s.srcA s.cfg.psdBytes) (hslot : (s.progAt p).psd = none) :
    psdset p s = .ok s.cfg.psdBytes 0
      (s.setProg p { s.progAt p with psd := some (s.mem.readBlock s.srcA s.cfg.psdBytes) }) := by
  simp only [psdset, Nat.not_le.2 hp, hlen, hsrc, hslot, not_true, ne_eq, if_false]

/-- Settles O51: with the checks passed, the program's slot holds the block. -/
theorem psdsetFillsSlot : Obligations.PsdsetFillsSlot := by
  intro s p hs hp hlen hsrc hslot
  have hexec := exec_eq (.psdset p) s
  rw [completionOf, psdset_eq_ok hp hlen hsrc hslot] at hexec
  exact ⟨_, hexec, rfl, setProg_facts hs hp _⟩

/-- A block in memory with flags at its ends alone passes the check of AASQ. -/
theorem hdlcBad_readBlock_eq_none {m : Memory} {a n : Nat} (hfirst : m.read a = hdlcFlag)
    (hlast : m.read (a + (n - 1)) = hdlcFlag) (hmid : ∀ i, 0 < i → i < n - 1 → m.read (a + i) ≠ hdlcFlag) :
    hdlcBad (m.readBlock a n) = none := by
  rw [hdlcBad_eq_none]
  intro i hi
  rw [Memory.length_readBlock] at hi
  rw [hdlcOffends, Memory.length_readBlock, Memory.getD_readBlock _ _ _ _ _ hi]
  split
  · next hend =>
    rcases hend with rfl | rfl
    · simp [hfirst]
    · simp [hlast]
  · next hend =>
    have := hmid i (by omega) (by omega)
    simpa using this

/-- AASQ where every check passes. -/
theorem aasq_eq_ok {s : State} {q : Port} (hlen : 2 ≤ s.lenN) (hsrc : legal s.cfg s.srcA s.lenN)
    (hframe : hdlcBad (s.mem.readBlock s.srcA s.lenN) = none)
    (hroom : (queueOf s.l2.aasq q).length + s.lenN ≤ s.cfg.aasQbytes) :
    aasq q s = .ok s.lenN 0 { s with l2 := { s.l2 with
      aasq := setQueue q (queueOf s.l2.aasq q ++ s.mem.readBlock s.srcA s.lenN) s.l2.aasq } } := by
  simp only [aasq, Nat.not_lt.2 hlen, hsrc, hframe, Nat.not_lt.2 hroom, not_true, if_false]

/-- Settles O52: with the checks passed, the queue of the port gains the frame, as `queueOf_setQueue` and
`mem_ports_setQueue` say. -/
theorem aasqQueuesFrame : Obligations.AasqQueuesFrame := by
  intro s q hlen hsrc hfirst hlast hmid hroom
  have hexec := exec_eq (.aasq q) s
  rw [completionOf, aasq_eq_ok hlen hsrc (hdlcBad_readBlock_eq_none hfirst hlast hmid) hroom] at hexec
  refine ⟨_, hexec, rfl, fun r => mem_ports_setQueue q r _ _, ?_, fun r hr => ?_⟩
  · exact (queueOf_setQueue q q _ _).trans (if_pos rfl)
  · exact (queueOf_setQueue q r _ _).trans (if_neg hr)

/-! ## Command register and STATUS (R23 to R25, R278, R280) -/

/-- Settles O11: a write of CMD is `accept` in one phase and `overrun` in the other. -/
theorem commandAcceptance : Obligations.CommandAcceptance := by
  refine ⟨rfl, fun s w => ⟨fun hidle => ?_, fun hbusy => ?_⟩⟩
  · rw [State.csrWrite_cmd, State.issue_idle w hidle]
    refine ⟨rfl, rfl, ?_⟩
    rw [State.status_getLsbD]
    rfl
  · rw [State.csrWrite_cmd, State.issue_busy w hbusy]
    exact ⟨rfl, rfl⟩

theorem State.busy_eq (s : State) : s.busy = decide (s.phase = .busy) := by
  rw [State.busy, beq_eq_decide]

theorem State.evpend_eq (s : State) : s.evpend = decide (s.evq ≠ []) := by
  cases h : s.evq <;> simp [State.evpend, h]

/-- Settles O12: the bits of STATUS, one by one, from `State.status_getLsbD`. -/
theorem statusReadsFlags : Obligations.StatusReadsFlags := by
  intro s
  simp only [State.csrValue_status, State.status_getLsbD, ← State.busy_eq, ← State.evpend_eq]
  refine ⟨rfl, rfl, rfl, rfl, rfl, rfl, rfl, rfl, rfl, fun i hi => ?_⟩
  exact List.getD_eq_default _ _ hi

/-- Settles O13: bit by bit, `Flags.clear` is on the sticky bits what R25 says. -/
theorem statusWriteClears : Obligations.StatusWriteClears := by
  refine fun s v => ⟨fun i hi => ?_, fun i hi => ?_, rfl⟩ <;>
    rw [State.csrWrite_status, State.status_getLsbD, State.status_getLsbD] <;>
    simp only [List.mem_cons, List.not_mem_nil, or_false] at hi
  · rcases hi with rfl | rfl | rfl | rfl | rfl | rfl <;> rfl
  · rcases hi with rfl | rfl <;> rfl

/-! ## Events (R31, R279) -/

/-- Settles O14: the head of the queue, and EVPEND as bit 6 of STATUS. -/
theorem eventQueueRead : Obligations.EventQueueRead := by
  refine fun s => ⟨fun port rest h => ?_, fun h => ?_, ?_⟩
  · simp [State.evqHead, State.afterCsrRead, h]
  · refine ⟨by simp [State.evqHead, h], ?_⟩
    change { s with evq := s.evq.tail } = s
    rw [h, List.tail_nil, ← h]
  · rw [State.status_getLsbD]
    change s.evpend = true ↔ _
    rw [State.evpend_eq, decide_eq_true_eq]

/-- Settles O15: the two cases of `pushEvent`. -/
theorem eventEmission : Obligations.EventEmission := by
  refine fun c z port => ⟨fun h => ?_, fun h => ?_⟩
  · simp [FdsState.emit, pushEvent, h]
  · simp [FdsState.emit, pushEvent, Nat.not_lt.2 h]

/-! ## The other registers and the host's accesses to them (R21, R22, R26 to R36, R66, R90) -/

/-- A reserved offset reads 0. -/
theorem State.csrValue_reserved (s : State) {off : Nat} (h : 0x40 ≤ off) : s.csrValue off = 0 := by
  unfold State.csrValue
  split <;> try omega
  rfl

/-- A reserved offset ignores a write. -/
theorem State.csrWrite_reserved (s : State) (v : Word) {off : Nat} (h : 0x40 ≤ off) : s.csrWrite off v = s := by
  unfold State.csrWrite
  split <;> try omega
  rfl

/-- Settles O16, register by register. -/
theorem csrReadsAndWrites : Obligations.CsrReadsAndWrites := by
  intro s v
  refine ⟨rfl, rfl, rfl, rfl, rfl, rfl, rfl, rfl, rfl, rfl, fun i => ?_, fun i hi => ?_, ?_, fun i hi => ?_, rfl, rfl, rfl,
    ?_, s.ivstat_getLsbD, ?_, ?_, fun off h => ⟨s.csrWrite_reserved v h, s.csrValue_reserved h⟩,
    fun off h => if_neg h⟩
  · rw [State.csrWrite_irqen, State.csrValue_irqen, BitVec.getLsbD_setWidth, BitVec.getLsbD_setWidth]
    by_cases h : i < 4
    · simp [h, show i < 32 by omega]
    · simp [h]
  · simp [hi]
  · rw [State.csrValue_cause, BitVec.toNat_setWidth_of_le (by decide)]
  · simp [BitVec.getLsbD_setWidth, BitVec.getLsbD_of_ge s.csr.cause i hi]
  · rw [State.csrValue_lfsr, BitVec.toNat_setWidth_of_le (by decide)]
  · simp [State.l2frames, toWord]
  · simp only [List.mem_cons, List.not_mem_nil, or_false]
    rintro off (rfl | rfl | rfl | rfl | rfl | rfl | rfl | rfl) <;> rfl

@[simp] theorem State.afterCsrRead_host (s : State) (off : Nat) : (s.afterCsrRead off).host = s.host := by
  unfold State.afterCsrRead
  split <;> rfl

@[simp] theorem State.csrWrite_host (s : State) (off : Nat) (v : Word) : (s.csrWrite off v).host = s.host := by
  obtain ⟨-, -, -, -, -, -, -, hhost⟩ := s.csrWrite_frame off v
  exact hhost

/-- After a write the host has its new line number. -/
theorem State.csrWrite_hostNext (s : State) (off : Nat) (v : Word) : (s.csrWrite off v).hostNext =
    { s.csrWrite off v with host := { s.host with pc := s.host.pc + 1 } } := by
  simp only [State.hostNext, State.hostAt, State.csrWrite_host]

/-- After a read the host has its new line number and the value read. -/
theorem State.respond_hostAt (s : State) (off n : Nat) :
    ((s.afterCsrRead off).respond (s.csrValue off)).hostAt n = { s.afterCsrRead off with
      host := { s.host with pc := n, responses := s.csrValue off :: s.host.responses } } := by
  simp only [State.hostAt, State.respond, State.afterCsrRead_host]

theorem State.respond_hostNext (s : State) (off : Nat) :
    ((s.afterCsrRead off).respond (s.csrValue off)).hostNext = { s.afterCsrRead off with
      host := { s.host with pc := s.host.pc + 1, responses := s.csrValue off :: s.host.responses } } := by
  rw [State.hostNext, State.respond_hostAt, State.respond_host, State.afterCsrRead_host]

/-- A CSR access is well-formed as R66 says. -/
theorem csrAccessOk_iff (wd : Width) (off : BitVec 8) :
    csrAccessOk wd off = true ↔ wd = .word ∧ off.toNat % 4 = 0 := by
  simp [csrAccessOk]

theorem csrAccessOk_eq_false {wd : Width} {off : BitVec 8} (h : wd ≠ .word ∨ off.toNat % 4 ≠ 0) :
    csrAccessOk wd off = false := by
  rw [← Bool.not_eq_true, csrAccessOk_iff, not_and_or]
  exact h

/-- Settles O17: `csrAccessOk` picks the branch of each access. -/
theorem hostCsrAccess : Obligations.HostCsrAccess := by
  refine fun s wd off v hi lo n label => ⟨fun hoff => ?_, fun line hline => ?_⟩
  · have hok : csrAccessOk .word off = true := (csrAccessOk_iff _ _).2 ⟨rfl, hoff⟩
    refine ⟨?_, ?_⟩
    · rintro rfl
      simp only [hostLine, hostWr, hostRd, hok, if_true, State.csrWrite_hostNext, State.respond_hostNext, and_self]
    · simp only [hostLine, hostLoop, hok, if_true, wordField, State.respond_hostNext, State.respond_hostAt]
      split_ifs <;> rfl
  · change hostLine s line = .next s.markCsrAccess.hostNext
    rcases hline with ⟨hbad, rfl | rfl⟩ | ⟨hbad, rfl⟩
    · simp [hostLine, hostRd, csrAccessOk_eq_false hbad]
    · simp [hostLine, hostWr, csrAccessOk_eq_false hbad]
    · simp [hostLine, hostLoop, csrAccessOk_eq_false (wd := .word) (.inr hbad)]

/-! ## Reset (R43, R261, R300, R301) -/

/-- Settles O28: the reset record, with STATUS from `resetWith_status`. -/
theorem resetValues : Obligations.ResetValues :=
  ⟨rfl, rfl, resetWith_status _, rfl, (ivReset_facts _ _).1, fun _ hv => half_of_mem_ivReset hv, rfl, rfl, rfl, rfl⟩

/-- After SRST no interrupt is enabled (R301). -/
theorem srst_irq (s : State) : (s.finish (completionOf .srst s)).irq = false := by
  simp [State.irq, State.evpend, completionOf, Csr.reset, Flags.none]

/-- Settles O30: SRST completes with the state of `softReset`. -/
theorem srstResets : Obligations.SrstResets := by
  intro s
  obtain ⟨hlen, hiv⟩ := ivReset_facts s.cfg s.draws
  refine ⟨_, exec_eq .srst s, rfl, ?_, srst_irq s, hlen, fun k hk => ⟨(hiv k hk).2, (hiv k hk).1⟩⟩
  rw [State.status, srst_irq]
  change (BitVec.ofBoolListLE [false, true, false, false, false, false, false, false, false]).setWidth 32 = 2
  decide

end Sys2Proof.Machine
end

section
/-! PROOFS of the memory family (20_memory.md): BUFMEM along a step, the turns of the two agents, host accesses to
BUFMEM, and the checks of the bit-block commands on their ranges. -/

namespace Sys2Proof.Machine

/-! ## The memory invariant (R60, R61) -/

/-- The invariant speaks of CFG and BUFMEM alone. -/
theorem State.memOk.congr {s t : State} (h : s.memOk) (hcfg : t.cfg = s.cfg) (hmem : t.mem = s.mem) : t.memOk := by
  simpa only [State.memOk, hcfg, hmem] using h

/-- A block written to a legal range keeps the invariant. -/
theorem State.memOk.writeBlock {s t : State} {a n : Nat} {bs : List Byte} (h : s.memOk) (hcfg : t.cfg = s.cfg)
    (hmem : t.mem = s.mem.writeBlock a bs) (hlen : bs.length = n) (hfit : legal s.cfg a n) : t.memOk := by
  obtain ⟨hwf, hbelow⟩ := h
  subst hlen
  rw [State.memOk, hcfg, hmem]
  exact ⟨Memory.wf_writeBlock _ _ _ hwf, Memory.below_writeBlock _ _ _ _ hbelow hfit⟩

/-- A pass of the type I/II interleaver writes cells of a legal matrix only. -/
theorem ilvPass_memOk {s t : State} {k n m : Nat} {cellOf : Nat → Nat × Nat} (hs : s.memOk)
    (hcell : ∀ i, i < k → (cellOf i).1 < 512 ∧ (cellOf i).2 < 720) (h : ilvPass s k cellOf = .ok n m t) :
    t.memOk := by
  obtain ⟨⟨-, -, hdst, -⟩, -, -, rfl⟩ := ilvPass_ok h
  obtain ⟨hwf, hbelow⟩ := hs
  refine ⟨Memory.wf_writeAll _ _ hwf, Memory.below_writeAll _ _ _ hbelow (scatter_lt _ _ _ (fun i hi => ?_) hdst)⟩
  rw [Memory.length_readBlock] at hi
  exact hcell i hi

/-- An encoder writes its output block only, which it checked. -/
theorem convolve_memOk {s t : State} {o n m : Nat} {taps : Nat → List (BitVec 7)} (hs : s.memOk)
    (hlen : (encode7 s.cfg.convRegOrder taps (inputBits s)).length = o) (h : convolve s o taps = .ok n m t) :
    t.memOk := by
  obtain ⟨⟨-, hdst, -⟩, -, -, rfl⟩ := convolve_ok h
  exact hs.writeBlock rfl rfl ((List.length_map _).trans hlen) hdst

/-- A successful command leaves BUFMEM alone or writes, inside it, the range that it checked. -/
theorem completionOf_ok_memOk {i : Instr} {s t : State} {n m : Nat} (hc : s.cfg.valid = true) (hs : s.memOk)
    (h : completionOf i s = .ok n m t) : t.memOk := by
  obtain ⟨-, hilv, -⟩ := Cfg.valid_facts hc
  cases i with
  | nop | srst | audq p | psdset p | aasq q =>
    obtain ⟨hcfg, -, -, -, -, -, -, -, -, hmem, -⟩ := completionOf_ok_frame h
    exact hs.congr hcfg (hmem (by simp))
  | rev8 =>
    obtain ⟨⟨-, -, hdst, -⟩, -, -, rfl⟩ := rev8_ok h
    exact hs.writeBlock rfl rfl (by simp) hdst
  | scr =>
    obtain ⟨⟨-, hdst, -⟩, -, -, rfl⟩ := scr_ok h
    exact hs.writeBlock rfl rfl (by simp) hdst
  | conv25 =>
    obtain ⟨-, heven, h⟩ := conv25_ok h
    exact convolve_memOk hs (by rw [length_encode25 _ _ (by simpa using heven), length_inputBits]) h
  | conv12 =>
    obtain ⟨-, h⟩ := conv12_ok h
    exact convolve_memOk hs (by rw [length_encode12, length_inputBits]) h
  | ilvp1 => exact ilvPass_memOk hs (fun i _ => cell1_lt hilv i) h
  | ilvpids => exact ilvPass_memOk hs (fun i hi => cell2_lt hilv i hi) h
  | ilviv k =>
    obtain ⟨⟨-, -, -, hdst, -⟩, -, -, rfl⟩ := ilviv_ok h
    exact hs.writeBlock rfl rfl (by simp [IvState.give]) hdst
  | l1map =>
    obtain ⟨⟨-, hdst, -⟩, -, -, ht⟩ := l1map_ok h
    generalize hframe : l1Frame _ _ _ = frame at ht
    subst ht
    exact hs.writeBlock rfl rfl (by rw [← hframe, length_l1Frame]) hdst
  | rsenc =>
    obtain ⟨⟨hlen, hsrc⟩, -, -, ht⟩ := rsenc_ok h
    have hfit : legal s.cfg s.srcA 8 := by omega
    generalize hparity : rsParity _ _ = parity at ht
    subst ht
    exact hs.writeBlock rfl rfl (by rw [← hparity, length_rsParity]) hfit
  | l2frame =>
    obtain ⟨rs, -, hdst, -, -, rfl⟩ := l2frame_ok h
    exact hs.writeBlock rfl rfl ((List.length_map _).trans (length_headerSpread _ _)) hdst

@[simp] theorem State.afterCsrRead_mem (s : State) (off : Nat) : (s.afterCsrRead off).mem = s.mem := by
  unfold State.afterCsrRead
  split <;> rfl

/-- A host access leaves BUFMEM alone, or writes a legal range. -/
theorem hostLine_memOk {s t : State} {line : HostLine} (hs : s.memOk) (h : hostLine s line = .next t) : t.memOk := by
  rcases hostLine_cases h with rfl | rfl | ⟨off, n, rfl⟩ | ⟨off, v, rfl⟩ | ⟨v, rfl⟩ | ⟨a, v, wd, hlegal, rfl⟩
  · exact hs
  · exact hs
  · exact hs.congr (by simp) (by simp)
  · obtain ⟨hcfg, -, -, -, hmem, -⟩ := s.csrWrite_frame off v
    exact hs.congr hcfg hmem
  · exact hs
  · exact hs.writeBlock rfl rfl (length_bytesLE _ _) hlegal

/-- Settles O23: what a step writes to BUFMEM is a legal range, of a command that succeeds or of the host. -/
theorem memoryInvariant : Obligations.MemoryInvariant := by
  intro s t hc hs h
  rcases step_cases h with rfl | ⟨-, i, -, rfl⟩ | ⟨-, c, rfl⟩ | ⟨line, hl⟩
  · exact hs
  · cases hi : completionOf i s.taken with
    | error c info => exact hs
    | stall => exact hs
    | ok n m v => exact completionOf_ok_memOk (s := s.taken) (t := v) hc hs hi
  · exact hs
  · exact hostLine_memOk (s := s.taken) hs hl

/-! ## Turns (R69, R86, R307, R309) -/

theorem eq_taken_of_turnOf {g : Agent} {s u : State} (h : turnOf g s u) : u = s.taken := by
  rcases h with ⟨rest, hturns, rfl⟩ | ⟨hturns, rfl, -⟩
  · rw [State.taken, hturns, List.tail_cons]
  · exact (State.taken_of_nil hturns).symm

/-- In the turn of an IDLE block the step only takes the turn. -/
theorem step_of_turnOf_block_idle {s u : State} (hidle : s.phase = .idle) (h : turnOf .block s u) :
    step s = .next u := by
  rcases h with ⟨rest, hturns, rfl⟩ | ⟨-, -, hbusy⟩
  · simp only [step, hturns, blockTurn, hidle]
  · rw [hidle] at hbusy
    cases hbusy.1 rfl

/-- In the host's turn the step is the host's move; `u` is the state with the turn taken. -/
theorem step_of_turnOf_host {s u : State} (h : turnOf .host s u) : step s = hostTurn u := by
  rcases h with ⟨rest, hturns, rfl⟩ | ⟨hturns, rfl, hphase⟩
  · simp only [step, hturns]
  · cases hp : u.phase with
    | idle => simp only [step, hturns, hp]
    | busy => cases hphase.2 hp

/-- In the host's turn the step is the line the host is at. -/
theorem step_of_turnOf_host_line {s u : State} {line : HostLine} (h : turnOf .host s u)
    (hline : s.host.program[s.host.pc]? = some line) : step s = hostLine u line := by
  obtain rfl := eq_taken_of_turnOf h
  rw [step_of_turnOf_host h]
  simp only [hostTurn, State.taken, hline]

/-- Settles O7: the move of the agent whose turn it is. -/
theorem stepRunsDecodedCommand : Obligations.StepRunsDecodedCommand := by
  refine fun s u => ⟨fun hturn hbusy i hi => ?_, fun hturn hidle => step_of_turnOf_block_idle hidle hturn,
    fun hturn => ⟨fun line hline => step_of_turnOf_host_line hturn hline, fun hend => ?_⟩⟩
  · obtain ⟨hstep, hbu⟩ := step_of_turnOf_block hbusy hturn
    obtain rfl := eq_taken_of_turnOf hturn
    simp only [hstep, blockTurn, hbu, State.taken_lat, hi]
  · obtain rfl := eq_taken_of_turnOf hturn
    rw [step_of_turnOf_host hturn]
    simp only [hostTurn, State.taken, List.getElem?_eq_none hend]

/-! ## Host accesses to BUFMEM (R60, R65, R76, R78) -/

theorem firstMissing_eq_max (c : Cfg) (a : Nat) : firstMissing c a = max a c.bufBytes := by
  unfold firstMissing
  split <;> omega

section
variable {s : State} {wd : Width} {a v : Word} {line : HostLine}

/-- A host access beyond BUFMEM stops the model (R60). -/
theorem hostLine_beyond (hline : line = .mr wd a ∨ line = .mw wd a v) (h : ¬legal s.cfg a.toNat wd.bytes) :
    hostLine s line = .fault (.bufAddress (max a.toNat s.cfg.bufBytes)) := by
  rcases hline with rfl | rfl
  · rw [hostLine, hostMr, if_pos h, firstMissing_eq_max]
  · rw [hostLine, hostMw, if_pos h, firstMissing_eq_max]

/-- A hazardous host access leaves its mark only (R76). -/
theorem hostLine_hazard (hline : line = .mr wd a ∨ line = .mw wd a v) (h : legal s.cfg a.toNat wd.bytes)
    (hhaz : s.hazard a.toNat wd.bytes) : hostLine s line = .next s.markHazard.hostNext := by
  rcases hline with rfl | rfl
  · rw [hostLine, hostMr, if_neg (not_not.2 h), if_pos hhaz]
  · rw [hostLine, hostMw, if_neg (not_not.2 h), if_pos hhaz]

/-- A host read of BUFMEM (R65). -/
theorem hostLine_mr (h : legal s.cfg a.toNat wd.bytes) (hhaz : ¬s.hazard a.toNat wd.bytes) :
    hostLine s (.mr wd a) = .next (s.respond (toWord (s.mem.readLE a.toNat wd.bytes))).hostNext := by
  rw [hostLine, hostMr, if_neg (not_not.2 h), if_neg hhaz]

/-- A host write of BUFMEM (R65). -/
theorem hostLine_mw (h : legal s.cfg a.toNat wd.bytes) (hhaz : ¬s.hazard a.toNat wd.bytes) :
    hostLine s (.mw wd a v) =
      .next { s with mem := s.mem.writeBlock a.toNat (bytesLE v.toNat wd.bytes) }.hostNext := by
  rw [hostLine, hostMw, if_neg (not_not.2 h), if_neg hhaz]

end

/-- The ranges of ILVIV k for k below NIV (R78). -/
theorem inUseRanges_ilviv {s : State} {k : Nat} (hk : k < s.cfg.niv) :
    inUseRanges s (.ilviv k) = [(s.srcA, (s.cfg.ivAt k).n / 2), (s.dstA, (s.cfg.ivAt k).n / 2)] :=
  if_neg (Nat.not_le.2 hk)

/-- Settles O18: the table of R78 from the definition of the ranges, and the two first checks of a host access. -/
theorem hostHazard : Obligations.HostHazard := by
  refine ⟨fun s => ⟨?_, ?_, rfl, rfl, rfl, rfl, fun k hk => inUseRanges_ilviv hk, fun k hk => if_pos hk, rfl, rfl,
    fun p => rfl, fun q => rfl, fun p => rfl, rfl⟩, fun s u wd a v line hturn hat hline => ?_⟩
  · simp [inUseRanges]
  · simp [inUseRanges]
  · rw [step_of_turnOf_host_line hturn hat]
    obtain rfl := eq_taken_of_turnOf hturn
    refine ⟨fun hbeyond => ?_, fun hlegal hbusy huse => ?_⟩
    · exact hostLine_beyond (s := s.taken) hline (Nat.not_le.2 hbeyond)
    · exact hostLine_hazard (s := s.taken) hline hlegal
        ((State.hazard_iff s.taken _ _ wd.bytes_pos).2 ⟨hbusy, huse⟩)

/-- What a host read returns after a host write of the same place: the low bytes of the value (R65). -/
theorem Memory.readLE_writeBlock_bytesLE (m : Memory) (a v n : Nat) :
    (m.writeBlock a (bytesLE v n)).readLE a n = v % 2 ^ (8 * n) := by
  have hblock := m.readBlock_writeBlock a (bytesLE v n)
  rw [length_bytesLE] at hblock
  rw [Memory.readLE, hblock, foldr_bytesLE, Nat.pow_mul]

/-- Byte `i` of a value, as bits. -/
theorem ofNat_div_eq_extractLsb' (v : Word) (i : Nat) : BitVec.ofNat 8 (v.toNat / 256 ^ i) = v.extractLsb' (8 * i) 8 := by
  apply BitVec.eq_of_toNat_eq
  rw [BitVec.toNat_ofNat, BitVec.extractLsb'_toNat, Nat.shiftRight_eq_div_pow, Nat.pow_mul]

/-- Settles O19: outside the in-use ranges there is no hazard, before the write and after it. -/
theorem hostMemoryLittleEndian : Obligations.HostMemoryLittleEndian := by
  refine ⟨⟨rfl, rfl, rfl⟩, fun s wd a hlegal hfree => ?_⟩
  have hhaz : ¬s.hazard a.toNat wd.bytes := by
    rw [State.hazard_iff s _ _ wd.bytes_pos]
    rintro ⟨hbusy, i, r, x, hi, hr, hax, hxa, hrx, hxr⟩
    exact hfree hbusy i hi r hr x hax hxa ⟨hrx, hxr⟩
  refine ⟨?_, fun v => ⟨_, hostLine_mw hlegal hhaz, rfl, fun i hi => ?_, fun x hx => ?_, ?_⟩⟩
  · rw [hostLine_mr hlegal hhaz, Memory.readLE_eq_sum]
    rfl
  · rw [State.hostNext_mem, Memory.read_writeBlock_inside _ _ _ _ 0 (by simpa using hi), getD_bytesLE _ _ _ _ hi,
      ofNat_div_eq_extractLsb']
  · rw [State.hostNext_mem, Memory.read_writeBlock_outside _ _ _ _ (by simpa using hx)]
  · rw [← Memory.readLE_writeBlock_bytesLE s.mem a.toNat]
    exact hostLine_mr (s := State.hostNext _) hlegal hhaz

/-! ## The checks of the bit-block commands (R61, R63, R100, R101, R104, R110 to R112, R273) -/

/-- Two ranges overlap iff they share a byte; the higher of the two starts is one (R100). -/
theorem overlap_iff_exists (a n b m : Nat) : overlap a n b m ↔ ∃ x, a ≤ x ∧ x < a + n ∧ b ≤ x ∧ x < b + m := by
  constructor
  · rintro ⟨hn, hm, hab, hba⟩
    exact ⟨max a b, by omega⟩
  · rintro ⟨x, hax, hxa, hbx, hxb⟩
    exact ⟨by omega, by omega, by omega, by omega⟩

/-- A bit cell holds 0 or 1 (R63). -/
theorem isBit_iff (b : Byte) : isBit b = true ↔ b = bitCell false ∨ b = bitCell true := by
  simp [isBit]

/-- A command whose completion is an error leaves the error state (R272). -/
theorem exec_of_error {i : Instr} {s : State} {c : Cause} {info : Word} (h : completionOf i s = .error c info) :
    exec i s = .next (errorState s c info) := by
  rw [exec_eq, h]
  rfl

section
variable {s : State}

/-! The checks of REV8 in order (R101). -/

theorem rev8_badLen (h : s.lenN % 8 ≠ 0) : rev8 s = .error .badLen s.lat.len := if_pos h

theorem rev8_badSrc (hlen : s.lenN % 8 = 0) (h : ¬legal s.cfg s.srcA s.lenN) :
    rev8 s = .error .addrRange s.lat.src := by
  rw [rev8, if_neg (not_not.2 hlen), if_pos h]

theorem rev8_badDst (hlen : s.lenN % 8 = 0) (hsrc : legal s.cfg s.srcA s.lenN) (h : ¬legal s.cfg s.dstA s.lenN) :
    rev8 s = .error .addrRange s.lat.dst := by
  rw [rev8, if_neg (not_not.2 hlen), if_neg (not_not.2 hsrc), if_pos h]

theorem rev8_overlap (hlen : s.lenN % 8 = 0) (hsrc : legal s.cfg s.srcA s.lenN) (hdst : legal s.cfg s.dstA s.lenN)
    (hne : s.lat.dst ≠ s.lat.src) (h : overlap s.srcA s.lenN s.dstA s.lenN) :
    rev8 s = .error .overlap s.lat.dst := by
  rw [rev8, if_neg (not_not.2 hlen), if_neg (not_not.2 hsrc), if_neg (not_not.2 hdst), if_pos ⟨hne, h⟩]

/-! The checks of SCR in order (R104). -/

theorem scr_badSrc (h : ¬legal s.cfg s.srcA s.lenN) : scr s = .error .addrRange s.lat.src := if_pos h

theorem scr_badDst (hsrc : legal s.cfg s.srcA s.lenN) (h : ¬legal s.cfg s.dstA s.lenN) :
    scr s = .error .addrRange s.lat.dst := by
  rw [scr, if_neg (not_not.2 hsrc), if_pos h]

theorem scr_overlap (hsrc : legal s.cfg s.srcA s.lenN) (hdst : legal s.cfg s.dstA s.lenN)
    (hne : s.lat.dst ≠ s.lat.src) (h : overlap s.srcA s.lenN s.dstA s.lenN) : scr s = .error .overlap s.lat.dst := by
  rw [scr, if_neg (not_not.2 hsrc), if_neg (not_not.2 hdst), if_pos ⟨hne, h⟩]

/-! The checks of the encoders in order, after the length (R110). -/

variable {n : Nat} {taps : Nat → List (BitVec 7)}

theorem convolve_badSrc (h : ¬legal s.cfg s.srcA s.lenN) : convolve s n taps = .error .addrRange s.lat.src := if_pos h

theorem convolve_badDst (hsrc : legal s.cfg s.srcA s.lenN) (h : ¬legal s.cfg s.dstA n) :
    convolve s n taps = .error .addrRange s.lat.dst := by
  rw [convolve, if_neg (not_not.2 hsrc), if_pos h]

theorem convolve_overlap (hsrc : legal s.cfg s.srcA s.lenN) (hdst : legal s.cfg s.dstA n)
    (h : overlap s.srcA s.lenN s.dstA n) : convolve s n taps = .error .overlap s.lat.dst := by
  rw [convolve, if_neg (not_not.2 hsrc), if_neg (not_not.2 hdst), if_pos h]

/-- The lowest cell that is no bit is the one reported. -/
theorem convolve_badBit (hsrc : legal s.cfg s.srcA s.lenN) (hdst : legal s.cfg s.dstA n)
    (hdisj : ¬overlap s.srcA s.lenN s.dstA n) {k : Nat} (hk : k < s.lenN)
    (hbad : isBit (s.mem.read (s.srcA + k)) = false)
    (hlow : ∀ j, j < k → isBit (s.mem.read (s.srcA + j)) = true) :
    convolve s n taps = .error .badBit (toWord (s.srcA + k)) := by
  have hfirst : firstNonBit (s.mem.readBlock s.srcA s.lenN) = some k := by
    refine firstNonBit_eq_some _ _ (by simpa using hk) ?_ fun j hj => ?_
    · rw [Memory.getD_readBlock _ _ _ _ _ hk, hbad]
    · rw [Memory.getD_readBlock _ _ _ _ _ (hj.trans hk), hlow j hj]
  rw [convolve, if_neg (not_not.2 hsrc), if_neg (not_not.2 hdst), if_neg hdisj, hfirst]

/-- Past its length check an encoder command is `convolve` with its output length (R111, R112). -/
theorem completionOf_encoder {i : Instr} (hi : (i = .conv25 ∧ s.lenN % 2 = 0 ∧ n = 5 * s.lenN / 2) ∨
    (i = .conv12 ∧ n = 2 * s.lenN)) (hlen : 6 ≤ s.lenN) : ∃ taps, completionOf i s = convolve s n taps := by
  rcases hi with ⟨rfl, heven, rfl⟩ | ⟨rfl, rfl⟩
  · exact ⟨taps25, if_neg (by omega)⟩
  · exact ⟨taps12, if_neg (by omega)⟩

end

/-- Settles O35: each check, with the ones before it passing, is the error that the command completes with. -/
theorem bitBlockErrors : Obligations.BitBlockErrors := by
  refine ⟨fun _ _ _ => Iff.rfl, overlap_iff_exists, isBit_iff, rfl, rfl, fun s => ⟨?_, ?_, ?_, ?_, ?_, ?_, ?_, ?_, ?_,
    fun i outLen hi hlen => ?_⟩⟩
  · exact fun h => exec_of_error (rev8_badLen h)
  · exact fun hlen h => exec_of_error (rev8_badSrc hlen h)
  · exact fun hlen hsrc h => exec_of_error (rev8_badDst hlen hsrc h)
  · exact fun hlen hsrc hdst hne h => exec_of_error (rev8_overlap hlen hsrc hdst hne h)
  · exact fun h => exec_of_error (scr_badSrc h)
  · exact fun hsrc h => exec_of_error (scr_badDst hsrc h)
  · exact fun hsrc hdst hne h => exec_of_error (scr_overlap hsrc hdst hne h)
  · exact fun h => exec_of_error (if_pos h)
  · exact fun h => exec_of_error (if_pos h)
  · obtain ⟨taps, heq⟩ := completionOf_encoder hi hlen
    refine ⟨fun h => ?_, fun hsrc h => ?_, fun hsrc hdst h => ?_, fun hsrc hdst hdisj k hk hbad hlow => ?_⟩
    · exact exec_of_error (heq.trans (convolve_badSrc h))
    · exact exec_of_error (heq.trans (convolve_badDst hsrc h))
    · exact exec_of_error (heq.trans (convolve_overlap hsrc hdst h))
    · exact exec_of_error (heq.trans (convolve_badBit hsrc hdst hdisj hk hbad hlow))

end Sys2Proof.Machine
end

section
/-! PROOFS of the encoding family (30_encoding.md): which words a row of the opcode map selects, what a word decodes
to, and how the step that completes an accepted word follows from it. -/

namespace Sys2Proof.Machine

/-! ## The rows of the opcode map (R81, R82, R85) -/

/-- A row fixes OPC, and SEL too unless its mask leaves SEL free. -/
theorem opcodeTable_mask_pattern : ∀ r ∈ opcodeTable,
    (r.mask = 0x00000FFF ∧ r.pattern.toNat < 4096) ∨ (r.mask = 0x000000FF ∧ r.pattern.toNat < 256) := by
  decide

/-- A row selects a word iff the word has the row's OPC, and the row's SEL unless the row leaves SEL free. -/
theorem selects_iff_fields {r : OpRow} (hr : r ∈ opcodeTable) (w : Word) : r.selects w = true ↔
    opcField w = r.pattern.toNat % 256 ∧ (r.mask = 0x000000FF ∨ selField w = r.pattern.toNat / 256) := by
  rw [opcField_eq, selField_eq]
  rcases opcodeTable_mask_pattern r hr with ⟨hmask, hpat⟩ | ⟨hmask, hpat⟩
  · have hfixed : (0x00000FFF : Word) ≠ 0x000000FF := by decide
    rw [OpRow.selects, hmask, and_mask12_eq, decide_eq_true_eq, or_iff_right hfixed]
    omega
  · rw [OpRow.selects, hmask, and_mask8_eq, decide_eq_true_eq, and_iff_left (.inl rfl)]
    omega

/-- At most one row selects a word. -/
theorem eq_of_selects {r q : OpRow} {w : Word} (hr : r ∈ opcodeTable) (hq : q ∈ opcodeTable)
    (hrw : r.selects w = true) (hqw : q.selects w = true) : r = q :=
  Option.some.inj ((opcodeTable_find w r hr hrw).symm.trans (opcodeTable_find w q hq hqw))

/-- Settles O3: two rows that select one word are one row, and the rows of the map have different patterns. -/
theorem opcodeRowsDisjoint : Obligations.OpcodeRowsDisjoint := by
  have hpatterns : opcodeTable.Pairwise fun r q => r.pattern ≠ q.pattern := by decide
  exact hpatterns.imp_of_mem fun hr hq hne _ ⟨hrw, hqw⟩ => hne (congrArg _ (eq_of_selects hr hq hrw hqw))

/-! ## Decoding, check by check (R86) -/

theorem decode_eq_illegalCmd_iff (w : Word) :
    decode w = .illegalCmd ↔ ∀ r ∈ opcodeTable, r.selects w = false := by
  constructor
  · intro h
    cases hfind : opcodeTable.find? (fun r => r.selects w) with
    | none => simpa using hfind
    | some r =>
      simp only [decode, hfind] at h
      split_ifs at h
  · intro h
    have hfind : opcodeTable.find? (fun r => r.selects w) = none := by simpa using h
    simp only [decode, hfind]

section
variable {w : Word} {r : OpRow} (hr : r ∈ opcodeTable) (hsel : r.selects w = true)
include hr hsel

theorem decode_of_rsv_ne (hrsv : rsvField w ≠ 0) : decode w = .rsvdNonzero := by
  simp only [decode, opcodeTable_find w r hr hsel, if_pos hrsv]

theorem decode_of_imm_ne (hrsv : rsvField w = 0) (huse : r.usesImm = false) (himm : immField w ≠ 0) :
    decode w = .rsvdNonzero := by
  have hunused : (!r.usesImm && immField w != 0) = true := by simpa [huse] using himm
  simp only [decode, opcodeTable_find w r hr hsel, hrsv, ne_eq, not_true, if_false, hunused, if_true]

end

/-- A word is a command only where a row selects it, RSV is 0, and IMM is 0 unless the row has one. -/
theorem row_of_decode {w : Word} {i : Instr} (h : decode w = .cmd i) :
    ∃ r ∈ opcodeTable, r.selects w = true ∧ rsvField w = 0 ∧ (r.usesImm = true ∨ immField w = 0) ∧
      i = r.build (selField w) (immField w) := by
  obtain ⟨r, hr, hsel⟩ : ∃ r ∈ opcodeTable, r.selects w = true := by
    by_contra hnone
    have hillegal := (decode_eq_illegalCmd_iff w).2 fun r hr => by simpa using fun hsel => hnone ⟨r, hr, hsel⟩
    rw [hillegal] at h
    cases h
  have hrsv : rsvField w = 0 := by
    by_contra hne
    rw [decode_of_rsv_ne hr hsel hne] at h
    cases h
  have himm : r.usesImm = true ∨ immField w = 0 := by
    by_contra hne
    obtain ⟨huse, hne⟩ := not_or.1 hne
    rw [decode_of_imm_ne hr hsel hrsv (by simpa using huse) hne] at h
    cases h
  rw [decode_of_row hr hsel hrsv himm] at h
  exact ⟨r, hr, hsel, hrsv, himm, (Decoded.cmd.inj h).symm⟩

/-! ## Words and commands (R80, R85) -/

/-- Settles O1: `decode_encode`. -/
theorem encodeThenDecode : Obligations.EncodeThenDecode := fun _ => decode_encode

/-- The command of a row, with SEL in its range, is well-formed: row by row. -/
theorem wellFormed_build {r : OpRow} (hr : r ∈ opcodeTable) {sel : Nat} (hsel : sel < 16) (imm : BitVec 16) :
    (r.build sel imm).wellFormed = true := by
  have himm : imm.toNat < 65536 := imm.isLt
  revert r
  simp [opcodeTable, Instr.wellFormed, hsel, himm]

/-- The word of a row's command: the row's OPC, its SEL unless it leaves SEL free, and IMM where it has one; row by
row. -/
theorem encode_build {r : OpRow} (hr : r ∈ opcodeTable) (sel : Nat) (imm : BitVec 16) :
    encode (r.build sel imm) = packWord (r.pattern.toNat % 256)
      (if r.mask = 0x000000FF then sel else r.pattern.toNat / 256) (if r.usesImm then imm.toNat else 0) := by
  revert r
  simp [opcodeTable, encode]

/-- A word with RSV = 0 is the packing of its other fields. -/
theorem packWord_fields_of_rsv {w : Word} (h : rsvField w = 0) :
    packWord (opcField w) (selField w) (immField w).toNat = w := by
  have hrsv : w.toNat / 4096 % 16 = 0 := by rw [← rsvField_toNat, h]; rfl
  have hlt : w.toNat < 2 ^ 32 := w.isLt
  apply word_eq_of_toNat
  rw [packWord_toNat, opcField_eq, selField_eq, immField_toNat]
  omega

/-- Settles O2: the row that selects the word fixes OPC and SEL, so packing the word's fields gives the row's word. -/
theorem decodeThenEncode : Obligations.DecodeThenEncode := by
  intro w i h
  obtain ⟨r, hr, hsel, hrsv, himm, rfl⟩ := row_of_decode h
  obtain ⟨hopc, hselField⟩ := (selects_iff_fields hr w).1 hsel
  have hlt : selField w < 16 := by rw [selField_eq]; omega
  refine ⟨wellFormed_build hr hlt _, ?_⟩
  have hselWord : (if r.mask = 0x000000FF then selField w else r.pattern.toNat / 256) = selField w := by
    split_ifs with hmask
    · rfl
    · exact (hselField.resolve_left hmask).symm
  have himmWord : (if r.usesImm then (immField w).toNat else 0) = (immField w).toNat := by
    split_ifs with huse
    · rfl
    · rw [himm.resolve_left huse]; rfl
  rw [encode_build hr, hselWord, himmWord, ← hopc, packWord_fields_of_rsv hrsv]

/-- Settles O4: each word by its own decoding. -/
theorem specWordsDecode : Obligations.SpecWordsDecode := by
  unfold Obligations.SpecWordsDecode
  decide

/-! ## Illegal words (R87) -/

/-- A word is illegal if no row with its OPC takes its SEL. -/
theorem decode_illegalCmd_of_fields {w : Word} (h : ∀ r ∈ opcodeTable, opcField w = r.pattern.toNat % 256 →
    r.mask ≠ 0x000000FF ∧ selField w ≠ r.pattern.toNat / 256) : decode w = .illegalCmd := by
  refine (decode_eq_illegalCmd_iff w).2 fun r hr => Bool.eq_false_iff.2 fun hsel => ?_
  obtain ⟨hopc, hmask | hselField⟩ := (selects_iff_fields hr w).1 hsel
  · exact (h r hr hopc).1 hmask
  · exact (h r hr hopc).2 hselField

/-- Which SEL the rows take (R82, R85): 0 and 1 with OPC 0x12 and 0x20, all with 0x21, 0 with the others. -/
theorem opcodeTable_sel : ∀ r ∈ opcodeTable,
    ((r.pattern.toNat % 256 = 0x12 ∨ r.pattern.toNat % 256 = 0x20) → r.mask ≠ 0x000000FF ∧ r.pattern.toNat / 256 < 2) ∧
    (r.pattern.toNat % 256 ≠ 0x12 → r.pattern.toNat % 256 ≠ 0x20 → r.pattern.toNat % 256 ≠ 0x21 →
      r.mask ≠ 0x000000FF ∧ r.pattern.toNat / 256 = 0) := by
  decide

/-- Settles O5: the OPC and SEL columns of the map, read against the fields of the word. -/
theorem illegalWords : Obligations.IllegalWords := by
  refine fun w => ⟨fun hopc => ?_, fun hopc hsel => ?_, fun h12 h20 h21 hsel => ?_, fun hopc hillegal => ?_⟩
  · have hmap : ∀ r ∈ opcodeTable, r.pattern.toNat % 256 ∈
        [0x00, 0x01, 0x10, 0x11, 0x12, 0x20, 0x21, 0x30, 0x40, 0x50, 0x51, 0x52, 0x53] := by decide
    exact decode_illegalCmd_of_fields fun r hr heq => absurd (heq ▸ hmap r hr) hopc
  · refine decode_illegalCmd_of_fields fun r hr heq => ?_
    obtain ⟨hmask, hlt⟩ := (opcodeTable_sel r hr).1 (heq ▸ hopc)
    exact ⟨hmask, (hlt.trans_le hsel).ne'⟩
  · refine decode_illegalCmd_of_fields fun r hr heq => ?_
    obtain ⟨hmask, hzero⟩ := (opcodeTable_sel r hr).2 (heq ▸ h12) (heq ▸ h20) (heq ▸ h21)
    exact ⟨hmask, hzero ▸ hsel⟩
  · have hrow : ∃ r ∈ opcodeTable, r.pattern.toNat % 256 = 0x21 ∧ r.mask = 0x000000FF := by decide
    obtain ⟨r, hr, hpat, hmask⟩ := hrow
    have hselects := (selects_iff_fields hr w).2 ⟨hopc.trans hpat.symm, .inl hmask⟩
    rw [(decode_eq_illegalCmd_iff w).1 hillegal r hr] at hselects
    cases hselects

/-! ## The step that completes an accepted word (R83, R86, R87, R272) -/

/-- In the turn of a BUSY block whose word is no command, the step is the completion with the decoder's cause, and the
word is its INFO. -/
theorem step_of_decode_error {s u : State} {c : Cause} (hbusy : s.phase = .busy) (hturn : turnOf .block s u)
    (h : (decode s.lat.w = .illegalCmd ∧ c = .illegalCmd) ∨ (decode s.lat.w = .rsvdNonzero ∧ c = .rsvdNonzero)) :
    step s = .next (errorState u c s.lat.w) := by
  obtain ⟨hstep, hbu⟩ := step_of_turnOf_block hbusy hturn
  obtain rfl := eq_taken_of_turnOf hturn
  rw [hstep]
  rcases h with ⟨hdec, rfl⟩ | ⟨hdec, rfl⟩ <;> simp only [blockTurn, hbu, State.taken_lat, hdec] <;> rfl

/-- Settles O6: the step of a BUSY block for each answer of the decoder. -/
theorem acceptedWordDecodesInOrder : Obligations.AcceptedWordDecodesInOrder := by
  refine fun s u hbusy hturn => ⟨fun hnone => ?_, fun r hr hsel => ⟨fun hrsv => ?_, fun hrsv huse himm => ?_,
    fun hrsv himm => ?_⟩⟩
  · exact step_of_decode_error hbusy hturn (.inl ⟨(decode_eq_illegalCmd_iff _).2 hnone, rfl⟩)
  · exact step_of_decode_error hbusy hturn (.inr ⟨decode_of_rsv_ne hr hsel hrsv, rfl⟩)
  · exact step_of_decode_error hbusy hturn (.inr ⟨decode_of_imm_ne hr hsel hrsv huse himm, rfl⟩)
  · exact (stepRunsDecodedCommand s u).1 hturn hbusy _ (decode_of_row hr hsel hrsv himm)

end Sys2Proof.Machine
end

section
/-! PROOFS of the scrambler and encoder family (40_scrambler_convenc.md): the effects of REV8 and SCR, the sequence of
the scrambler register, and the register and the linearity of the encoder. -/

namespace Sys2Proof.Machine

/-! ## The effects of REV8 and SCR (R101, R104, R105) -/

section
variable {s : State}

/-- Ranges of one length that are equal or disjoint pass the overlap check. -/
theorem overlap_check_passes (h : s.lat.dst = s.lat.src ∨ ¬overlap s.srcA s.lenN s.dstA s.lenN) :
    ¬(s.lat.dst ≠ s.lat.src ∧ overlap s.srcA s.lenN s.dstA s.lenN) :=
  fun ⟨hne, hov⟩ => h.elim hne fun hdisj => hdisj hov

variable (hsrc : legal s.cfg s.srcA s.lenN) (hdst : legal s.cfg s.dstA s.lenN)
  (hplace : s.lat.dst = s.lat.src ∨ ¬overlap s.srcA s.lenN s.dstA s.lenN)
include hsrc hdst hplace

/-- REV8 whose checks pass writes the reversed block of the cells as they stood. -/
theorem rev8_eq_ok (hlen : s.lenN % 8 = 0) : rev8 s = .ok s.lenN s.lenN
    { s with mem := s.mem.writeBlock s.dstA (rev8Block (s.mem.readBlock s.srcA s.lenN)) } := by
  rw [rev8, if_neg (not_not.2 hlen), if_neg (not_not.2 hsrc), if_neg (not_not.2 hdst),
    if_neg (overlap_check_passes hplace)]

/-- SCR whose checks pass writes the scrambled block of the cells as they stood, and the register after it. -/
theorem scr_eq_ok : scr s = .ok s.lenN s.lenN { s with
    mem := s.mem.writeBlock s.dstA (scramble lfsrSeed (s.mem.readBlock s.srcA s.lenN))
    csr := { s.csr with lfsr := lfsrAfter s.lenN lfsrSeed } } := by
  rw [scr, if_neg (not_not.2 hsrc), if_neg (not_not.2 hdst), if_neg (overlap_check_passes hplace)]

end

/-- Settles O31: each cell of the written block, from `getD_rev8Block`. -/
theorem rev8ReversesGroups : Obligations.Rev8ReversesGroups := by
  intro s hlen hsrc hdst hplace
  have hexec := exec_eq .rev8 s
  rw [completionOf, rev8_eq_ok hsrc hdst hplace hlen] at hexec
  refine ⟨_, hexec, rfl, fun g j hg hj => ?_, fun a ha => ?_⟩
  · have hin : 8 * g + j < s.lenN := by omega
    have hmirror : 8 * ((8 * g + j) / 8) + (7 - (8 * g + j) % 8) = 8 * g + (7 - j) := by omega
    rw [State.finish_ok, State.completeOk_mem, Memory.read_writeBlock_inside _ _ _ _ 0 (by simpa using hin),
      getD_rev8Block _ _ (by simpa using hin), hmirror, Memory.getD_readBlock _ _ _ _ _ (by omega)]
  · exact Memory.read_writeBlock_outside _ _ _ _ (by simpa using ha)

theorem bitCell_eq_ite (b : Bool) : bitCell b = if b then 1 else 0 := by cases b <;> rfl

/-- Settles O32: each cell of the written block, from `getD_scramble`. -/
theorem scrScrambles : Obligations.ScrScrambles := by
  intro s hsrc hdst hplace
  have hexec := exec_eq .scr s
  rw [completionOf, scr_eq_ok hsrc hdst hplace] at hexec
  refine ⟨_, hexec, rfl, fun i hi => ?_, fun a ha => ?_⟩
  · rw [State.finish_ok, State.completeOk_mem, Memory.read_writeBlock_inside _ _ _ _ 0 (by simpa using hi),
      getD_scramble _ _ _ (by simpa using hi), Memory.getD_readBlock _ _ _ _ _ hi, bitCell_eq_ite]
    rfl
  · exact Memory.read_writeBlock_outside _ _ _ _ (by simpa using ha)

/-- Settles O37: both runs XOR cell `i` with the same bit of the sequence, which cancels. -/
theorem scrTwiceRestores : Obligations.ScrTwiceRestores := by
  intro s t u hsrc hdst hplace hexec hmem hcfg husrc hulen hudst huplace
  obtain ⟨t', hexec', hstate, ht, -⟩ := scrScrambles s hsrc hdst hplace
  obtain rfl : t' = t := by simpa [hexec'] using hexec
  have hlen : u.lenN = s.lenN := congrArg BitVec.toNat hulen
  have hsrcA : u.srcA = s.dstA := congrArg BitVec.toNat husrc
  have htcfg : t'.cfg = s.cfg := by rw [hstate]
  have husrcLegal : legal u.cfg u.srcA u.lenN := by rw [hcfg, htcfg, hsrcA, hlen]; exact hdst
  obtain ⟨v, hexecv, -, hv, -⟩ := scrScrambles u husrcLegal hudst huplace
  refine ⟨v, hexecv, fun i hi => ?_⟩
  rw [hv i (hlen ▸ hi), hmem, hsrcA, ht i hi, BitVec.xor_assoc, BitVec.xor_self, BitVec.xor_zero]

/-! ## The scrambler sequence (R102, R103) -/

/-- The bits above bit 0 are the next values of bit 0. -/
theorem getLsbD_lfsrAfter_zero (r : BitVec 11) {k : Nat} (hk : k ≤ 10) : (lfsrAfter k r).getLsbD 0 = r.getLsbD k := by
  induction k generalizing r with
  | zero => rfl
  | succ k ih => rw [lfsrAfter, ih _ (by omega), getLsbD_lfsrNext, if_neg (by omega)]

/-- A bit that enters at bit 10 stands at bit 0 ten steps later. -/
theorem lfsrBit_eq_getLsbD (r : BitVec 11) : lfsrBit r = (lfsrAfter 11 r).getLsbD 0 := by
  rw [lfsrAfter, getLsbD_lfsrAfter_zero _ le_rfl, getLsbD_lfsrNext, if_pos rfl]

/-- The recurrence of bit 0, from any register. -/
theorem getLsbD_lfsrAfter_eleven (r : BitVec 11) :
    (lfsrAfter 11 r).getLsbD 0 = ((lfsrAfter 9 r).getLsbD 0 ^^ r.getLsbD 0) := by
  rw [← lfsrBit_eq_getLsbD, lfsrBit, getLsbD_lfsrAfter_zero r (by omega)]

theorem lfsrAfter_eq_iterate (n : Nat) (r : BitVec 11) : lfsrAfter n r = lfsrNext^[n] r := by
  induction n generalizing r with
  | zero => rfl
  | succ n ih => exact ih _

theorem lfsrAfter_period : lfsrAfter 2047 0x3FF = 0x3FF := by decide +kernel

/-- A shorter return would make the common divisor of its length with 2047 = 23 · 89 a period, and neither 1, 23 nor 89
steps lead back to the seed. -/
theorem lfsrAfter_ne_seed {n : Nat} (hpos : 0 < n) (hlt : n < 2047) : lfsrAfter n 0x3FF ≠ 0x3FF := by
  intro hreturn
  have hperiodic {m : Nat} (h : lfsrAfter m 0x3FF = 0x3FF) : Function.IsPeriodicPt lfsrNext m 0x3FF :=
    (lfsrAfter_eq_iterate m _).symm.trans h
  have hgcd : lfsrAfter (n.gcd 2047) 0x3FF = 0x3FF :=
    (lfsrAfter_eq_iterate _ _).trans ((hperiodic hreturn).gcd (hperiodic lfsrAfter_period))
  have hmem : n.gcd 2047 ∈ Nat.properDivisors 2047 :=
    Nat.mem_properDivisors.2 ⟨Nat.gcd_dvd_right _ _, (Nat.gcd_le_left _ hpos).trans_lt hlt⟩
  have hdivisors : Nat.properDivisors 2047 = {1, 23, 89} := by simp [Nat.properDivisors_ofNat]
  have hnone : ∀ d ∈ ({1, 23, 89} : Finset Nat), lfsrAfter d 0x3FF ≠ 0x3FF := by decide +kernel
  exact hnone _ (hdivisors ▸ hmem) hgcd

/-- Settles O36: the recurrence from the bits of one step, the period from `lfsrAfter_period` and `lfsrAfter_ne_seed`,
and the listed values by evaluation. -/
theorem scramblerSequence : Obligations.ScramblerSequence := by
  refine ⟨getLsbD_lfsrNext, fun n => ?_, fun n => ?_, fun n => ?_, fun n => lfsrAfter_ne_seed, ?_, ?_, ?_⟩
  · rw [lfsrAfter_add, lfsrBit_eq_getLsbD]
  · rw [lfsrAfter_add, lfsrAfter_add n 9, getLsbD_lfsrAfter_eleven]
  · rw [Nat.add_comm, lfsrAfter_add, lfsrAfter_period]
  · decide
  · decide +kernel
  · decide +kernel

/-! ## The encoder register (R106, R114) -/

section
variable {u : List Bool}

theorem getLsbD_encReg_msbNewest (i : Nat) {j : Nat} (hj : j < 7) :
    (encReg .msbNewest u i).getLsbD j = bitBack u i (6 - j) := by
  rw [encReg, BitVec.getLsbD_ofFnLE, dif_pos hj]

theorem getLsbD_encReg_lsbNewest (i : Nat) {j : Nat} (hj : j < 7) :
    (encReg .lsbNewest u i).getLsbD j = bitBack u i j := by
  rw [encReg, BitVec.getLsbD_ofFnLE, dif_pos hj]

/-- The current bit is the bit no place back. -/
theorem bitBack_zero {i : Nat} (hi : i < u.length) : bitBack u i 0 = u.getD i false := by
  rw [bitBack, Nat.sub_zero, Nat.add_mod_right, Nat.mod_eq_of_lt hi]

theorem bitBack_succ_succ (i k : Nat) : bitBack u (i + 1) (k + 1) = bitBack u i k := by
  rw [bitBack, bitBack, show i + 1 + u.length - (k + 1) = i + u.length - k by omega]

/-- Before the first bit stands the last one. -/
theorem bitBack_first_succ {k : Nat} (hk : k < u.length) : bitBack u 0 (k + 1) = bitBack u (u.length - 1) k := by
  rw [bitBack, bitBack, show u.length - 1 + u.length - k = 0 + u.length - (k + 1) + u.length by omega,
    Nat.add_mod_right]

/-- The shift form of R114: where each bit is one place further back from `i'` than from `i`, the register at `i'` is
the one at `i` shifted, with the current bit entering at bit 6. -/
theorem encReg_msbNewest_shift {i i' : Nat} (hi : i' < u.length)
    (hback : ∀ k, k < 6 → bitBack u i' (k + 1) = bitBack u i k) :
    encReg .msbNewest u i' =
      (encReg .msbNewest u i >>> 1) ||| ((BitVec.ofBool (u.getD i' false)).setWidth 7 <<< 6) := by
  refine BitVec.eq_of_getLsbD_eq fun j hj => ?_
  rw [getLsbD_encReg_msbNewest _ hj, BitVec.getLsbD_or, BitVec.getLsbD_ushiftRight, BitVec.getLsbD_shiftLeft]
  by_cases h6 : j = 6
  · subst h6
    simp [bitBack_zero hi]
  · have hstep := hback (5 - j) (by omega)
    rw [show 5 - j + 1 = 6 - j by omega] at hstep
    rw [hstep, getLsbD_encReg_msbNewest _ (by omega), show 6 - (1 + j) = 5 - j by omega]
    simp [show j < 6 by omega]

end

/-- Settles O38: the window from the bits of `encReg`, the shift form from `encReg_msbNewest_shift`. -/
theorem encoderRegister : Obligations.EncoderRegister := by
  intro u i hlen hi
  refine ⟨fun k hk => ⟨?_, ?_⟩, fun hnext => ?_, ?_⟩
  · rw [getLsbD_encReg_msbNewest _ (by omega), Nat.sub_sub_self hk, bitBack]
  · rw [getLsbD_encReg_lsbNewest _ (by omega), bitBack]
  · exact encReg_msbNewest_shift hnext fun k _ => bitBack_succ_succ i k
  · exact encReg_msbNewest_shift (by omega) fun k hk => bitBack_first_succ (by omega)

/-! ## The encoder is linear (R113) -/

/-- Two lists made of pieces of pairwise equal lengths combine piece by piece. -/
theorem flatMap_zipWith {α β : Type} (op : β → β → β) (f g : α → List β) (hlen : ∀ x, (f x).length = (g x).length)
    (l : List α) : l.flatMap (fun x => List.zipWith op (f x) (g x)) = List.zipWith op (l.flatMap f) (l.flatMap g) := by
  induction l with
  | nil => rfl
  | cons x l ih => rw [List.flatMap_cons, List.flatMap_cons, List.flatMap_cons, ih, List.zipWith_append (hlen x)]

/-- A running exclusive or of exclusive ors splits into two. -/
theorem foldl_xor_xor (f g : Nat → Bool) (l : List Nat) (a b : Bool) :
    l.foldl (fun p j => p ^^ (f j ^^ g j)) (a ^^ b) =
      (l.foldl (fun p j => p ^^ f j) a ^^ l.foldl (fun p j => p ^^ g j) b) := by
  induction l generalizing a b with
  | nil => rfl
  | cons x l ih => 
    have hswap : ((a ^^ b) ^^ (f x ^^ g x)) = ((a ^^ f x) ^^ (b ^^ g x)) := by
      rw [Bool.xor_assoc, Bool.xor_assoc, Bool.xor_left_comm b]
    rw [List.foldl_cons, List.foldl_cons, List.foldl_cons, ← ih, hswap]

/-- The output under one generator is linear in the register. -/
theorem parity7_xor_and (v w g : BitVec 7) :
    parity7 ((v ^^^ w) &&& g) = (parity7 (v &&& g) ^^ parity7 (w &&& g)) := by
  simp only [parity7, BitVec.getLsbD_and, BitVec.getLsbD_xor, Bool.and_xor_distrib_right]
  exact foldl_xor_xor _ _ _ false false

section
variable {u v : List Bool} (h : u.length = v.length)
include h

theorem bitBack_zipWith (i k : Nat) : bitBack (List.zipWith xor u v) i k = (bitBack u i k ^^ bitBack v i k) := by
  have hlen : (List.zipWith xor u v).length = u.length := by simp [h]
  rw [bitBack, bitBack, bitBack, hlen, ← h]
  generalize (i + u.length - k) % u.length = m
  by_cases hm : m < u.length <;> simp [List.getD, hm, h ▸ hm]

theorem encReg_zipWith (o : RegOrder) (i : Nat) :
    encReg o (List.zipWith xor u v) i = encReg o u i ^^^ encReg o v i := by
  refine BitVec.eq_of_getLsbD_eq fun j hj => ?_
  rw [BitVec.getLsbD_xor]
  cases o with
  | msbNewest => simp only [getLsbD_encReg_msbNewest _ hj, bitBack_zipWith h]
  | lsbNewest => simp only [getLsbD_encReg_lsbNewest _ hj, bitBack_zipWith h]

theorem encAt_zipWith (o : RegOrder) (taps : Nat → List (BitVec 7)) (i : Nat) :
    encAt o taps (List.zipWith xor u v) i = List.zipWith xor (encAt o taps u i) (encAt o taps v i) := by
  simp only [encAt, List.zipWith_map, List.zipWith_self, encReg_zipWith h, parity7_xor_and]

/-- The encoder is linear for any taps. -/
theorem encode7_zipWith (o : RegOrder) (taps : Nat → List (BitVec 7)) :
    encode7 o taps (List.zipWith xor u v) = List.zipWith xor (encode7 o taps u) (encode7 o taps v) := by
  have hlen : (List.zipWith xor u v).length = u.length := by simp [h]
  have hpieces (i : Nat) : (encAt o taps u i).length = (encAt o taps v i).length := by simp [encAt]
  rw [encode7, encode7, encode7, hlen, ← h, ← flatMap_zipWith xor _ _ hpieces, funext (encAt_zipWith h o taps)]

end

/-- Settles O39: `encode7_zipWith` at the taps of each rate. -/
theorem encoderIsLinear : Obligations.EncoderIsLinear :=
  fun o _ _ h => ⟨encode7_zipWith h o taps25, encode7_zipWith h o taps12⟩

end Sys2Proof.Machine
end

section
/-! PROOFS of the interleaver family (41_interleaver.md): the cells of the type I/II passes, what each pass writes, the
delay and the lag of type IV, and the checks of the three commands. -/

namespace Sys2Proof.Machine

/-! ## The checks of the interleaver commands (R145, R146, R154, R273) -/

/-- The checks that every interleaver command makes, in their order, over `n` input cells and an output range of `m`
cells, before it completes as `ok`. -/
def rangesChecked (s : State) (n m : Nat) (ok : Completion) : Completion :=
  if s.lenN < n then .stall
  else if ¬ legal s.cfg s.srcA n then .error .addrRange s.lat.src
  else if ¬ legal s.cfg s.dstA m then .error .addrRange s.lat.dst
  else if overlap s.srcA n s.dstA m then .error .overlap s.lat.dst
  else ok

section
variable {s : State} {n m : Nat} {ok : Completion}

theorem rangesChecked_short (h : s.lenN < n) : rangesChecked s n m ok = .stall := if_pos h

variable (hlen : n ≤ s.lenN)
include hlen

theorem rangesChecked_badSrc (h : ¬legal s.cfg s.srcA n) :
    rangesChecked s n m ok = .error .addrRange s.lat.src := by
  rw [rangesChecked, if_neg (Nat.not_lt.2 hlen), if_pos h]

variable (hsrc : legal s.cfg s.srcA n)
include hsrc

theorem rangesChecked_badDst (h : ¬legal s.cfg s.dstA m) :
    rangesChecked s n m ok = .error .addrRange s.lat.dst := by
  rw [rangesChecked, if_neg (Nat.not_lt.2 hlen), if_neg (not_not.2 hsrc), if_pos h]

variable (hdst : legal s.cfg s.dstA m)
include hdst

theorem rangesChecked_overlap (h : overlap s.srcA n s.dstA m) :
    rangesChecked s n m ok = .error .overlap s.lat.dst := by
  rw [rangesChecked, if_neg (Nat.not_lt.2 hlen), if_neg (not_not.2 hsrc), if_neg (not_not.2 hdst), if_pos h]

theorem rangesChecked_passed (h : ¬overlap s.srcA n s.dstA m) : rangesChecked s n m ok = ok := by
  rw [rangesChecked, if_neg (Nat.not_lt.2 hlen), if_neg (not_not.2 hsrc), if_neg (not_not.2 hdst), if_neg h]

end

/-- A pass makes the checks over its input cells and the matrix. -/
theorem ilvPass_eq_rangesChecked (s : State) (n : Nat) (cellOf : Nat → Nat × Nat) :
    ilvPass s n cellOf = rangesChecked s n 368640
      (.ok n n { s with mem := s.mem.writeAll (scatter s.dstA cellOf (s.mem.readBlock s.srcA n)) }) := rfl

/-- ILVIV k with k < NIV makes the checks over two blocks of N/2 cells. -/
theorem ilviv_eq_rangesChecked {s : State} {k : Nat} (hk : k < s.cfg.niv) :
    ilviv k s = rangesChecked s (s.cfg.ivAt k).half (s.cfg.ivAt k).half
      (.ok (s.cfg.ivAt k).half (s.cfg.ivAt k).half { s with
        mem := s.mem.writeBlock s.dstA ((s.ivAt k).give (s.cfg.ivAt k))
        iv := s.iv.set k ((s.ivAt k).take (s.cfg.ivAt k) (s.mem.readBlock s.srcA (s.cfg.ivAt k).half)) }) :=
  if_neg (Nat.not_le.2 hk)

theorem ilviv_notConfigured {s : State} {k : Nat} (hk : s.cfg.niv ≤ k) :
    ilviv k s = .error .notConfigured (toWord k) := if_pos hk

/-- A command whose completion is a stall leaves the stall state (R276). -/
theorem exec_of_stall {i : Instr} {s : State} (h : completionOf i s = .stall) : exec i s = .next (stallState s) := by
  rw [exec_eq, h]
  rfl

/-- The sizes of the two ranges of each interleaver command (R145, R146, R154). -/
theorem completionOf_interleaver {s : State} {i : Instr} {n m : Nat}
    (h : (i = .ilvp1 ∧ n = 365440 ∧ m = 368640) ∨ (i = .ilvpids ∧ n = 3200 ∧ m = 368640) ∨
      (∃ k, k < s.cfg.niv ∧ i = .ilviv k ∧ n = (s.cfg.ivAt k).half ∧ m = (s.cfg.ivAt k).half)) :
    ∃ ok, completionOf i s = rangesChecked s n m ok := by
  rcases h with ⟨rfl, rfl, rfl⟩ | ⟨rfl, rfl, rfl⟩ | ⟨k, hk, rfl, rfl, rfl⟩
  · exact ⟨_, ilvPass_eq_rangesChecked s n1 _⟩
  · exact ⟨_, ilvPass_eq_rangesChecked s n2 _⟩
  · exact ⟨_, ilviv_eq_rangesChecked hk⟩

/-- Settles O45: ILVIV checks k against NIV first, and the rest are the checks of `rangesChecked`. -/
theorem interleaverStops : Obligations.InterleaverStops := by
  refine fun s => ⟨fun k hk => exec_of_error (ilviv_notConfigured hk), fun i n m hi => ?_⟩
  obtain ⟨ok, heq⟩ := completionOf_interleaver hi
  refine ⟨fun h => ?_, fun hlen h => ?_, fun hlen hsrc h => ?_, fun hlen hsrc hdst h => ?_⟩
  · exact exec_of_stall (heq.trans (rangesChecked_short h))
  · exact exec_of_error (heq.trans (rangesChecked_badSrc hlen h))
  · exact exec_of_error (heq.trans (rangesChecked_badDst hlen hsrc h))
  · exact exec_of_error (heq.trans (rangesChecked_overlap hlen hsrc hdst h))

/-! ## The cells of the two passes (R142 to R144, R147) -/

/-- The matrix cell of block `blk` and partition `p` at the row and column that `ki` gives inside them. -/
def blockCell (blk p ki : Nat) : Nat × Nat := (blk * 32 + kiRow ki, p * 36 + kiCol ki)

/-- P1 input bits take the values of ki below 1142. -/
theorem cell1_eq_blockCell (c : Cfg) (i : Nat) :
    cell1 c i = blockCell ((i / 20 + partOf c i * 7) % 16) (partOf c i) (i / 320) := rfl

/-- PIDS input bits take the ten values of ki from 1142 up. -/
theorem cell2_eq_blockCell (c : Cfg) (i : Nat) :
    cell2 c i = blockCell (i / 200) (partOf c i) (i / 20 % 10 + 1142) := rfl

/-- A cell has one block, one partition and one ki. -/
theorem blockCell_inj {b b' p p' k k' : Nat} (hk : k < 1152) (hk' : k' < 1152)
    (h : blockCell b p k = blockCell b' p' k') : b = b' ∧ p = p' ∧ k = k' := by
  obtain ⟨hrow, hcol⟩ := Prod.mk.inj h
  have hr := kiRow_lt k
  have hr' := kiRow_lt k'
  have hc := kiCol_lt k
  have hc' := kiCol_lt k'
  exact ⟨by omega, by omega, ki_injective hk hk' (by omega) (by omega)⟩

/-- Every cell is of this form. -/
theorem exists_blockCell (row col : Nat) : ∃ k < 1152, blockCell (row / 32) (col / 36) k = (row, col) := by
  obtain ⟨k, hk, hr, hc⟩ := ki_surjective (Nat.mod_lt row (by decide)) (Nat.mod_lt col (by decide))
  refine ⟨k, hk, Prod.ext ?_ ?_⟩
  · rw [blockCell, hr, Nat.div_add_mod']
  · rw [blockCell, hc, Nat.div_add_mod']

/-- The passes take different values of ki. -/
theorem cell1_ne_cell2 (c : Cfg) {i : Nat} (hi : i < 365440) (j : Nat) : cell1 c i ≠ cell2 c j := by
  rw [cell1_eq_blockCell, cell2_eq_blockCell]
  intro h
  obtain ⟨-, -, hki⟩ := blockCell_inj (by omega) (by omega) h
  omega

section
variable {c : Cfg} (hc : c.interleaverOk = true)
include hc

theorem cell1_injOn {i j : Nat} (hi : i < 365440) (hj : j < 365440) (h : cell1 c i = cell1 c j) : i = j := by
  rw [cell1_eq_blockCell, cell1_eq_blockCell] at h
  obtain ⟨hblk, hpart, hki⟩ := blockCell_inj (by omega) (by omega) h
  have hmod := partOf_inj hc hpart
  omega

theorem cell2_injOn {i j : Nat} (h : cell2 c i = cell2 c j) : i = j := by
  rw [cell2_eq_blockCell, cell2_eq_blockCell] at h
  obtain ⟨hblk, hpart, hki⟩ := blockCell_inj (by omega) (by omega) h
  have hmod := partOf_inj hc hpart
  omega

/-- A permutation V_TABLE takes every partition. -/
theorem exists_partOf {p : Nat} (hp : p < 20) : ∃ e < 20, ∀ i, i % 20 = e → partOf c i = p := by
  obtain ⟨hlen, hlt, hdistinct, -⟩ := Cfg.vTable_facts hc
  have hsub : c.vTable ⊆ List.range 20 := fun v hv => List.mem_range.2 (hlt v hv)
  have hperm : c.vTable.Perm (List.range 20) :=
    (((distinct_iff_nodup _).1 hdistinct).subperm hsub).perm_of_length_le (by simp [hlen])
  obtain ⟨e, he, hep⟩ := List.getElem_of_mem (hperm.mem_iff.2 (List.mem_range.2 hp))
  refine ⟨e, hlen ▸ he, fun i hi => ?_⟩
  rw [partOf, hi, List.getD_eq_getElem _ _ he, hep]

/-- Every cell of the matrix is written by the pass that takes its ki. -/
theorem cells_cover {row col : Nat} (hrow : row < 512) (hcol : col < 720) :
    (∃ i, i < 365440 ∧ cell1 c i = (row, col)) ∨ (∃ i, i < 3200 ∧ cell2 c i = (row, col)) := by
  obtain ⟨k, hk, hcell⟩ := exists_blockCell row col
  obtain ⟨e, he, hpart⟩ := exists_partOf hc (p := col / 36) (by omega)
  by_cases hpass : k < 1142
  · refine .inl ⟨320 * k + 20 * ((row / 32 + 9 * (col / 36)) % 16) + e, by omega, ?_⟩
    rw [← hcell, cell1_eq_blockCell, hpart _ (by omega)]
    congr 1 <;> omega
  · refine .inr ⟨200 * (row / 32) + 20 * (k - 1142) + e, by omega, ?_⟩
    rw [← hcell, cell2_eq_blockCell, hpart _ (by omega)]
    congr 1 <;> omega

end

/-- Settles O42: a cell gives back its block, partition and ki, and from these its input bit. -/
theorem passesFillMatrix : Obligations.PassesFillMatrix := fun c hc =>
  ⟨fun _ => rfl, fun _ => rfl, fun _ _ => cell1_injOn hc, fun _ _ _ _ => cell2_injOn hc,
    fun _ j hi _ => cell1_ne_cell2 c hi j, fun _ _ => cells_cover hc⟩

/-! ## What a pass writes (R145, R146) -/

/-- The addresses of the scattered writes. -/
theorem map_fst_scatter (base : Nat) (cellOf : Nat → Nat × Nat) (t : List Byte) :
    (scatter base cellOf t).map Prod.fst = (List.range t.length).map (fun i => base + matOffset (cellOf i)) := by
  rw [scatter, List.map_map]
  rfl

/-- Scattering to distinct cells puts input cell i at its cell, and leaves every other address. -/
theorem read_writeAll_scatter (m : Memory) (base src n : Nat) {cellOf : Nat → Nat × Nat}
    (hcol : ∀ i, i < n → (cellOf i).2 < 720) (hinj : ∀ i j, i < n → j < n → cellOf i = cellOf j → i = j) :
    (∀ i, i < n → (m.writeAll (scatter base cellOf (m.readBlock src n))).read (base + matOffset (cellOf i)) =
      m.read (src + i)) ∧
    (∀ a, (∀ i, i < n → a ≠ base + matOffset (cellOf i)) →
      (m.writeAll (scatter base cellOf (m.readBlock src n))).read a = m.read a) := by
  have haddr := map_fst_scatter base cellOf (m.readBlock src n)
  rw [Memory.length_readBlock] at haddr
  refine ⟨fun i hi => ?_, fun a ha => ?_⟩
  · have hnodup : ((scatter base cellOf (m.readBlock src n)).map Prod.fst).Nodup := by
      rw [haddr]
      refine List.Nodup.map_on (fun x hx y hy h => ?_) List.nodup_range
      rw [List.mem_range] at hx hy
      exact hinj x y hx hy (matOffset_inj (hcol x hx) (hcol y hy) (Nat.add_left_cancel h))
    have hmem : (base + matOffset (cellOf i), m.read (src + i)) ∈ scatter base cellOf (m.readBlock src n) :=
      List.mem_map.2 ⟨i, by simpa using hi, by rw [Memory.getD_readBlock _ _ _ _ _ hi]⟩
    exact Memory.read_writeAll_of_mem _ _ _ hnodup hmem
  · refine Memory.read_writeAll_of_notMem _ _ _ fun hmem => ?_
    rw [haddr, List.mem_map] at hmem
    obtain ⟨i, hi, heq⟩ := hmem
    exact ha i (List.mem_range.1 hi) heq.symm

/-- What a pass does on legal disjoint ranges: it scatters its input and changes nothing else but the completion. -/
theorem exec_pass {i : Instr} {s : State} {n : Nat} {cellOf : Nat → Nat × Nat}
    (hi : completionOf i s = ilvPass s n cellOf) (hlen : n ≤ s.lenN) (hsrc : legal s.cfg s.srcA n)
    (hdst : legal s.cfg s.dstA 368640) (hdisj : ¬overlap s.srcA n s.dstA 368640)
    (hcol : ∀ i, i < n → (cellOf i).2 < 720) (hinj : ∀ i j, i < n → j < n → cellOf i = cellOf j → i = j) :
    ∃ t, exec i s = .next t ∧ t = { s with phase := .idle, csr := doneCsr s.csr n n, mem := t.mem } ∧
      (∀ i, i < n → t.mem.read (s.dstA + ((cellOf i).1 * 720 + (cellOf i).2)) = s.mem.read (s.srcA + i)) ∧
      (∀ a, (∀ i, i < n → a ≠ s.dstA + ((cellOf i).1 * 720 + (cellOf i).2)) → t.mem.read a = s.mem.read a) := by
  have hexec := exec_eq i s
  rw [hi, ilvPass_eq_rangesChecked, rangesChecked_passed hlen hsrc hdst hdisj] at hexec
  exact ⟨_, hexec, rfl, read_writeAll_scatter s.mem s.dstA s.srcA n hcol hinj⟩

/-- Settles O40: the pass over the cells of `cell1`, which are distinct. -/
theorem ilvp1Scatters : Obligations.Ilvp1Scatters := by
  intro s hc hlen hsrc hdst hdisj
  obtain ⟨-, hilv, -⟩ := Cfg.valid_facts hc
  exact exec_pass (i := .ilvp1) rfl hlen hsrc hdst hdisj (fun i _ => (cell1_lt hilv i).2) fun _ _ => cell1_injOn hilv

/-- Settles O41: the pass over the cells of `cell2`, which are distinct. -/
theorem ilvpidsScatters : Obligations.IlvpidsScatters := by
  intro s hc hlen hsrc hdst hdisj
  obtain ⟨-, hilv, -⟩ := Cfg.valid_facts hc
  exact exec_pass (i := .ilvpids) rfl hlen hsrc hdst hdisj (fun i hi => (cell2_lt hilv i hi).2)
    fun _ _ _ _ => cell2_injOn hilv

/-! ## A call of type IV (R152 to R154) -/

@[simp] theorem IvState.length_give (c : IvCfg) (v : IvState) : (v.give c).length = c.half := by simp [IvState.give]

/-- Output j is the byte of the buffer cell R(h, j). -/
theorem IvState.getD_give (c : IvCfg) (v : IvState) {j : Nat} (hj : j < c.half) :
    (v.give c).getD j 0 = v.buf.getD (c.readCell v.half j) 0 := by
  rw [List.getD_eq_getElem _ _ (by simpa using hj)]
  simp [IvState.give, IvCfg.readCells]

section
variable {c : IvCfg} (hc : c.valid = true)
include hc

/-- The i-th cell that a call writes is W(h, i). -/
theorem IvCfg.getD_writeCells_eq_ivWrite (h : Bool) {i : Nat} (hi : i < c.half) :
    (c.writeCells h).getD i 0 = ivWrite c h i := IvCfg.getD_writeCells hc h i hi

/-- The cells that a call writes are the W(h, i). -/
theorem IvCfg.mem_writeCells_iff (h : Bool) (a : Nat) :
    a ∈ c.writeCells h ↔ ∃ i < c.half, ivWrite c h i = a := by
  rw [List.mem_iff_getElem]
  refine ⟨fun ⟨i, hi, hai⟩ => ?_, fun ⟨i, hi, hai⟩ => ?_⟩
  · have hi' : i < c.half := by simpa using hi
    exact ⟨i, hi', by rw [← IvCfg.getD_writeCells_eq_ivWrite hc h hi', List.getD_eq_getElem _ _ hi, hai]⟩
  · have hi' : i < (c.writeCells h).length := by simpa using hi
    exact ⟨i, hi', by rw [← List.getD_eq_getElem _ 0 hi', IvCfg.getD_writeCells_eq_ivWrite hc h hi, hai]⟩

/-- A call puts input i in the cell W(h, i). -/
theorem IvState.getD_take_written {v : IvState} {t : List Byte} (hbuf : v.buf.length = c.n) (ht : t.length = c.half)
    {i : Nat} (hi : i < c.half) : (v.take c t).buf.getD (ivWrite c v.half i) 0 = t.getD i 0 := by
  obtain ⟨hnodup, hin⟩ := IvCfg.writeCells_facts hc v.half
  have hcell := IvCfg.getD_writeCells_eq_ivWrite hc v.half hi
  have hmem : ivWrite c v.half i ∈ c.writeCells v.half := (IvCfg.mem_writeCells_iff hc _ _).2 ⟨i, hi, rfl⟩
  rw [← hcell] at hmem ⊢
  exact getD_setCells_of_mem _ _ _ i hnodup (by simpa using hi) (ht ▸ hi) (hbuf ▸ hin _ hmem)

/-- A call leaves the cells that are no W(h, i). -/
theorem IvState.getD_take_kept {v : IvState} (t : List Byte) {a : Nat}
    (ha : ∀ i, i < c.half → a ≠ ivWrite c v.half i) : (v.take c t).buf.getD a 0 = v.buf.getD a 0 := by
  refine getD_setCells_of_notMem _ _ _ _ fun hmem => ?_
  obtain ⟨i, hi, heq⟩ := (IvCfg.mem_writeCells_iff hc _ _).1 hmem
  exact ha i hi heq.symm

end

/-- Output j of a call, where it was written. -/
theorem read_writeBlock_give (m : Memory) (a : Nat) (c : IvCfg) (v : IvState) {j : Nat} (hj : j < c.half) :
    (m.writeBlock a (v.give c)).read (a + j) = v.buf.getD (c.readCell v.half j) 0 := by
  rw [Memory.read_writeBlock_inside _ _ _ _ 0 (by simpa using hj), IvState.getD_give c v hj]

section
variable {s : State} {k : Nat} (hk : k < s.cfg.niv) (hlen : (s.cfg.ivAt k).half ≤ s.lenN)
  (hsrc : legal s.cfg s.srcA (s.cfg.ivAt k).half) (hdst : legal s.cfg s.dstA (s.cfg.ivAt k).half)
  (hdisj : ¬overlap s.srcA (s.cfg.ivAt k).half s.dstA (s.cfg.ivAt k).half)
include hk hlen hsrc hdst hdisj

/-- ILVIV k with k < NIV on legal disjoint ranges: it writes the previous half and takes the input. -/
theorem exec_ilviv : exec (.ilviv k) s = .next { s with
    phase := .idle
    csr := doneCsr s.csr (s.cfg.ivAt k).half (s.cfg.ivAt k).half
    mem := s.mem.writeBlock s.dstA ((s.ivAt k).give (s.cfg.ivAt k))
    iv := s.iv.set k ((s.ivAt k).take (s.cfg.ivAt k) (s.mem.readBlock s.srcA (s.cfg.ivAt k).half)) } := by
  rw [exec_eq, completionOf, ilviv_eq_rangesChecked hk, rangesChecked_passed hlen hsrc hdst hdisj]
  rfl

/-- The output of a call stands in the buffer before the call. -/
theorem read_of_exec_ilviv {t : State} (h : exec (.ilviv k) s = .next t) {j : Nat} (hj : j < (s.cfg.ivAt k).half) :
    t.mem.read (s.dstA + j) = (s.ivAt k).buf.getD ((s.cfg.ivAt k).readCell (s.ivAt k).half j) 0 := by
  rw [exec_ilviv hk hlen hsrc hdst hdisj] at h
  obtain rfl := Host.Outcome.next.inj h
  exact read_writeBlock_give _ _ _ _ hj

end

/-- Settles O43: the output by `read_writeBlock_give`, the buffer by `IvState.getD_take_written` and
`IvState.getD_take_kept`. -/
theorem ilvivDelays : Obligations.IlvivDelays := by
  intro s k hc hshape hk hlen hsrc hdst hdisj
  obtain ⟨-, hilv, -⟩ := Cfg.valid_facts hc
  have hiv := Cfg.ivAt_valid hilv hk
  obtain ⟨hsize, hbuf, -⟩ := hshape
  refine ⟨_, exec_ilviv hk hlen hsrc hdst hdisj, rfl, fun j hj => read_writeBlock_give _ _ _ _ hj, fun a ha => ?_, ?_⟩
  · exact Memory.read_writeBlock_outside _ _ _ _ (by simpa using ha)
  · rw [State.ivAt_of_set_self (s := s) rfl (hsize ▸ hk)]
    refine ⟨fun i hi => ?_, fun a ha => IvState.getD_take_kept hiv _ ha, rfl, List.length_set,
      fun j hj => State.ivAt_of_set_ne (s := s) rfl hj⟩
    rw [IvState.getD_take_written hiv (hbuf k hk) (Memory.length_readBlock _ _ _) hi,
      Memory.getD_readBlock _ _ _ _ _ hi]

/-! ## The lag of type IV (R155) -/

/-- Which input of a call from half `h` the next call outputs at position `j`: the one written to the cell that is
then read. -/
def ivLag (c : IvCfg) (h : Bool) (j : Nat) : Nat := (c.writeCells h).idxOf (c.readCell (!h) j)

section
variable {c : IvCfg} (hc : c.valid = true) (h : Bool)
include hc

/-- The half that a call reads is the half that the call before it wrote (R156). -/
theorem IvCfg.readCell_mem_writeCells {j : Nat} (hj : j < c.half) : c.readCell (!h) j ∈ c.writeCells h := by
  obtain ⟨-, -, -, -, -, -, -, -, -, -, -, hread⟩ := IvCfg.valid_facts hc
  have hmem : c.readCell (!h) j ∈ c.readCells (!h) := List.mem_map_of_mem (List.mem_range.2 hj)
  rwa [(hread (!h)).2, Bool.not_not] at hmem

theorem ivLag_lt {j : Nat} (hj : j < c.half) : ivLag c h j < c.half := by
  rw [← IvCfg.length_writeCells c h]
  exact List.idxOf_lt_length_of_mem (IvCfg.readCell_mem_writeCells hc h hj)

theorem ivWrite_ivLag {j : Nat} (hj : j < c.half) : ivWrite c h (ivLag c h j) = c.readCell (!h) j := by
  have hmem := IvCfg.readCell_mem_writeCells hc h hj
  rw [← IvCfg.getD_writeCells_eq_ivWrite hc h (ivLag_lt hc h hj), ivLag,
    List.getD_eq_getElem _ _ (List.idxOf_lt_length_of_mem hmem)]
  exact List.getElem_idxOf _

/-- A call reads distinct cells, so it outputs distinct inputs. -/
theorem ivLag_injOn {i j : Nat} (hi : i < c.half) (hj : j < c.half) (heq : ivLag c h i = ivLag c h j) : i = j := by
  obtain ⟨-, -, -, -, -, -, -, -, -, -, -, hread⟩ := IvCfg.valid_facts hc
  have hcell : c.readCell (!h) i = c.readCell (!h) j := by
    rw [← ivWrite_ivLag hc h hi, heq, ivWrite_ivLag hc h hj]
  exact List.inj_on_of_nodup_map (hread (!h)).1 (List.mem_range.2 hi) (List.mem_range.2 hj) hcell

end

/-- Settles O44: the second call reads at R(1-h, j) what the first wrote at W(h, ivLag j), which is the same cell. -/
theorem ilvivLag : Obligations.IlvivLag := by
  intro c k h hc hk
  obtain ⟨-, hilv, -⟩ := Cfg.valid_facts hc
  have hiv := Cfg.ivAt_valid hilv hk
  refine ⟨ivLag (c.ivAt k) h, fun j => ivLag_lt hiv h, fun i j => ivLag_injOn hiv h, ?_⟩
  intro s t u v hs hshape hhalf hlen hsrc hdst hdisj hfirst hu hkept hulen husrc hudst hudisj hsecond j hj
  subst hs
  obtain ⟨t', hfirst', -, -, -, hwritten, -, hflip, -⟩ := ilvivDelays s k hc hshape hk hlen hsrc hdst hdisj
  obtain rfl : t' = t := by simpa [hfirst'] using hfirst
  have hout : v.mem.read (u.dstA + j) = (u.ivAt k).buf.getD ((u.cfg.ivAt k).readCell (u.ivAt k).half j) 0 := by
    rw [← hu] at hk hulen husrc hudst hudisj hj
    exact read_of_exec_ilviv hk hulen husrc hudst hudisj hsecond hj
  calc v.mem.read (u.dstA + j)
      = (t'.ivAt k).buf.getD ((s.cfg.ivAt k).readCell (!h) j) 0 := by rw [hout, hu, hkept, hflip, hhalf]
    _ = (t'.ivAt k).buf.getD (ivWrite (s.cfg.ivAt k) h (ivLag (s.cfg.ivAt k) h j)) 0 := by
        rw [ivWrite_ivLag hiv h hj]
    _ = s.mem.read (s.srcA + ivLag (s.cfg.ivAt k) h j) := by
        rw [← hhalf, hwritten _ (ivLag_lt hiv _ hj)]

end Sys2Proof.Machine
end

section
/-! PROOFS of the symbol mapper family (42_l1_symbol_mapper.md): the checks of L1MAP in their order, the value of every
subcarrier, and the frame that L1MAP writes. -/

namespace Sys2Proof.Machine

/-- A command that completes with a new BUFMEM leaves it, IDLE, DONE and the two counts, and nothing else (R29, R100). -/
theorem exec_of_ok_mem {i : Instr} {s : State} {n m : Nat} {mem : Memory}
    (h : completionOf i s = .ok n m { s with mem := mem }) : ∃ t, exec i s = .next t ∧
      t = { s with phase := .idle, csr := doneCsr s.csr n m, mem := t.mem } ∧ t.mem = mem := by
  rw [exec_eq, h]
  exact ⟨_, rfl, rfl, rfl⟩

/-! ## The checks of L1MAP (R178, R273) -/

section
variable {s : State}

theorem l1map_badSrc (h : ¬legal s.cfg s.srcA matCells) : l1map s = .error .addrRange s.lat.src := if_pos h

variable (hsrc : legal s.cfg s.srcA matCells)
include hsrc

theorem l1map_badDst (h : ¬legal s.cfg s.dstA s.cfg.l1FrameBytes) : l1map s = .error .addrRange s.lat.dst := by
  rw [l1map, if_neg (not_not.2 hsrc), if_pos h]

variable (hdst : legal s.cfg s.dstA s.cfg.l1FrameBytes)
include hdst

theorem l1map_badAux (h : ¬legal s.cfg s.auxA s.cfg.secBytes) : l1map s = .error .addrRange s.lat.aux := by
  rw [l1map, if_neg (not_not.2 hsrc), if_neg (not_not.2 hdst), if_pos h]

variable (haux : legal s.cfg s.auxA s.cfg.secBytes)
include haux

theorem l1map_overlap (h : overlap s.dstA s.cfg.l1FrameBytes s.srcA matCells ∨
    overlap s.dstA s.cfg.l1FrameBytes s.auxA s.cfg.secBytes) : l1map s = .error .overlap s.lat.dst := by
  rw [l1map, if_neg (not_not.2 hsrc), if_neg (not_not.2 hdst), if_neg (not_not.2 haux), if_pos h]

variable (hnosrc : ¬overlap s.dstA s.cfg.l1FrameBytes s.srcA matCells)
  (hnoaux : ¬overlap s.dstA s.cfg.l1FrameBytes s.auxA s.cfg.secBytes)
include hnosrc hnoaux

/-- The lowest address read into a symbol whose cell is no bit is the one reported. -/
theorem l1map_badBit {a : Nat} (h : l1BadBit s = some a) : l1map s = .error .badBit (toWord a) := by
  rw [l1map, if_neg (not_not.2 hsrc), if_neg (not_not.2 hdst), if_neg (not_not.2 haux),
    if_neg (not_or.2 ⟨hnosrc, hnoaux⟩), h]

/-- L1MAP whose checks pass writes the frame of the cells as they stood. -/
theorem l1map_eq_ok (h : l1BadBit s = none) : l1map s = .ok (matCells + s.cfg.secBytes) s.cfg.l1FrameBytes
    { s with
      mem := s.mem.writeBlock s.dstA
        (l1Frame s.cfg (fun i => s.mem.read (s.srcA + i)) (fun j => s.mem.read (s.auxA + j))) } := by
  rw [l1map, if_neg (not_not.2 hsrc), if_neg (not_not.2 hdst), if_neg (not_not.2 haux),
    if_neg (not_or.2 ⟨hnosrc, hnoaux⟩), h]

end

/-- The addresses read into symbols, one kind at a time (R178). -/
theorem forall_mem_l1Reads (s : State) {P : Nat → Prop} : (∀ a ∈ l1Reads s, P a) ↔
    (∀ i, i < matCells → P (s.srcA + i)) ∧ ∀ e ∈ s.cfg.secMap, P (s.auxA + e.off) ∧ P (s.auxA + e.off + 1) := by
  simp only [mem_l1Reads]
  constructor
  · exact fun h => ⟨fun i hi => h _ (.inl ⟨i, hi, rfl⟩),
      fun e he => ⟨h _ (.inr ⟨e, he, .inl rfl⟩), h _ (.inr ⟨e, he, .inr rfl⟩)⟩⟩
  · rintro ⟨hmatrix, hsec⟩ a (⟨i, hi, rfl⟩ | ⟨e, he, rfl | rfl⟩)
    · exact hmatrix i hi
    · exact (hsec e he).1
    · exact (hsec e he).2

/-- Settles O47: each check, with the ones before it passing; the bad bit by `l1BadBit_eq_some`. -/
theorem l1mapErrors : Obligations.L1mapErrors := by
  refine fun s => ⟨fun h => ?_, fun hsrc h => ?_, fun hsrc hdst h => ?_, fun hsrc hdst haux h => ?_,
    fun hsrc hdst haux hnosrc hnoaux a hbad hread hmatrix hsec => ?_⟩
  · exact exec_of_error (l1map_badSrc h)
  · exact exec_of_error (l1map_badDst hsrc h)
  · exact exec_of_error (l1map_badAux hsrc hdst h)
  · exact exec_of_error (l1map_overlap hsrc hdst haux h)
  · have hlowest : ∀ b ∈ l1Reads s, isBit (s.mem.read b) = false → a ≤ b := (forall_mem_l1Reads s).2 ⟨hmatrix, hsec⟩
    exact exec_of_error (l1map_badBit hsrc hdst haux hnosrc hnoaux
      (l1BadBit_eq_some s a ((mem_l1Reads s a).2 hread) hbad hlowest))

/-! ## The value of every subcarrier (R170 to R175) -/

section
variable {c : Cfg} (m a : Nat → Byte) {sym sc : Nat}

/-- A secondary symbol stands over any other (R178). -/
theorem l1Symbol_of_sec {v : Byte} (hsec : secSymbol c a sym sc = some v) : l1Symbol c m a sym sc = v := by
  simp only [l1Symbol, hsec]

/-- A subcarrier with no reference, data or secondary symbol is blank (R170). -/
theorem l1Symbol_blank (href : ∀ e ∈ c.refSc, e.sc ≠ sc) (hdata : sc ∉ c.dataSc)
    (hsec : ∀ e ∈ c.secMap, ¬(e.sym = sym ∧ e.sc = sc)) : l1Symbol c m a sym sc = 4 := by
  simp only [l1Symbol, secSymbol_of_notMem c a sym sc hsec, dataSymbol_of_notMem c m sym sc hdata,
    refSymbol_of_notMem c sym sc href, Option.getD_none]
  rfl

variable (hc : c.mapperOk = true)
include hc

/-- No secondary entry names a reference or a data subcarrier (R177). -/
theorem secSymbol_eq_none (h : sc ∈ c.refSc.map RefEntry.sc ∨ sc ∈ c.dataSc) : secSymbol c a sym sc = none := by
  obtain ⟨-, -, -, -, -, -, -, hmap, -⟩ := Cfg.mapper_facts hc
  refine secSymbol_of_notMem c a sym sc ?_
  rintro e he ⟨-, rfl⟩
  obtain ⟨-, -, -, hnoref, hnodata⟩ := hmap e he
  exact h.elim hnoref hnodata

/-- A reference subcarrier carries the value of its sequence (R172). -/
theorem l1Symbol_reference {e : RefEntry} (he : e ∈ c.refSc) :
    l1Symbol c m a sym e.sc = BitVec.ofNat 8 (c.refSymAt e.scid sym) := by
  obtain ⟨-, -, -, -, -, -, hnoref, -⟩ := Cfg.mapper_facts hc
  have href : e.sc ∈ c.refSc.map RefEntry.sc := List.mem_map_of_mem he
  have hnodata : e.sc ∉ c.dataSc := fun hdata => hnoref _ hdata href
  simp only [l1Symbol, secSymbol_eq_none a hc (.inl href), dataSymbol_of_notMem c m sym e.sc hnodata,
    refSymbol_of_mem hc sym he, Option.getD_some]

theorem dataScAt_mem {q k : Nat} (hq : q < 20) (hk : k < 18) : c.dataScAt q k ∈ c.dataSc := by
  obtain ⟨-, -, hlen, -⟩ := Cfg.mapper_facts hc
  have hindex : 18 * q + k < c.dataSc.length := by omega
  rw [Cfg.dataScAt, List.getD_eq_getElem _ _ hindex]
  exact List.getElem_mem hindex

/-- A data subcarrier carries its packed cell pair (R173, R174). -/
theorem l1Symbol_data {q k : Nat} (hq : q < 20) (hk : k < 18) : l1Symbol c m a sym (c.dataScAt q k) =
    packSymbol c.symPack (m (sym * 720 + q * 36 + 2 * k)) (m (sym * 720 + q * 36 + 2 * k + 1)) := by
  simp only [l1Symbol, secSymbol_eq_none a hc (.inr (dataScAt_mem hc hq hk)), dataSymbol_of_mem hc m sym q k hq hk]

end

/-! ## The frame (R170, R171) -/

/-- Byte `sc` of symbol `y` of a written frame. -/
theorem read_writeBlock_l1Frame (mem : Memory) (dst : Nat) (c : Cfg) (m a : Nat → Byte) {y sc : Nat} (hy : y < 512)
    (hsc : sc < c.fftSize) :
    (mem.writeBlock dst (l1Frame c m a)).read (dst + (y * c.fftSize + sc)) = l1Symbol c m a y sc := by
  have hplace : y * c.fftSize + sc < (l1Frame c m a).length := by
    rw [length_l1Frame]
    calc y * c.fftSize + sc < (y + 1) * c.fftSize := by rw [Nat.succ_mul]; omega
      _ ≤ 512 * c.fftSize := Nat.mul_le_mul_right _ hy
  rw [Memory.read_writeBlock_inside _ _ _ _ 0 hplace, getD_l1Frame c m a y sc hy hsc]

/-- Settles O46: L1MAP writes the frame, whose bytes are the symbols by `read_writeBlock_l1Frame`. -/
theorem l1mapAssemblesFrame : Obligations.L1mapAssemblesFrame := by
  refine ⟨fun _ _ => ⟨rfl, rfl⟩, fun s hc hsrc hdst haux hnosrc hnoaux hmatrix hsec => ?_⟩
  obtain ⟨-, -, hok, -⟩ := Cfg.valid_facts hc
  obtain ⟨-, hrefSc, -, hdataSc, -, -, -, hsecMap, -⟩ := Cfg.mapper_facts hok
  have hbits := (l1BadBit_eq_none s).2 ((forall_mem_l1Reads s).2 ⟨hmatrix, hsec⟩)
  obtain ⟨t, hexec, ht, hmem⟩ := exec_of_ok_mem (i := .l1map) (l1map_eq_ok hsrc hdst haux hnosrc hnoaux hbits)
  refine ⟨t, hexec, ht, fun y hy => ⟨fun e he => ?_, fun q k hq hk => ?_, fun sc hsc href hdata hblank => ?_⟩,
    fun e he => ?_, fun x hx => ?_⟩ <;> rw [hmem]
  · rw [read_writeBlock_l1Frame _ _ _ _ _ hy (hrefSc e he).1, l1Symbol_reference _ _ hok he]
  · rw [read_writeBlock_l1Frame _ _ _ _ _ hy (hdataSc _ (dataScAt_mem hok hq hk)), l1Symbol_data _ _ hok hq hk]
  · rw [read_writeBlock_l1Frame _ _ _ _ _ hy hsc, l1Symbol_blank _ _ href hdata hblank]
  · obtain ⟨hsym, hsc, -⟩ := hsecMap e he
    rw [read_writeBlock_l1Frame _ _ _ _ _ hsym hsc, l1Symbol_of_sec _ _ (secSymbol_of_mem hok _ he)]
    rfl
  · exact Memory.read_writeBlock_outside _ _ _ _ (by rwa [length_l1Frame])

end Sys2Proof.Machine
end

section
/-! PROOFS of the Reed-Solomon family (43_reed_solomon.md): the checks and the effect of RSENC, the region that it leaves
as the polynomial of its parity bytes and its data, and the arithmetic of GF(2^8). -/

namespace Sys2Proof.Machine

/-! ## Blocks of BUFMEM -/

/-- A block read in two parts. -/
theorem Memory.readBlock_add (m : Memory) (a n k : Nat) :
    m.readBlock a (n + k) = m.readBlock a n ++ m.readBlock (a + n) k := by
  simp [Memory.readBlock, List.range_add, Nat.add_assoc]

/-- A block that starts where one was written: the bytes written, then those of before. -/
theorem Memory.readBlock_writeBlock_append (m : Memory) (a n : Nat) (bs : List Byte) :
    (m.writeBlock a bs).readBlock a (bs.length + n) = bs ++ m.readBlock (a + bs.length) n := by
  rw [Memory.readBlock_add, Memory.readBlock_writeBlock]
  congr 1
  refine List.map_congr_left fun i _ => ?_
  exact Memory.read_writeBlock_outside _ _ _ _ (by omega)

/-- Writing the bytes that a block already holds. -/
theorem Memory.read_writeBlock_readBlock (m : Memory) (a n b : Nat) :
    (m.writeBlock a (m.readBlock a n)).read b = m.read b := by
  by_cases hb : b < a ∨ a + n ≤ b
  · exact Memory.read_writeBlock_outside _ _ _ _ (by simpa using hb)
  · obtain ⟨i, rfl⟩ : ∃ i, b = a + i := ⟨b - a, by omega⟩
    have hi : i < n := by omega
    rw [Memory.read_writeBlock_inside _ _ _ _ 0 (by simpa using hi), Memory.getD_readBlock _ _ _ _ _ hi]

/-! ## The checks and the effect of RSENC (R192, R193) -/

/-- The parity bytes of a region, from its data bytes. -/
theorem rsParity_readBlock (c : Cfg) (m : Memory) (a : Nat) {n : Nat} (h : 8 ≤ n) : rsParity c (m.readBlock a n) =
    rsRem (rsGen c) (List.replicate 8 0 ++ m.readBlock (a + 8) (min n 255 - 8)) := by
  rw [rsParity, rsData_readBlock _ _ _ h]

section
variable {s : State}

theorem rsenc_badLen (h : s.lenN < 8) : rsenc s = .error .badLen s.lat.len := if_pos h

variable (hlen : 8 ≤ s.lenN)
include hlen

theorem rsenc_badSrc (h : ¬legal s.cfg s.srcA s.lenN) : rsenc s = .error .addrRange s.lat.src := by
  rw [rsenc, if_neg (not_lt.2 hlen), if_pos h]

variable (hsrc : legal s.cfg s.srcA s.lenN)
include hsrc

/-- RSENC whose checks pass writes the parity bytes of the region as it stood. -/
theorem rsenc_eq_ok : rsenc s = .ok (min s.lenN 255 - 8) 8
    { s with mem := s.mem.writeBlock s.srcA (rsParity s.cfg (s.mem.readBlock s.srcA s.lenN)) } := by
  rw [rsenc, if_neg (not_lt.2 hlen), if_neg (not_not.2 hsrc)]

theorem exec_rsenc : ∃ t, exec .rsenc s = .next t ∧
    t = { s with phase := .idle, csr := doneCsr s.csr (min s.lenN 255 - 8) 8, mem := t.mem } ∧
    t.mem = s.mem.writeBlock s.srcA (rsParity s.cfg (s.mem.readBlock s.srcA s.lenN)) :=
  exec_of_ok_mem (i := .rsenc) (rsenc_eq_ok hlen hsrc)

theorem of_exec_rsenc {t : State} (hexec : exec .rsenc s = .next t) :
    t = { s with phase := .idle, csr := doneCsr s.csr (min s.lenN 255 - 8) 8, mem := t.mem } ∧
    t.mem = s.mem.writeBlock s.srcA (rsParity s.cfg (s.mem.readBlock s.srcA s.lenN)) := by
  obtain ⟨t', hexec', h⟩ := exec_rsenc hlen hsrc
  obtain rfl : t = t' := Host.Outcome.next.inj (hexec.symm.trans hexec')
  exact h

end

/-- Settles O48: the checks in their order, and the bytes of the written block, which are the remainder by
`rsParity_readBlock`. -/
theorem rsencWritesParity : Obligations.RsencWritesParity := by
  refine fun s => ⟨fun hlen => exec_of_error (i := .rsenc) (rsenc_badLen hlen),
    fun hlen hsrc => exec_of_error (i := .rsenc) (rsenc_badSrc hlen hsrc), fun hlen hsrc => ?_⟩
  obtain ⟨t, hexec, ht, hmem⟩ := exec_rsenc hlen hsrc
  refine ⟨t, hexec, ht, fun i hi => ?_, fun a ha => ?_⟩ <;> rw [hmem]
  · rw [Memory.read_writeBlock_inside _ _ _ _ 0 (by simpa using hi), rsParity_readBlock _ _ _ hlen]
  · exact Memory.read_writeBlock_outside _ _ _ _ (by simpa using ha)

/-! ## The region after RSENC (R193, R194) -/

/-- A region with its parity bytes written: these and the data, of the first 255 bytes or of any other number. -/
theorem readBlock_writeBlock_rsParity (m : Memory) (a : Nat) (c : Cfg) (region : List Byte) {n : Nat} (hn : 8 ≤ n) :
    (m.writeBlock a (rsParity c region)).readBlock a n = rsParity c region ++ m.readBlock (a + 8) (n - 8) := by
  have h := m.readBlock_writeBlock_append a (n - 8) (rsParity c region)
  rwa [length_rsParity, Nat.add_sub_cancel' hn] at h

/-- The parity bytes of a region that has its parity bytes already are those that it has. -/
theorem rsParity_after_rsParity (m : Memory) (a : Nat) (c : Cfg) {n : Nat} (hn : 8 ≤ n) :
    rsParity c ((m.writeBlock a (rsParity c (m.readBlock a n))).readBlock a n) =
      (m.writeBlock a (rsParity c (m.readBlock a n))).readBlock a 8 := by
  have hheld := m.readBlock_writeBlock a (rsParity c (m.readBlock a n))
  rw [length_rsParity] at hheld
  rw [hheld, readBlock_writeBlock_rsParity _ _ _ _ hn, ← Memory.drop_readBlock,
    rsParity_append _ _ _ (length_rsParity _ _)]

/-- At a root of the generator the encoded region is 0. -/
theorem polyEval_encoded (m : Memory) (a : Nat) (c : Cfg) {n j : Nat} (hn : 8 ≤ n) (hj : j < 8) :
    polyEval ((m.writeBlock a (rsParity c (m.readBlock a n))).readBlock a (min n 255))
      (alphaPow ((c.rsFcr + j) * c.rsPrim)) = 0 := by
  rw [readBlock_writeBlock_rsParity _ _ _ _ (by omega), rsParity_readBlock _ _ _ hn]
  exact polyEval_codeword c _ j hj

/-- A second RSENC completes and leaves every byte as it was. -/
theorem rsenc_twice {s t : State} (hlen : 8 ≤ s.lenN) (hsrc : legal s.cfg s.srcA s.lenN)
    (hexec : exec .rsenc s = .next t) : ∃ u, exec .rsenc t = .next u ∧ ∀ a, u.mem.read a = t.mem.read a := by
  obtain ⟨ht, hmem⟩ := of_exec_rsenc hlen hsrc hexec
  have hcfg : t.cfg = s.cfg := by rw [ht]
  have hsrcA : t.srcA = s.srcA := by rw [ht]
  have hlenN : t.lenN = s.lenN := by rw [ht]
  obtain ⟨u, hsecond, -, humem⟩ := exec_rsenc (s := t) (by rwa [hlenN]) (by rwa [hcfg, hsrcA, hlenN])
  refine ⟨u, hsecond, fun a => ?_⟩
  rw [humem, hcfg, hsrcA, hlenN, hmem, rsParity_after_rsParity _ _ _ hlen, Memory.read_writeBlock_readBlock]

/-! ## The field (R190) -/

/-- The product with α as a shift and a reduction by 0x11d. -/
theorem gfDouble_eq_shift (a : Byte) : gfDouble a = (a <<< 1) ^^^ (if a.getLsbD 7 then 0x1D else 0) := by
  unfold gfDouble
  split <;> simp

/-- α has order dividing 255, so that the exponents may be taken modulo 255. -/
theorem alphaIter_period : alphaIter 255 = 1 := by decide +kernel

/-- Each power of α is 2 times the one before, also where the exponent wraps. -/
theorem alphaPow_succ (n : Nat) : alphaPow (n + 1) = gfMul 2 (alphaPow n) := by
  rw [show (2 : Byte) = 2#8 from rfl, gfMul_two, alphaPow, alphaPow]
  by_cases hwrap : n % 255 = 254
  · rw [show (n + 1) % 255 = 0 by omega, hwrap]
    exact alphaIter_period.symm
  · rw [show (n + 1) % 255 = n % 255 + 1 by omega, alphaIter]

/-- Settles O49: the laws of the field and of the generator, `polyEval_encoded` for the codeword, and `rsenc_twice`. -/
theorem rsencMakesCodeword : Obligations.RsencMakesCodeword := by
  refine ⟨fun a b c => ⟨gfMul_xor_left a b c, gfMul_xor_right a b c, gfMul_zero_right a, gfMul_one_right a,
      gfMul_comm a b, gfMul_assoc a b c, (gfMul_two a).trans (gfDouble_eq_shift a)⟩,
    rfl, alphaPow_succ, fun x => ⟨polyEval_nil x, fun c cs => by rw [polyEval_cons, gfMul_comm]⟩,
    fun c => ⟨(rsGen_facts c).1, (rsGen_facts c).2, rsGen_root c⟩, fun s t hlen hsrc hexec => ⟨fun j hj => ?_, ?_⟩⟩
  · rw [(of_exec_rsenc hlen hsrc hexec).2]
    exact polyEval_encoded _ _ _ hlen hj
  · exact rsenc_twice hlen hsrc hexec

end Sys2Proof.Machine
end

section
/-! PROOFS of the L2 multiplexer family (44_l2_multiplexer.md): the checks of the input commands in their order, the
frame that L2FRAME builds and where it stops, the region of a program and its packing, the data region with the drain of
the AAS queues, and header spreading. -/

namespace Sys2Proof.Machine

/-! ## The checks of AUDQ, PSDSET and AASQ (R202 to R204, R273) -/

section
variable {s : State} {p : Nat}

theorem audq_badProg (hp : s.cfg.nprog ≤ p) : audq p s = .error .badProg (toWord p) := if_pos hp

theorem psdset_badProg (hp : s.cfg.nprog ≤ p) : psdset p s = .error .badProg (toWord p) := if_pos hp

variable (hp : p < s.cfg.nprog)
include hp

theorem audq_badLen (h : s.lenN < 7 ∨ s.cfg.area p < s.lenN - 7 + 1 + s.cfg.locBytes 1) :
    audq p s = .error .badLen s.lat.len := by
  rw [audq, if_neg (not_le.2 hp), if_pos h]

theorem psdset_badLen (h : s.lenN ≠ s.cfg.psdBytes) : psdset p s = .error .badLen s.lat.len := by
  rw [psdset, if_neg (not_le.2 hp), if_pos h]

section
variable (hlen : s.lenN = s.cfg.psdBytes)
include hlen

theorem psdset_badSrc (h : ¬legal s.cfg s.srcA s.cfg.psdBytes) : psdset p s = .error .addrRange s.lat.src := by
  rw [psdset, if_neg (not_le.2 hp), if_neg (not_not.2 hlen), if_pos h]

theorem psdset_full (hsrc : legal s.cfg s.srcA s.cfg.psdBytes) (h : (s.progAt p).psd ≠ none) :
    psdset p s = .error .queueFull (toWord p) := by
  rw [psdset, if_neg (not_le.2 hp), if_neg (not_not.2 hlen), if_neg (not_not.2 hsrc), if_pos h]

end

variable (hlen : ¬(s.lenN < 7 ∨ s.cfg.area p < s.lenN - 7 + 1 + s.cfg.locBytes 1))
include hlen

theorem audq_badSrc (h : ¬legal s.cfg s.srcA s.lenN) : audq p s = .error .addrRange s.lat.src := by
  rw [audq, if_neg (not_le.2 hp), if_neg hlen, if_pos h]

variable (hsrc : legal s.cfg s.srcA s.lenN)
include hsrc

theorem audq_badAdts (h : adtsLength (s.mem.readBlock s.srcA s.lenN) ≠ s.lenN) :
    audq p s = .error .badAdts (toWord (adtsLength (s.mem.readBlock s.srcA s.lenN))) := by
  rw [audq, if_neg (not_le.2 hp), if_neg hlen, if_neg (not_not.2 hsrc)]
  exact if_pos h

theorem audq_full (hhdr : adtsLength (s.mem.readBlock s.srcA s.lenN) = s.lenN)
    (h : (s.progAt p).audq.length = s.cfg.audqDepth) : audq p s = .error .queueFull (toWord p) := by
  rw [audq, if_neg (not_le.2 hp), if_neg hlen, if_neg (not_not.2 hsrc)]
  exact (if_neg (not_not.2 hhdr)).trans (if_pos h)

end

section
variable {s : State} {q : Port}

theorem aasq_badLen (h : s.lenN < 2) : aasq q s = .error .badLen s.lat.len := if_pos h

variable (hlen : 2 ≤ s.lenN)
include hlen

theorem aasq_badSrc (h : ¬legal s.cfg s.srcA s.lenN) : aasq q s = .error .addrRange s.lat.src := by
  rw [aasq, if_neg (not_lt.2 hlen), if_pos h]

variable (hsrc : legal s.cfg s.srcA s.lenN)
include hsrc

theorem aasq_badHdlc {k : Nat} (h : hdlcBad (s.mem.readBlock s.srcA s.lenN) = some k) :
    aasq q s = .error .badHdlc (toWord (s.srcA + k)) := by
  rw [aasq, if_neg (not_lt.2 hlen), if_neg (not_not.2 hsrc)]
  simp only [h]

theorem aasq_full (hframe : hdlcBad (s.mem.readBlock s.srcA s.lenN) = none)
    (h : s.cfg.aasQbytes < (queueOf s.l2.aasq q).length + s.lenN) :
    aasq q s = .error .queueFull (q.setWidth 32) := by
  rw [aasq, if_neg (not_lt.2 hlen), if_neg (not_not.2 hsrc)]
  simp only [hframe, h, if_true]

end

/-- The bytes of a block that break the form of one HDLC frame: an end that is no flag, and a flag inside (R204). -/
theorem hdlcOffends_readBlock (m : Memory) (a : Nat) {n i : Nat} (hi : i < n) :
    hdlcOffends (m.readBlock a n) i = true ↔
      ((i = 0 ∨ i = n - 1) ∧ m.read (a + i) ≠ 0x7e) ∨ (0 < i ∧ i < n - 1 ∧ m.read (a + i) = 0x7e) := by
  rw [hdlcOffends, Memory.length_readBlock, Memory.getD_readBlock _ _ _ _ _ hi]
  by_cases hend : i = 0 ∨ i = n - 1
  · have hnotInside : ¬(0 < i ∧ i < n - 1) := by omega
    simp [hend, hdlcFlag, ← and_assoc, hnotInside]
  · have hinside : 0 < i ∧ i < n - 1 := by omega
    simp [hend, hdlcFlag, hinside]

/-- The lowest byte of a block that breaks the form is the one found. -/
theorem hdlcBad_readBlock_eq_some {m : Memory} {a n k : Nat} (hk : k < n)
    (hbad : ((k = 0 ∨ k = n - 1) ∧ m.read (a + k) ≠ 0x7e) ∨ (0 < k ∧ k < n - 1 ∧ m.read (a + k) = 0x7e))
    (hlow : ∀ j, j < k → ((j = 0 ∨ j = n - 1) → m.read (a + j) = 0x7e) ∧
      (0 < j → j < n - 1 → m.read (a + j) ≠ 0x7e)) :
    hdlcBad (m.readBlock a n) = some k := by
  refine hdlcBad_eq_some _ k (by simpa using hk) ((hdlcOffends_readBlock m a hk).2 hbad) fun j hj => ?_
  rw [← Bool.not_eq_true, hdlcOffends_readBlock m a (hj.trans hk)]
  obtain ⟨hends, hinside⟩ := hlow j hj
  rintro (⟨hend, hne⟩ | ⟨hpos, hlt, heq⟩)
  · exact hne (hends hend)
  · exact hinside hpos hlt heq

/-- Settles O53: each check, with the ones before it passing; the offending byte by `hdlcBad_readBlock_eq_some`. -/
theorem l2InputErrors : Obligations.L2InputErrors := by
  refine fun s => ⟨fun p hp => ⟨?_, ?_⟩, fun p hp h => ?_,
    fun p hp h7 hfit => ⟨fun h => ?_, fun hsrc f hf => ⟨fun h => ?_, fun hhdr h => ?_⟩⟩,
    fun p hp => ⟨fun h => ?_, fun hlen h => ?_, fun hlen hsrc h => ?_⟩,
    fun q => ⟨fun h => ?_, fun hlen h => ?_,
      fun hlen hsrc => ⟨fun k hk hbad hlow => ?_, fun hfirst hlast hmid h => ?_⟩⟩⟩
  · exact exec_of_error (i := .audq p) (audq_badProg hp)
  · exact exec_of_error (i := .psdset p) (psdset_badProg hp)
  · exact exec_of_error (i := .audq p) (audq_badLen hp h)
  · exact exec_of_error (i := .audq p) (audq_badSrc hp (by omega) h)
  · rw [← adtsLength_readBlock _ _ _ h7] at hf
    subst hf
    exact exec_of_error (i := .audq p) (audq_badAdts hp (by omega) hsrc h)
  · rw [← adtsLength_readBlock _ _ _ h7] at hf
    exact exec_of_error (i := .audq p) (audq_full hp (by omega) hsrc (hf.symm.trans hhdr) h)
  · exact exec_of_error (i := .psdset p) (psdset_badLen hp h)
  · exact exec_of_error (i := .psdset p) (psdset_badSrc hp hlen h)
  · exact exec_of_error (i := .psdset p) (psdset_full hp hlen hsrc h)
  · exact exec_of_error (i := .aasq q) (aasq_badLen h)
  · exact exec_of_error (i := .aasq q) (aasq_badSrc hlen h)
  · exact exec_of_error (i := .aasq q) (aasq_badHdlc hlen hsrc (hdlcBad_readBlock_eq_some hk hbad hlow))
  · exact exec_of_error (i := .aasq q)
      (aasq_full hlen hsrc (hdlcBad_readBlock_eq_none hfirst hlast hmid) h)

/-! ## The frame of L2FRAME (R200, R214, R224, R225) -/

/-- What packing program `p` with state `v` yields, from its packed audio and its PSD block (R224). -/
def ProgState.packed (f : FrameFns) (c : Cfg) (n p : Nat) (v : ProgState) (a : PackState) (psd : List Byte) : Packed :=
  ⟨regionBytes f c n p v.seq a psd, ⟨a.seq, a.part, a.queue, none⟩, overrun c n a, v.audq.length - a.queue.length⟩

/-- Where each program packs, all of them do. -/
theorem packAll_eq_some {f : FrameFns} {c : Cfg} {n p : Nat} {vs : List ProgState} {r : Nat → Packed}
    (h : ∀ i, i < vs.length → packProg f c n (p + i) (vs.getD i ProgState.reset) = some (r (p + i))) :
    packAll f c n p vs = some ((List.range' p vs.length).map r) := by
  induction vs generalizing p with
  | nil => rfl
  | cons v vs ih =>
    have hhead := h 0 (by simp)
    have htail := ih (p := p + 1) fun i hi => by
      simpa [Nat.add_assoc, Nat.add_comm 1 i] using h (i + 1) (by simpa using hi)
    simp only [Nat.add_zero, List.getD_cons_zero] at hhead
    simp only [packAll, hhead, htail, List.length_cons, List.range'_succ, List.map_cons]

section
variable {s : State}

/-- The packing of the programs of a state, each with its PSD block. -/
theorem packAll_progs {f : FrameFns} (hs : s.shapeOk) {psd : Nat → List Byte} {a : Nat → PackState}
    (h : ∀ p, p < s.cfg.nprog → (s.progAt p).psd = some (psd p) ∧
      packAudio s.cfg s.l2.frameCnt p (s.progAt p) = some (a p)) :
    packAll f s.cfg s.l2.frameCnt 0 s.l2.progs = some ((List.range s.cfg.nprog).map
      fun p => (s.progAt p).packed f s.cfg s.l2.frameCnt p (a p) (psd p)) := by
  obtain ⟨-, -, hprogs, -⟩ := hs
  rw [List.range_eq_range', ← hprogs]
  refine packAll_eq_some fun i hi => ?_
  rw [hprogs] at hi
  obtain ⟨hpsd, haudio⟩ := h i hi
  rw [Nat.zero_add]
  change packProg f s.cfg s.l2.frameCnt i (s.progAt i) = _
  simp only [packProg, hpsd, haudio]
  rfl

/-- The frame stalls exactly when a program has no PSD block or runs out of sub-frames (R213). -/
theorem packAll_progs_eq_none {f : FrameFns} (hs : s.shapeOk) :
    packAll f s.cfg s.l2.frameCnt 0 s.l2.progs = none ↔ ∃ p, p < s.cfg.nprog ∧
      ((s.progAt p).psd = none ∨ packAudio s.cfg s.l2.frameCnt p (s.progAt p) = none) := by
  obtain ⟨-, -, hprogs, -⟩ := hs
  have hprog : ∀ p (hp : p < s.l2.progs.length), s.l2.progs[p] = s.progAt p :=
    fun p hp => (List.getD_eq_getElem _ _ hp).symm
  rw [packAll_eq_none, ← hprogs]
  simp only [Nat.zero_add, packProg_eq_none]
  constructor
  · rintro ⟨p, hp, h⟩
    exact ⟨p, hp, by rwa [hprog p hp] at h⟩
  · rintro ⟨p, hp, h⟩
    exact ⟨p, hp, by rwa [hprog p hp]⟩

theorem l2frameWith_stall {f : FrameFns} (h : packAll f s.cfg s.l2.frameCnt 0 s.l2.progs = none) :
    l2frameWith f s = .stall := by
  simp only [l2frameWith, h]

variable {f : FrameFns} {rs : List Packed} (hrs : packAll f s.cfg s.l2.frameCnt 0 s.l2.progs = some rs)
include hrs

theorem l2frameWith_badDst (h : ¬legal s.cfg s.dstA s.cfg.frameBits) :
    l2frameWith f s = .error .addrRange s.lat.dst := by
  simp only [l2frameWith, hrs, h, not_false_eq_true, if_true]

theorem l2frameWith_eq_ok (hdst : legal s.cfg s.dstA s.cfg.frameBits) :
    l2frameWith f s = .ok (rs.map Packed.taken).sum s.cfg.frameBits (l2Commit f s rs) := by
  simp only [l2frameWith, hrs, hdst, not_true, if_false]

end

/-- Settles O55: the stall by `packAll_progs_eq_none`, and the output range where all programs pack. -/
theorem l2frameStops : Obligations.L2frameStops := by
  refine fun s hs => ⟨fun h => ?_, fun h hdst => ?_⟩
  · exact exec_of_stall (i := .l2frame) (l2frameWith_stall ((packAll_progs_eq_none hs).2 h))
  · cases hrs : packAll Config.frameFns s.cfg s.l2.frameCnt 0 s.l2.progs with
    | some rs => exact exec_of_error (i := .l2frame) (l2frameWith_badDst hrs hdst)
    | none =>
      obtain ⟨p, hp, hstall⟩ := (packAll_progs_eq_none hs).1 hrs
      obtain ⟨hpsd, haudio⟩ := h p hp
      exact absurd hstall (not_or.2 ⟨hpsd, haudio⟩)

/-- A function's list over the programs, read at a program. -/
theorem getD_map_range {α : Type} (g : Nat → α) (d : α) {n p : Nat} (hp : p < n) :
    ((List.range n).map g).getD p d = g p := by
  simp [List.getD, hp]

/-- The overrun condition as the statements write it (R214). -/
theorem overrun_eq (c : Cfg) (n : Nat) (a : PackState) :
    overrun c n a = decide (a.seq + 8 < (n + 1) * c.targetNop) := rfl

/-- The mask bit of a program is its own warning (R214). -/
theorem getLsbD_warnBits_range (r : Nat → Packed) {n p : Nat} (hp : p < n) :
    (warnBits 0 ((List.range n).map r)).getLsbD p = (decide (p < 32) && (r p).warn) := by
  rw [getLsbD_warnBits, Nat.sub_zero, List.map_map, getD_map_range _ _ hp]
  simp

/-- Settles O54: the effects of a frame on the packing of each program, which `packAll_progs` lists. -/
theorem l2frameBuildsFrame : Obligations.L2frameBuildsFrame := by
  intro s hs hdst psd a h
  have hrs := packAll_progs (f := Config.frameFns) hs h
  have hexec := exec_eq .l2frame s
  rw [completionOf, l2frameWith_eq_ok hrs hdst, List.map_map] at hexec
  refine ⟨_, hexec, rfl, rfl, ?_, rfl, rfl, fun p hp => ⟨?_, ?_⟩, ?_, fun x hx => ?_, fun x hx => ?_⟩
  · simp [l2Commit]
  · change (List.map Packed.prog _).getD p _ = _
    rw [List.map_map, getD_map_range _ _ hp]
    rfl
  · change (s.csr.warnmask ||| warnBits 0 _).getLsbD p = _
    rw [BitVec.getLsbD_or, getLsbD_warnBits_range _ hp]
    by_cases h32 : p < 32
    · simp [h32, ProgState.packed, overrun_eq]
    · simp [h32, BitVec.getLsbD_of_ge s.csr.warnmask p (not_lt.1 h32)]
  · change (s.csr.flags.warn || _) = true ↔ _
    simp [ProgState.packed, overrun_eq]
  · change (s.mem.writeBlock s.dstA _).read _ = _
    rw [Memory.read_writeBlock_inside _ _ _ _ 0 (by simpa using hx)]
    simp [framePayload, List.flatMap_map, List.getD, hx, ProgState.packed]
  · change (s.mem.writeBlock s.dstA _).read _ = _
    exact Memory.read_writeBlock_outside _ _ _ _ (by simpa using hx)

/-! ## The region of a program (R201, R206 to R208, R212, R215) -/

/-- The parts of a region in their order. -/
theorem regionBytes_eq (f : FrameFns) (c : Cfg) (n p s0 : Nat) (a : PackState) (psd : List Byte) :
    regionBytes f c n p s0 a psd = rsParity c (regionBytes f c n p s0 a psd) ++
      controlWord f p s0 a.ends.length n ++ locatorBytes f c a.ends ++ headerExt f p n ++ a.aud ++
      List.replicate (a.room c (c.area p)) c.padByte ++ psd := by
  rw [rsParity_regionBytes]
  simp only [regionBytes, regionBody, audioField, List.append_assoc]

/-- Locators, audio and padding fill the area (R212). -/
theorem PackState.within.fills {c : Cfg} {area : Nat} {a : PackState} (h : a.within c area) :
    a.aud.length + a.room c area + c.locBytes a.ends.length = area := by
  simp only [PackState.within] at h
  simp only [PackState.room]
  omega

/-- Settles O56: the parts by `regionBytes_eq`, and the sizes because packing within the budget fits the area. -/
theorem regionLayout : Obligations.RegionLayout := by
  refine ⟨fun _ _ => rfl, fun _ _ => ⟨rfl, rfl⟩, fun f c n p v a psd hc hp hv hpsd ha => ?_⟩
  obtain ⟨-, -, -, -, hl2⟩ := Cfg.valid_facts hc
  obtain ⟨hwithin, -⟩ := packAudio_facts hv ha
  refine ⟨length_regionBytes f hl2 n p v.seq hp a psd hwithin hpsd, _, _, regionBytes_eq f c n p v.seq a psd,
    length_rsParity _ _, rfl, fun b hb => List.eq_of_mem_replicate hb, ?_⟩
  rw [List.length_replicate]
  exact hwithin.fills

/-! ## Packing (R205, R208 to R211, R213) -/

/-- Packing starts with nothing where no sub-frame is split. -/
theorem packStart_of_none (c : Cfg) {v : ProgState} (h : v.part = none) :
    packStart c v = ⟨[], [], v.seq, none, v.audq⟩ := by
  simp only [packStart, h]

/-- It starts with the rest of a split sub-frame, and the CRC that this completes (R209). -/
theorem packStart_of_some (c : Cfg) {v : ProgState} {q : Partial} (h : v.part = some q) :
    packStart c v = ⟨q.sf.drop q.k ++ [crcFin c (crcUpd c q.crc (q.sf.drop q.k))], [(q.sf.drop q.k).length],
      v.seq + 1, none, v.audq⟩ := by
  simp [packStart, h, PackState.addEnd]

section
variable {c : Cfg} {area target : Nat} {a : PackState}

/-- At the target packing ends, whatever waits (R210). -/
theorem packGreedy_reached (h : target ≤ a.seq) (queue : List (List Byte)) :
    packGreedy c area target queue a = some { a with queue := queue } := by
  cases queue <;> simp only [packGreedy, if_neg (not_lt.2 h)]

variable (h : a.seq < target)
include h

/-- Below the target an empty queue is a stall (R213). -/
theorem packGreedy_nil : packGreedy c area target [] a = none := if_pos h

variable {sf : List Byte} {rest : List (List Byte)}

/-- A head that fits is appended with its CRC (R210). -/
theorem packGreedy_fits (hfit : a.fits c area sf) : packGreedy c area target (sf :: rest) a =
    packGreedy c area target rest (a.addEnd sf (crcOf c sf)) := by
  rw [packGreedy, if_pos h, if_pos hfit]

/-- A head that does not fit is split, and packing ends (R211). -/
theorem packGreedy_split (hfit : ¬a.fits c area sf) : packGreedy c area target (sf :: rest) a =
    some (packSplit c area a sf rest) := by
  rw [packGreedy, if_pos h, if_neg hfit]

end

/-- Each sub-frame of the queue fits after those before it. -/
def PackState.fitsAll (c : Cfg) (area : Nat) (queue : List (List Byte)) (a : PackState) : Prop :=
  ∀ m, m < queue.length →
    a.aud.length + ((queue.take (m + 1)).map (fun sf => sf.length + 1)).sum + c.locBytes (a.ends.length + m + 1) ≤ area

/-- The queue fits iff its head does and the rest fits after the head. -/
theorem PackState.fitsAll_cons (c : Cfg) (area : Nat) (sf : List Byte) (rest : List (List Byte)) (a : PackState)
    (crc : Byte) : a.fitsAll c area (sf :: rest) ↔ a.fits c area sf ∧ (a.addEnd sf crc).fitsAll c area rest := by
  simp only [PackState.fitsAll, List.length_cons, Nat.forall_lt_succ_left]
  refine and_congr (by simp [Nat.add_assoc]) (forall₂_congr fun m _ => ?_)
  rw [show a.ends.length + (m + 1) + 1 = a.ends.length + 1 + m + 1 by omega]
  simp only [PackState.addEnd, List.take_succ_cons, List.map_cons, List.sum_cons, List.length_append, List.length_cons,
    List.length_nil, Nat.zero_add]
  omega

/-- Packing stalls exactly when the whole queue fits and leaves SEQ below the target (R213). -/
theorem packGreedy_eq_none_iff (c : Cfg) (area target : Nat) (queue : List (List Byte)) (a : PackState) :
    packGreedy c area target queue a = none ↔ a.seq + queue.length < target ∧ a.fitsAll c area queue := by
  induction queue generalizing a with
  | nil => simp [packGreedy, PackState.fitsAll]
  | cons sf rest ih =>
    by_cases hseq : a.seq < target
    · rw [a.fitsAll_cons c area sf rest (crcOf c sf)]
      by_cases hfit : a.fits c area sf
      · have hsucc : a.seq + 1 + rest.length = a.seq + (rest.length + 1) := by omega
        rw [packGreedy_fits hseq hfit, ih]
        simp only [hfit, true_and, PackState.addEnd, List.length_cons, hsucc]
      · simp only [packGreedy_split hseq hfit, hfit, false_and, and_false, reduceCtorEq]
    · rw [packGreedy_reached (not_lt.1 hseq), List.length_cons]
      simp only [reduceCtorEq, false_iff]
      omega

/-- The carryover comes first, with the CRC of the whole payload (R209). -/
theorem packAudio_carryover {c : Cfg} {n p : Nat} {v : ProgState} {a : PackState} (hv : v.budgetOk c n p)
    (ha : packAudio c n p v = some a) {q : Partial} (hq : v.part = some q) :
    (∃ rest, a.aud = q.sf.drop q.k ++ crcFin c (crcUpd c c.crcInit q.sf) :: rest) ∧
    a.ends.head? = some (q.sf.length - q.k) ∧ v.seq + 1 ≤ a.seq := by
  obtain ⟨-, -, -, ⟨aud, haud⟩, ⟨ends, hends⟩, hseq, -⟩ := packAudio_facts hv ha
  obtain ⟨-, -, hpart⟩ := hv
  obtain ⟨-, -, hcrc, -⟩ := hpart q hq
  rw [packStart_of_some c hq] at haud hends hseq
  rw [hcrc, crcUpd_split] at haud
  exact ⟨⟨aud, by simpa using haud⟩, by simp [hends], hseq⟩

/-- Settles O57: the equations of `packGreedy`, its stall by `packGreedy_eq_none_iff`, and the bounds of
`packAudio_facts`. -/
theorem packingFinishesCarryover : Obligations.PackingFinishesCarryover := by
  refine ⟨fun _ _ _ => ⟨rfl, rfl⟩, fun c n p v => ⟨fun h => ?_, fun q h => ?_⟩,
    fun c area target a sf rest => ⟨packGreedy_nil, fun h => ⟨?_, ?_⟩, fun h hfit => ?_, fun h hfit room hroom => ?_⟩,
    packGreedy_eq_none_iff, fun c n p v a hv ha => ⟨fun q hq => packAudio_carryover hv ha hq, ?_⟩⟩
  · rw [packAudio, packStart_of_none c h, frameTarget]
  · rw [packAudio, packStart_of_some c h, frameTarget]
  · exact packGreedy_reached h []
  · exact packGreedy_reached h (sf :: rest)
  · exact packGreedy_fits h hfit
  · subst hroom
    rw [packGreedy_split h (not_le.2 hfit), packSplit]
    exact ⟨fun hnone => congrArg some (if_pos hnone), fun hsome => congrArg some (if_neg hsome.ne')⟩
  · obtain ⟨hwithin, hlow, hhigh, -, -, -, -, -, hsplit⟩ := packAudio_facts hv ha
    refine ⟨hlow, le_max_of_le_right hhigh, fun hpart => ?_, hwithin⟩
    obtain ⟨q, hq⟩ := Option.ne_none_iff_exists'.1 hpart
    obtain ⟨-, -, -, hbelow⟩ := hsplit q hq
    exact hbelow

/-! ## The data region (R216 to R218) -/

/-- At a marker position only the position moves (R218). -/
theorem fdsStream_of_marker {c : Cfg} {z : FdsState} (h : z.fdsPos % c.bbmPeriod < 4) :
    fdsStream c z = (c.bbmBytes.getD (z.fdsPos % c.bbmPeriod) 0, { z with fdsPos := z.fdsPos + 1 }) := if_pos h

/-- Elsewhere the byte is one of fds_byte(), with the position moved on (R218). -/
theorem fdsStream_of_fdsByte {c : Cfg} {z : FdsState} (h : 4 ≤ z.fdsPos % c.bbmPeriod) :
    fdsStream c z = fdsByte c { z with fdsPos := z.fdsPos + 1 } := if_neg (not_lt.2 h)

/-- Queues that are all empty stay as they are along the stream. -/
theorem fdsTake_empty (c : Cfg) (n : Nat) (z : FdsState) (h : ∀ e ∈ z.aasq, e.2 = []) :
    ∀ e ∈ (fdsTake c n z).2.aasq, e.2 = [] :=
  fdsTake_induction c (fun y => ∀ e ∈ y.aasq, e.2 = [])
    (fun y hy => by rw [(fdsStream_empty c y hy).1]; exact hy) n z h

section
variable (f : FrameFns) (c : Cfg) (n pos : Nat) (z : FdsState)

@[simp] theorem length_cccSlice : (cccSlice c pos).length = c.cccWidth := by simp [cccSlice]

theorem getD_cccSlice {i : Nat} (h : i < c.cccWidth) :
    (cccSlice c pos).getD i 0 = c.cccMsg.getD ((pos + i) % c.cccMsg.length) 0 := by
  rw [cccSlice, getD_map_range _ _ h]

variable {c} (hdata : 0 < c.dataBytes)
include hdata

/-- The parts of a data region, and the state that the stream leaves. -/
theorem dataRegion_eq : dataRegion f c n pos z =
    (f.sync n :: (cccSlice c pos ++ (fdsTake c (fdsBytes c) z).1), (fdsTake c (fdsBytes c) z).2) := by
  rw [dataRegion, if_neg hdata.ne']
  rfl

theorem nextCccPos_eq : nextCccPos c pos = (pos + c.cccWidth) % c.cccMsg.length := by
  rw [nextCccPos, if_neg hdata.ne']

/-- The CCC slice stands after the sync byte. -/
theorem getD_dataRegion_ccc {i : Nat} (hi : i < c.cccWidth) :
    (dataRegion f c n pos z).1.getD (1 + i) 0 = c.cccMsg.getD ((pos + i) % c.cccMsg.length) 0 := by
  rw [dataRegion_eq f n pos z hdata, Nat.add_comm, List.getD_cons_succ, List.getD_append _ _ _ _ (by simpa using hi),
    getD_cccSlice c pos hi]

/-- The stream stands after the CCC slice. -/
theorem getD_dataRegion_fds {i : Nat} (hi : i < fdsBytes c) :
    (dataRegion f c n pos z).1.getD (1 + c.cccWidth + i) 0 = (fdsStream c (fdsTake c i z).2).1 := by
  rw [dataRegion_eq f n pos z hdata, show 1 + c.cccWidth + i = c.cccWidth + i + 1 by omega, List.getD_cons_succ,
    List.getD_append_right _ _ _ _ (by simp), length_cccSlice, Nat.add_sub_cancel_left, getD_fdsTake _ _ _ _ hi]

end

/-- Settles O58: the running state after `i` bytes is that of `fdsTake`, whose position is FDSPOS + i. -/
theorem dataRegionLayout : Obligations.DataRegionLayout := by
  refine fun f c n pos z hc => ⟨fun h => ⟨if_pos h, if_pos h⟩, fun hdata d hd => ?_⟩
  subst hd
  have hroom : 1 + c.cccWidth + fdsBytes c = c.dataBytes := by
    obtain ⟨-, -, -, hsize, -⟩ := Cfg.l2_facts hc
    simp only [fdsBytes]
    omega
  have hpos : ∀ i, (fdsTake c i z).2.fdsPos = z.fdsPos + i := fun i => fdsTake_fdsPos c i z
  refine ⟨?_, ?_, fun i hi => getD_dataRegion_ccc f n pos z hdata hi, fun i hi => ⟨fun h => ?_, fun h hempty => ?_⟩,
    ⟨fun i => (fdsTake c i z).2, rfl, ?_, fun i hi => ⟨fun h => ?_, fun h => ?_⟩⟩, ?_, nextCccPos_eq pos hdata⟩
  · rw [dataRegion_eq f n pos z hdata, ← hroom]
    simp only [List.length_cons, List.length_append, length_cccSlice, length_fdsTake]
    omega
  · rw [dataRegion_eq f n pos z hdata, List.getD_cons_zero]
  · rw [getD_dataRegion_fds f n pos z hdata hi, fdsStream_marker c _ (by rwa [hpos]), hpos]
  · rw [getD_dataRegion_fds f n pos z hdata hi]
    exact (fdsStream_empty c _ (fdsTake_empty c i z hempty)).2 (by rwa [hpos])
  · rw [dataRegion_eq f n pos z hdata, fdsBytes]
  · rw [← hpos] at h
    exact (fdsTake_succ c i z).trans (congrArg Prod.snd (fdsStream_of_marker h))
  · rw [← hpos] at h
    have hbyte := fdsStream_of_fdsByte h
    rw [getD_dataRegion_fds f n pos z hdata hi]
    exact (congrArg (Prod.mk _) (fdsTake_succ c i z)).trans hbyte
  · rw [dataRegion_eq f n pos z hdata, hpos, fdsBytes]

/-! ## The drain of the AAS queues (R219 to R221) -/

/-- Where every entry is empty, so is the queue of every port. -/
theorem queueOf_eq_nil {l : List (Port × List Byte)} (h : ∀ e ∈ l, e.2 = []) (q : Port) : queueOf l q = [] := by
  by_contra hne
  rw [queueOf] at hne
  split at hne
  · next e he => exact hne (h e (List.mem_of_find?_eq_some he))
  · exact hne rfl

/-- Past the cursor the search goes first, then from the start (R219). -/
theorem nextPort_some (l : List (Port × List Byte)) (d : Port) :
    nextPort l (some d) = ((busyPorts l).find? (fun q => d < q)).or (busyPorts l).head? := by
  rw [nextPort]
  cases (busyPorts l).find? (fun q => d < q) <;> rfl

section
variable {l : List (Port × List Byte)} (hl : l.Pairwise (fun a b => a.1 < b.1))
include hl

/-- nextport answers NONE exactly when nothing waits. -/
theorem nextPort_eq_none_iff_queueOf {c : Option Port} : nextPort l c = none ↔ ∀ q, queueOf l q = [] := by
  rw [nextPort_eq_none]
  exact ⟨queueOf_eq_nil, fun h e he => by rw [← queueOf_of_mem hl he, h]⟩

/-- nextport answers a port with bytes waiting. -/
theorem queueOf_nextPort {c : Option Port} {q : Port} (h : nextPort l c = some q) : queueOf l q ≠ [] := by
  obtain ⟨e, he, rfl, hne⟩ := nextPort_mem h
  rwa [queueOf_of_mem hl he]

/-- With bytes waiting above the cursor, the answer is the smallest port above it that has any. -/
theorem nextPort_above {d q r : Port} (h : nextPort l (some d) = some q) (hdr : d < r) (hr : queueOf l r ≠ []) :
    d < q ∧ ∀ r, d < r → queueOf l r ≠ [] → q ≤ r := by
  rw [nextPort_some] at h
  cases hfind : (busyPorts l).find? (fun q => d < q) with
  | none => exact absurd hdr (by simpa using List.find?_eq_none.1 hfind r ((mem_busyPorts hl r).2 hr))
  | some q' =>
    rw [hfind, Option.some_or, Option.some.injEq] at h
    subst h
    exact ⟨by simpa using List.find?_some hfind, fun r hdr hr =>
      rising_find_le (pairwise_busyPorts hl) hfind r ((mem_busyPorts hl r).2 hr) (by simpa using hdr)⟩

/-- With nothing waiting above the cursor, the answer is the smallest port that has bytes. -/
theorem nextPort_least {c : Option Port} {q : Port} (h : nextPort l c = some q)
    (habove : ∀ d r, c = some d → d < r → queueOf l r = []) : ∀ r, queueOf l r ≠ [] → q ≤ r := by
  have hhead : nextPort l c = (busyPorts l).head? := by
    cases c with
    | none => rfl
    | some d =>
      have hfind : (busyPorts l).find? (fun q => d < q) = none := by
        refine List.find?_eq_none.2 fun r hr hdr => (mem_busyPorts hl r).1 hr ?_
        exact habove d r rfl (by simpa using hdr)
      rw [nextPort_some, hfind, Option.none_or]
  intro r hr
  exact rising_head_le (pairwise_busyPorts hl) (hhead.symm.trans h) r ((mem_busyPorts hl r).2 hr)

end

section
variable {c : Cfg} {z : FdsState} {p : Port} {b : Byte} {bs : List Byte}

/-- Outside a PDU a cursor with bytes waiting stays. -/
theorem FdsState.seek_stays (hin : z.inPdu = false) (hcur : z.curPort = some p) (hq : queueOf z.aasq p ≠ []) :
    z.seek = z := by
  simp [FdsState.seek, hin, hcur, hq]

/-- Outside a PDU the cursor leaves an empty queue for where nextport points (R220). -/
theorem FdsState.seek_moves (hin : z.inPdu = false) (hempty : ∀ q, z.curPort = some q → queueOf z.aasq q = []) :
    z.seek = { z with curPort := nextPort z.aasq z.curPort } := by
  cases hcur : z.curPort with
  | none => simp [FdsState.seek, hin, hcur]
  | some q => simp [FdsState.seek, hin, hcur, hempty q hcur]

/-- Where the cursor settles on a port with bytes, fds_byte() takes the head byte. -/
theorem fdsByte_of_seek (hcur : z.seek.curPort = some p) (hq : queueOf z.aasq p = b :: bs) :
    fdsByte c z = (b, ({ z.seek with aasq := setQueue p bs z.aasq } : FdsState).afterByte c p b) := by
  simp only [fdsByte, hcur, FdsState.seek_aasq, hq]

theorem FdsState.afterByte_of_ne (hb : b ≠ hdlcFlag) : z.afterByte c p b = z := if_neg hb

/-- The flag that opens a PDU. -/
theorem FdsState.afterByte_flag_outside (hin : z.inPdu = false) :
    z.afterByte c p hdlcFlag = { z with inPdu := true } := by
  simp [FdsState.afterByte, hin]

/-- The flag that closes a PDU, when `bs` is left in the queue. -/
theorem FdsState.afterByte_flag_inside (hin : z.inPdu = true) (hq : queueOf z.aasq p = bs) :
    z.afterByte c p hdlcFlag = { (if bs = [] then z.emit c p else z) with
      inPdu := false, curPort := nextPort z.aasq (some p) } := by
  simp [FdsState.afterByte, FdsState.closePdu, hin, hq]

/-- Inside a PDU the byte is the head of the cursor's queue. -/
theorem fdsByte_inside (hin : z.inPdu = true) (hcur : z.curPort = some p) (hq : queueOf z.aasq p = b :: bs) :
    fdsByte c z = (b, ({ z with aasq := setQueue p bs z.aasq } : FdsState).afterByte c p b) := by
  have h := fdsByte_of_seek (c := c) (by rwa [FdsState.seek_inside hin]) hq
  rwa [FdsState.seek_inside hin] at h

/-- Outside one it is the head of the queue on which the cursor settles. -/
theorem fdsByte_outside (hin : z.inPdu = false) (hseek : z.seek = { z with curPort := some p })
    (hq : queueOf z.aasq p = b :: bs) : fdsByte c z =
      (b, { z with aasq := setQueue p bs z.aasq, curPort := some p, inPdu := decide (b = 0x7e) }) := by
  rw [fdsByte_of_seek (p := p) (by rw [hseek]) hq, hseek]
  by_cases hb : b = hdlcFlag
  · subst hb
    exact congrArg (Prod.mk hdlcFlag) (FdsState.afterByte_flag_outside hin)
  · have hopen : decide (b = 0x7e) = z.inPdu := (decide_eq_false hb).trans hin.symm
    rw [FdsState.afterByte_of_ne hb, hopen]

end

/-- Settles O59: nextport by where it searches, and fds_byte() by where the cursor settles and what the byte does. -/
theorem fdsDrain : Obligations.FdsDrain := by
  refine ⟨fun l c hl => ⟨nextPort_eq_none_iff_queueOf hl, fun q h => ⟨queueOf_nextPort hl h, ?_, nextPort_least hl h⟩⟩,
    fun c z p b bs hin hcur hq => ?_, fun c z p b bs hin hport hq => ?_, fun c z hin hnone => ?_⟩
  · rintro ⟨d, r, rfl, hdr, hr⟩ d' hd'
    obtain rfl := Option.some.inj hd'
    exact nextPort_above hl h hdr hr
  · rw [fdsByte_inside hin hcur hq]
    by_cases hb : b = hdlcFlag
    · subst hb
      rw [FdsState.afterByte_flag_inside (z := { z with aasq := setQueue p bs z.aasq }) hin
        ((queueOf_setQueue p p bs _).trans (if_pos rfl))]
      exact (if_neg (not_not.2 rfl)).symm
    · rw [FdsState.afterByte_of_ne hb]
      exact (if_pos hb).symm
  · refine fdsByte_outside hin ?_ hq
    rcases hport with ⟨hcur, hne⟩ | ⟨hempty, hnext⟩
    · rw [FdsState.seek_stays hin hcur hne, ← hcur]
    · rw [FdsState.seek_moves hin hempty, hnext]
  · have hempty := nextPort_eq_none.1 hnone
    rw [fdsByte_empty c z hempty, FdsState.seek_moves hin fun q _ => queueOf_eq_nil hempty q, hnone]

/-! ## Header spreading (R200, R222, R223) -/

/-- Under MSB_FIRST a byte gives its highest bit first (R223). -/
theorem getD_byteBits_msbFirst (b : Byte) {i : Nat} (hi : i < 8) :
    (byteBits .msbFirst b).getD i false = b.getLsbD (7 - i) := by
  rw [byteBits, getD_map_range _ _ hi]

/-- Under LSB_FIRST it gives its lowest bit first. -/
theorem getD_byteBits_lsbFirst (b : Byte) {i : Nat} (hi : i < 8) :
    (byteBits .lsbFirst b).getD i false = b.getLsbD i := by
  rw [byteBits, getD_map_range _ _ hi]

/-- Every codeword position lies inside the frame (R222). -/
theorem Cfg.hsPos_lt {c : Cfg} (hc : c.l2Ok = true) {k : Nat} (hk : k < c.hsLen) : c.hsPos k < c.frameBits := by
  obtain ⟨-, -, -, -, -, -, -, -, -, hlast⟩ := Cfg.l2_facts hc
  have hle : k * (c.hsNoffset + 1) ≤ (c.hsLen - 1) * (c.hsNoffset + 1) := Nat.mul_le_mul_right _ (by omega)
  simp only [Cfg.hsPos] at hlast ⊢
  omega

/-- Bit P_k of the frame is codeword bit k. -/
theorem getD_headerSpread_code {c : Cfg} (hc : c.l2Ok = true) (bytes : List Byte) {k : Nat} (hk : k < c.hsLen) :
    (headerSpread c bytes).getD (c.hsPos k) false = c.hsCode.getD k false := by
  have hin : c.hsPos k < 0 + c.frameBits := by rw [Nat.zero_add]; exact Cfg.hsPos_lt hc hk
  exact getD_spreadFrom_code (c.hsNoffset + 1) c.frameBits 0 c.hsNstart c.hsCode _ (by omega) (by omega) k hk hin

/-- The positions without a codeword bit carry the payload bits in order. -/
theorem headerSpread_payload {c : Cfg} (hc : c.l2Ok = true) {bytes : List Byte} (hlen : bytes.length = c.payloadBytes) :
    ((List.range c.frameBits).filter (freePos (c.hsNoffset + 1) c.hsNstart c.hsLen)).map
      (fun x => (headerSpread c bytes).getD x false) = frameBitsOf c.l2BitOrder bytes := by
  obtain ⟨-, -, -, -, -, -, -, -, -, hlast⟩ := Cfg.l2_facts hc
  rw [List.range_eq_range']
  refine spreadFrom_payload (c.hsNoffset + 1) c.frameBits 0 c.hsNstart c.hsCode _ (by omega) (by omega) (fun _ => ?_) ?_
  · rw [Nat.zero_add]
    exact hlast
  · rw [length_frameBitsOf, hlen]
    rfl

/-- Settles O60: the codeword bits by `getD_headerSpread_code`, the others by `headerSpread_payload` and the bits of a
byte. -/
theorem headerSpreading : Obligations.HeaderSpreading := by
  refine fun c bytes hc hlen => ⟨rfl, rfl, length_headerSpread c bytes,
    fun k hk => getD_headerSpread_code hc bytes hk, (headerSpread_payload hc hlen).trans ?_⟩
  rw [frameBitsOf_eq]
  refine List.map_congr_left fun j _ => ?_
  have hbit : j % 8 < 8 := Nat.mod_lt j (by omega)
  cases c.l2BitOrder with
  | msbFirst => exact getD_byteBits_msbFirst _ hbit
  | lsbFirst => exact getD_byteBits_lsbFirst _ hbit

end Sys2Proof.Machine
end

section
/-! PROOFS of the control family (45_control.md): NOP. -/

namespace Sys2Proof.Machine

/-- NOP is a successful completion of the state it finds, with no items consumed or produced (R260). -/
theorem exec_nop (s : State) : exec .nop s = .next (s.completeOk 0 0) := exec_eq .nop s

/-- Settles O29: 0 is the first word of `specWordsDecode`, and `completeOk` writes the completion fields alone, the
counts with the word of 0. -/
theorem nopOnlyCompletes : Obligations.NopOnlyCompletes := by
  obtain ⟨hword, -⟩ := specWordsDecode
  have hzero : toWord 0 = 0 := rfl
  refine ⟨hword, fun s => ?_⟩
  rw [exec_nop, State.completeOk, hzero]

end Sys2Proof.Machine
end
